-- ==== Sys2Proof/Word.lean ====
section
/-! DEFINITION. The plain word types of RS-CORE (spec/00_scope.md R9, R10): every quantity is unsigned. -/

namespace Sys2Proof

/-- A field element, a shard byte or a matrix entry (R9). -/
abbrev Byte := BitVec 8

/-- A shard index, a shard count parameter or a shard length (R9). -/
abbrev Half := BitVec 16

/-- A register slot of the window and a command word (R20, R70). -/
abbrev Word := BitVec 32

end Sys2Proof
end

