-- ==== Sys2Proof/Config.lean ====
section
/-! DEFINITION. The implementation parameters of RS-CORE (spec/00_scope.md R7), fixed at this hardware's
values where the spec gives a default, and the values the spec leaves open. -/

namespace Sys2Proof

/-- The field's reduction polynomial, 9 bits, bit 8 set (R7, R90; decision D2 of the spec). -/
def Config.POLY : BitVec 9 := 0x11D

/-- The generator element whose powers fill the exp table (R7; decision D2). -/
def Config.ALPHA : Byte := 0x02

/-- The Cauchy row element `x_j`, `0 ≤ j < m` (R7; decision D4). -/
def Config.XSEQ (k _m j : Nat) : Byte := BitVec.ofNat 8 (k + j)

/-- The Cauchy column element `y_c`, `0 ≤ c < k` (R7; decision D4). -/
def Config.YSEQ (_k _m c : Nat) : Byte := BitVec.ofNat 8 c

/-- The size of the field, the largest `k + m` and the capacity of an index buffer in entries (R7). -/
def Config.NMAX : Nat := 256

/-- The largest shard length in bytes the data buffers hold (R7; decision D20). -/
def Config.LMAX : Nat := 65535

/-- The bytes of the host's window (R50). -/
def Config.windowBytes : Nat := 0x4000000

/-- Which window-sized slot of the platform's bus the block occupies: left to the platform (R7 `BASE`, U9),
so a constant with no value that Lean can see. -/
opaque Config.basePage : Nat

/-- The bus address of offset 0: a multiple of the window's size, otherwise open (R7, R50). -/
def Config.BASE : Nat := Config.basePage * Config.windowBytes

/-- FREE VALUE (assumption log 1). What a host read of a buffer location that holds no value delivers (U1 of
spec/93_implementation_defined.md: any value, with no promise that two reads agree): the draw's number is
`State.draws`, which every such read advances. A byte element takes the low eight bits. -/
opaque Config.unwrittenRead : Nat → Half

end Sys2Proof
end

