-- ==== Sys2Proof/Machine/State.lean ====
section
/-! DEFINITION. The state of RS-CORE and of the host that drives it: registers, buffers, the pending moves of
the two agents, the reasons a step can stop, and the state after reset (spec/10_state.md, R14, R37, R38). -/

namespace Sys2Proof.Machine

/-- The errors a command can complete with (R12, R160); success has no name. -/
inductive ErrorName where
  | invalidParameters
  | shardCountMismatch
  | shardLengthMismatch
  | tooFewShards
  | duplicateIndex
  | singularMatrix
  | divisionByZero
  | illegalCommand
  | indexOutOfRange
  | capacityExceeded
deriving DecidableEq, Repr

/-- The twelve registers of the window, in the order of their offsets (R20). -/
inductive Reg where
  | cmd | status | k | m | l | inLen | inCount | inMode | outLen | outCount | outMode | res
deriving DecidableEq, Repr

/-- The six buffers (R28). -/
inductive Buffer where
  | sel | inIdx | outIdx | mat | inData | outData
deriving DecidableEq, Repr

/-- What a performed host access reaches: a register, or the buffer element at a window offset (R51, R52). -/
inductive Target where
  | reg (r : Reg)
  | elem (b : Buffer) (off : Nat)
deriving DecidableEq, Repr

/-- One access of the host: `off` is a byte offset from `BASE`, `n` the size in bytes, `v` the written value,
of which the low `8n` bits travel (R11, R52). -/
inductive HostAccess where
  | read (off n : Nat)
  | write (off n : Nat) (v : Word)
deriving DecidableEq, Repr

/-- One move of one agent (R14, R62). `engine` gives the engine the turn: it takes its one step `COMPLETE` if
that is enabled. `host` is a host access, `reset` the platform's reset event (R180). -/
inductive Event where
  | engine
  | host (a : HostAccess)
  | reset
deriving DecidableEq, Repr

/-- Why the machine stops with a fault. -/
inductive Fault where
  /-- Raised by a host access that is misaligned, of the wrong size, straddling or unmapped (R52, R54). It is the
  host's fault: no error of a command, `STATUS` does not record it and the state before the step stands (U3).
  Safe: the model stops where the hardware goes on unchanged. -/
  | rejectedAccess (off n : Nat)
deriving DecidableEq, Repr

/-- Why the model gives a step no meaning. -/
inductive Refusal where
  /-- Raised by an arm of `exec` whose command has no meaning yet. Safe. No arm uses it. -/
  | notModelled (mnemonic : String)
  /-- Raised by a command whose rule reads a buffer location that nothing has written since reset, `off` its
  window offset: the location holds no value and the spec says to refuse (R38, R183, U1). Safe. -/
  | unwrittenRead (off : Nat)
  /-- Raised by a host access at `off` other than a read of `STATUS` while `BUSY = 1`: the spec gives it no
  meaning and says to refuse (R186, U2). Safe for a host that keeps the protocol; a claim says nothing of
  another. -/
  | protocolViolation (off : Nat)
deriving DecidableEq, Repr

/-- How a command's rule can end early: `raise` (R12), or a read the spec gives no meaning to (U1). -/
inductive Stop where
  | raise (e : ErrorName)
  | refuse (r : Refusal)
deriving DecidableEq, Repr

/-- The content of the buffers: the bytes that hold a value, each at its window offset, offsets strictly
rising. A location that is not listed holds no value (R38), so no listed byte is what an unlisted one reads as. -/
abbrev Memory := List Host.Cell

/-- The canonical form of `Memory`. -/
abbrev Memory.wf (mem : Memory) : Prop := mem.Pairwise (fun c d => c.1 < d.1)

/-- Everything the spec gives the machine, then what the model adds for the host. `CMD` is write-only and has no
storage but `cmdReg` (R20, R36). -/
structure State where
  /-- `STATUS` (R23). -/
  status   : Word
  /-- Parameter register `K` (R20, R21). -/
  k        : Half
  /-- Parameter register `M`. -/
  m        : Half
  /-- Parameter register `L`. -/
  l        : Half
  /-- Parameter register `IN_LEN`. -/
  inLen    : Half
  /-- Parameter register `IN_COUNT`. -/
  inCount  : Word
  /-- Parameter register `IN_MODE`: 0 Dense, 1 Sparse (R25). -/
  inMode   : BitVec 1
  /-- Result register `OUT_LEN` (R22). -/
  outLen   : Half
  /-- Result register `OUT_COUNT`. -/
  outCount : Word
  /-- Result register `OUT_MODE`. -/
  outMode  : BitVec 1
  /-- Result register `RES`. -/
  res      : Byte
  /-- `CMDREG`, the latched command word (R36). -/
  cmdReg   : Word
  /-- The six buffers `SEL`, `IN_IDX`, `OUT_IDX`, `MAT`, `IN_DATA`, `OUT_DATA` (R28, R51). -/
  mem      : Memory
  /-- The model's own: the moves still to come, in order (assumption log 2). When none is left, the engine
  completes a started command (R191) and is otherwise idle. -/
  agenda   : List Event
  /-- The model's own: the values the host's reads delivered, newest first (assumption log 3). -/
  replies  : List Word
  /-- The model's own: the number of the next free value drawn by a host read (assumption log 1). -/
  draws    : Nat
deriving DecidableEq, Repr

/-- The state right after reset: every register 0, the buffers without value (R37, R38). Nothing is pending, nothing has
been read. -/
def State.reset : State where
  status   := 0
  k        := 0
  m        := 0
  l        := 0
  inLen    := 0
  inCount  := 0
  inMode   := 0
  outLen   := 0
  outCount := 0
  outMode  := 0
  res      := 0
  cmdReg   := 0
  mem      := []
  agenda   := []
  replies  := []
  draws    := 0

end Sys2Proof.Machine
end

