-- ==== Sys2Proof/Machine/Flags.lean ====
section
/-! DEFINITION. The fields of `STATUS` and the values it takes, with the error numbers (spec/10_state.md R23, R24,
spec/60_exceptions.md R160). There are no arithmetic flags (R24). -/

namespace Sys2Proof.Machine

/-- The number `STATUS.ERR` holds for an error (R160). -/
def ErrorName.code : ErrorName → Byte
  | .invalidParameters   => 1
  | .shardCountMismatch  => 2
  | .shardLengthMismatch => 3
  | .tooFewShards        => 4
  | .duplicateIndex      => 5
  | .singularMatrix      => 6
  | .divisionByZero      => 7
  | .illegalCommand      => 8
  | .indexOutOfRange     => 9
  | .capacityExceeded    => 10

/-- `STATUS.BUSY`, bit 0 (R23). -/
def busyBit (status : Word) : Bool := status.getLsbD 0

/-- `STATUS.DONE`, bit 1 (R23). -/
def doneBit (status : Word) : Bool := status.getLsbD 1

/-- `STATUS.ERR`, bits 15:8 (R23). -/
def errField (status : Word) : Byte := status.extractLsb' 8 8

/-- `STATUS` from `START` to `COMPLETE`: `BUSY = 1`, `DONE = 0`, `ERR = 0` (R75). -/
def statusStarted : Word := 0x00000001

/-- `STATUS` after a successful `COMPLETE`: `BUSY = 0`, `DONE = 1`, `ERR = 0` (R76). -/
def statusDone : Word := 0x00000002

/-- `STATUS` after a `COMPLETE` that raised: `(code(X) << 8) or 0x02` (R165). -/
def statusError (e : ErrorName) : Word := (e.code.setWidth 32 <<< 8) ||| 0x02

end Sys2Proof.Machine
end

