-- ==== Sys2Proof/Machine/Ops.lean ====
section
/-! DEFINITION. The shared operations: memory, the window's map, registers, collecting results that may stop, and
how a command starts, completes and fails (spec/10_state.md, spec/20_memory.md, R75, R76, R165, R180). -/

namespace Sys2Proof.Machine

/-! ### Memory, byte by byte -/

/-- The byte at a window offset, if it holds a value. -/
def Memory.read : Memory → Nat → Option Byte
  | [], _ => none
  | c :: rest, a => if a = c.1 then some c.2 else Memory.read rest a

/-- Stores a byte, keeping the offsets strictly rising. -/
def Memory.write : Memory → Nat → Byte → Memory
  | [], a, v => [(a, v)]
  | c :: rest, a, v =>
    if a < c.1 then (a, v) :: c :: rest
    else if a = c.1 then (a, v) :: rest
    else c :: Memory.write rest a v

/-- Stores bytes one after the other from an offset upwards. -/
def Memory.writeBytes : Memory → Nat → List Byte → Memory
  | mem, _, [] => mem
  | mem, a, v :: vs => Memory.writeBytes (mem.write a v) (a + 1) vs

/-- Stores rows of bytes, each a fixed stride above the one before it. -/
def Memory.writeRows : Memory → Nat → Nat → List (List Byte) → Memory
  | mem, _, _, [] => mem
  | mem, a, stride, row :: rows => Memory.writeRows (mem.writeBytes a row) (a + stride) stride rows

/-- The 16-bit entry at an offset: low byte at the offset, high byte above it (R55). -/
def Memory.readHalf (mem : Memory) (a : Nat) : Option Half :=
  match mem.read a, mem.read (a + 1) with
  | some lo, some hi => some (hi ++ lo)
  | _, _ => none

/-- The two bytes of a 16-bit entry in the order of their offsets (R55). -/
def halfBytes (v : Half) : List Byte := [v.extractLsb' 0 8, v.extractLsb' 8 8]

/-- Stores a 16-bit entry (R55). -/
def Memory.writeHalf (mem : Memory) (a : Nat) (v : Half) : Memory := mem.writeBytes a (halfBytes v)

/-- Stores 16-bit entries one after the other from an offset upwards. -/
def Memory.writeHalves (mem : Memory) (a : Nat) (vs : List Half) : Memory :=
  mem.writeBytes a (vs.flatMap halfBytes)

/-! ### The window's map (R51) -/

/-- The offset of a buffer's first element (R51). -/
def Buffer.base : Buffer → Nat
  | .sel     => 0x0000200
  | .inIdx   => 0x0000400
  | .outIdx  => 0x0000600
  | .mat     => 0x0010000
  | .inData  => 0x1000000
  | .outData => 0x2000000

/-- The element size in bytes (R28, R51). -/
def Buffer.elemBytes : Buffer → Nat
  | .sel | .inIdx | .outIdx => 2
  | .mat | .inData | .outData => 1

/-- The capacity in elements (R28, R51). -/
def Buffer.count : Buffer → Nat
  | .sel | .inIdx | .outIdx => 256
  | .mat => 256 * 256
  | .inData | .outData => 256 * Config.LMAX

/-- The bytes of a buffer. -/
def Buffer.size (b : Buffer) : Nat := b.elemBytes * b.count

/-- May the host store into the buffer (R28, R30)? -/
def Buffer.hostWritable : Buffer → Bool
  | .inIdx | .mat | .inData => true
  | .sel | .outIdx | .outData => false

/-- The buffer rows of the map, in the order of their offsets (R51). -/
def bufferRows : List Buffer := [.sel, .inIdx, .outIdx, .mat, .inData, .outData]

/-- Do the bytes `[off, off + n)` lie inside the buffer's row (R52)? -/
def Buffer.holds (b : Buffer) (off n : Nat) : Bool :=
  decide (b.base ≤ off) && decide (off + n ≤ b.base + b.size)

/-- The registers in the order of their offsets, one 32-bit word each (R20, R56). -/
def registerRow : List Reg :=
  [.cmd, .status, .k, .m, .l, .inLen, .inCount, .inMode, .outLen, .outCount, .outMode, .res]

/-- The offset of a register (R20). -/
def Reg.offset (r : Reg) : Nat := 4 * registerRow.idxOf r

/-- What an access reaches, or `none` for a rejected one (R52): `off` a multiple of `n`, the bytes inside one row of the
map, `n` that row's element size. -/
def resolve (off n : Nat) : Option Target :=
  if off % n ≠ 0 then none
  else if off + n ≤ 0x30 then
    if n = 4 then registerRow[off / 4]?.map .reg else none
  else
    match bufferRows.find? (fun b => b.holds off n) with
    | some b => if n = b.elemBytes then some (.elem b off) else none
    | none => none

/-! ### Registers (R20) -/

/-- A register as the host reads it: zero-extended; `CMD` is write-only and reads 0 (R20, R53). -/
def State.readReg (s : State) : Reg → Word
  | .cmd      => 0
  | .status   => s.status
  | .k        => s.k.setWidth 32
  | .m        => s.m.setWidth 32
  | .l        => s.l.setWidth 32
  | .inLen    => s.inLen.setWidth 32
  | .inCount  => s.inCount
  | .inMode   => s.inMode.setWidth 32
  | .outLen   => s.outLen.setWidth 32
  | .outCount => s.outCount
  | .outMode  => s.outMode.setWidth 32
  | .res      => s.res.setWidth 32

/-- `START`: the command word is latched and `STATUS` says busy; `ERR` of the command before is cleared, the only
acknowledgement there is (R75, R166). -/
def State.start (s : State) (w : Word) : State := { s with cmdReg := w, status := statusStarted }

/-- A performed host write of a register: a read-write register keeps its implemented width, a read-only register
nothing, and `CMD` is `START` (R20, R53). -/
def State.writeReg (s : State) (r : Reg) (v : Word) : State :=
  match r with
  | .cmd     => s.start v
  | .k       => { s with k := v.setWidth 16 }
  | .m       => { s with m := v.setWidth 16 }
  | .l       => { s with l := v.setWidth 16 }
  | .inLen   => { s with inLen := v.setWidth 16 }
  | .inCount => { s with inCount := v }
  | .inMode  => { s with inMode := v.setWidth 1 }
  | .status | .outLen | .outCount | .outMode | .res => s

/-! ### Results that may stop -/

/-- Applies `f` to each element in order; the first stop ends it. -/
def collect {α β ε : Type} (f : α → Except ε β) : List α → Except ε (List β)
  | [] => .ok []
  | x :: xs =>
    match f x with
    | .error e => .error e
    | .ok y =>
      match collect f xs with
      | .error e => .error e
      | .ok ys => .ok (y :: ys)

/-- Ends a rule with the error of a check that failed (R12). -/
def raiseIf : Option ErrorName → Except Stop Unit
  | some e => .error (.raise e)
  | none => .ok ()

/-- The engine's read of the byte at a window offset; a location without a value is refused (R38, U1). -/
def State.engineByte (s : State) (off : Nat) : Except Stop Byte :=
  match s.mem.read off with
  | some v => .ok v
  | none => .error (.refuse (.unwrittenRead off))

/-- The engine's read of the 16-bit entry at a window offset (R38, U1). -/
def State.engineHalf (s : State) (off : Nat) : Except Stop Half :=
  match s.mem.readHalf off with
  | some v => .ok v
  | none => .error (.refuse (.unwrittenRead off))

/-! ### Completing a command -/

/-- The result registers at 0, with which every `COMPLETE` begins (R22, R76). -/
def State.clearResults (s : State) : State := { s with res := 0, outLen := 0, outCount := 0, outMode := 0 }

/-- `STATUS` after a normal end (R76). -/
def State.succeed (s : State) : State := { s with status := statusDone }

/-- COMPLETION WITH AN ERROR, the one operation every `raise` goes through: the result registers are 0, `STATUS` holds
the error's number, no buffer, parameter register or `CMDREG` changes, control goes nowhere (R165). The error stays
until the next `START` (R166, `State.start`); there is no other return. -/
def State.raised (s : State) (e : ErrorName) : State := { s.clearResults with status := statusError e }

/-- `COMPLETE` around a command's rule (R76): the results are cleared, the rule runs, and it ends in success, in an
error, or in a refusal where it read a location without a value. A rule's own writes are lost when it stops. -/
def State.complete (s : State) (rule : State → Except Stop State) : Host.Outcome State Fault Refusal :=
  match rule s.clearResults with
  | .ok t => .next t.succeed
  | .error (.raise e) => .next (s.raised e)
  | .error (.refuse r) => .refused r

/-- The reset event (R180): registers, `CMDREG` and buffers as after reset, a running command abandoned. The host's side
(what is still to come, what was read, which draws are used) is not the block's and stays. -/
def State.resetEvent (s : State) : State :=
  { State.reset with agenda := s.agenda, replies := s.replies, draws := s.draws }

end Sys2Proof.Machine
end

