-- ==== Sys2Proof/Machine/Bus.lean ====
section
/-! DEFINITION. The host's accesses through the window (spec/20_memory.md R50 to R55, spec/70_reset_and_hazards.md R186). -/

namespace Sys2Proof.Machine

/-- The window offset a bus address names, for a window at `base` (R50). -/
def offsetOf (base bus : Nat) : Option Nat :=
  if base ≤ bus ∧ bus < base + Config.windowBytes then some (bus - base) else none

/-- `STATUS.BUSY = 1`. -/
def State.busy (s : State) : Bool := busyBit s.status

/-- A performed read hands the host a value and changes nothing of the block (R53). -/
def State.deliver (s : State) (v : Word) : State := { s with replies := v :: s.replies }

/-- The value of the buffer element at a window offset, zero-extended, if it holds one (R53). -/
def State.element (s : State) (b : Buffer) (off : Nat) : Option Word :=
  if b.elemBytes = 2 then (s.mem.readHalf off).map (·.setWidth 32)
  else (s.mem.read off).map (·.setWidth 32)

/-- FREE VALUE (assumption log 1): the value of the next draw, cut to the element's size (U1). -/
def State.drawn (s : State) (b : Buffer) : Word :=
  if b.elemBytes = 2 then (Config.unwrittenRead s.draws).setWidth 32
  else ((Config.unwrittenRead s.draws).setWidth 8).setWidth 32

/-- A performed read of a buffer element: its value, or a free value where it holds none (R53, U1). -/
def State.readElement (s : State) (b : Buffer) (off : Nat) : State :=
  match s.element b off with
  | some v => s.deliver v
  | none => { s.deliver (s.drawn b) with draws := s.draws + 1 }

/-- A performed write of a buffer element: stored if the host may write the buffer, else nothing (R30, R53). -/
def State.writeElement (s : State) (b : Buffer) (off : Nat) (v : Word) : State :=
  if b.hostWritable then
    if b.elemBytes = 2 then { s with mem := s.mem.writeHalf off (v.setWidth 16) }
    else { s with mem := s.mem.write off (v.setWidth 8) }
  else s

/-- `HostRead(off, n)` (R52 to R54); while `BUSY = 1` only a performed read of `STATUS` has a meaning (R186). -/
def State.hostRead (s : State) (off n : Nat) : Host.Outcome State Fault Refusal :=
  match resolve off n with
  | none => .fault (.rejectedAccess off n)
  | some (.reg r) =>
    if s.busy ∧ r ≠ .status then .refused (.protocolViolation off) else .next (s.deliver (s.readReg r))
  | some (.elem b o) =>
    if s.busy then .refused (.protocolViolation off) else .next (s.readElement b o)

/-- `HostWrite(off, n, v)` (R52 to R54, R186); a write of `CMD` is `START` (R75). -/
def State.hostWrite (s : State) (off n : Nat) (v : Word) : Host.Outcome State Fault Refusal :=
  match resolve off n with
  | none => .fault (.rejectedAccess off n)
  | some (.reg r) => if s.busy then .refused (.protocolViolation off) else .next (s.writeReg r v)
  | some (.elem b o) => if s.busy then .refused (.protocolViolation off) else .next (s.writeElement b o v)

/-- One host access. -/
def State.hostAccess (s : State) : HostAccess → Host.Outcome State Fault Refusal
  | .read off n => s.hostRead off n
  | .write off n v => s.hostWrite off n v

end Sys2Proof.Machine
end

