-- ==== Sys2Proof/Syntax.lean ====
section
/-! DEFINITION. The commands of RS-CORE: one constructor per row of spec/opcode_table.json
(spec/30_encoding.md R73). -/

namespace Sys2Proof

/-- The seven commands. Format AB commands carry the two 8-bit operands of their word (R71), format N
commands carry none (R70); every other input is an implicit register or buffer. -/
inductive Instr where
  /-- `GFADD a, b` (R100). -/
  | gfadd (a b : Byte)
  /-- `GFMUL a, b` (R101). -/
  | gfmul (a b : Byte)
  /-- `GFDIV a, b` (R102): dividend `a`, divisor `b`. -/
  | gfdiv (a b : Byte)
  /-- `GENQ r, c` (R115): row `r`, column `c`. -/
  | genq (r c : Byte)
  /-- `ENCODE` (R120). -/
  | encode
  /-- `MATINV` (R135). -/
  | matinv
  /-- `DECODE` (R140). -/
  | decode
deriving DecidableEq, Repr

end Sys2Proof
end

