-- ==== Sys2Proof/Decode.lean ====
section
/-! DEFINITION. The command word's fields, the opcode map and its inverse (spec/30_encoding.md R70 to R74). -/

namespace Sys2Proof

/-- Why a command word is no command (R74). Either way the engine completes with `IllegalCommand`. -/
inductive DecodeError where
  /-- `op` selects no row: `0x00` or `0x08` to `0xFF`. -/
  | unassignedOpcode (op : Byte)
  /-- `op` selects a row, but a bit the row's format requires to be zero is set. -/
  | reservedBitsSet (op : Byte)
deriving DecidableEq, Repr

/-- Field `op`, bits 7:0 (R70). -/
def opField (w : Word) : Byte := w.extractLsb' 0 8

/-- Field `a`, bits 15:8 (R70, R71). -/
def aField (w : Word) : Byte := w.extractLsb' 8 8

/-- Field `b`, bits 23:16 (R70, R71). -/
def bField (w : Word) : Byte := w.extractLsb' 16 8

/-- A row of the opcode map: a word selects it when `(word and mask) = pattern` (R73). -/
structure CommandRow where
  pattern : Word
  mask    : Word
  build   : Byte → Byte → Instr

/-- The mask of format AB: `op` and bits 31:24 are fixed (R70). -/
def maskAB : Word := 0xFF0000FF

/-- The mask of format N: every bit is fixed (R70). -/
def maskN : Word := 0xFFFFFFFF

/-- The opcode map, in the spec's order (R73). -/
def opcodeMap : List CommandRow :=
  [ ⟨0x00000001, maskAB, .gfadd⟩,
    ⟨0x00000002, maskAB, .gfmul⟩,
    ⟨0x00000003, maskAB, .gfdiv⟩,
    ⟨0x00000004, maskAB, .genq⟩,
    ⟨0x00000005, maskN, fun _ _ => .encode⟩,
    ⟨0x00000006, maskN, fun _ _ => .matinv⟩,
    ⟨0x00000007, maskN, fun _ _ => .decode⟩ ]

/-- Does the word select the row (R73)? -/
def CommandRow.selects (r : CommandRow) (w : Word) : Bool := w &&& r.mask == r.pattern

/-- The command of a word, or the name of the reason there is none (R73, R74). -/
def decodeWord (w : Word) : Except DecodeError Instr :=
  match opcodeMap.find? (fun r => r.selects w) with
  | some r => .ok (r.build (aField w) (bField w))
  | none =>
    if 0x01 ≤ (opField w).toNat ∧ (opField w).toNat ≤ 0x07 then .error (.reservedBitsSet (opField w))
    else .error (.unassignedOpcode (opField w))

/-- The word of a format AB command: `(b << 16) or (a << 8) or op` (R80, R100 to R102, R115). -/
def wordAB (op : Word) (a b : Byte) : Word :=
  (b.setWidth 32 <<< 16) ||| (a.setWidth 32 <<< 8) ||| op

/-- The command word of a command (R70, R73). -/
def encode : Instr → Word
  | .gfadd a b => wordAB 0x01 a b
  | .gfmul a b => wordAB 0x02 a b
  | .gfdiv a b => wordAB 0x03 a b
  | .genq r c  => wordAB 0x04 r c
  | .encode    => 0x05
  | .matinv    => 0x06
  | .decode    => 0x07

/-- The opcode table's word as the 32-bit command word: bits at and above `nbits` are zero (R70: there is one
length, 32 bits, and the word is written whole, so no byte order enters). -/
def tableWord (nbits w : Nat) : Word := BitVec.ofNat 32 (w % 2 ^ nbits)

/-- The instruction the decoder reads from a table word (none where it refuses). -/
def decodeTableWord (nbits w : Nat) : Option Instr :=
  match decodeWord (tableWord nbits w) with
  | .ok i    => some i
  | .error _ => none

end Sys2Proof
end

