-- ==== Sys2Proof/Machine/Operands.lean ====
section
/-! DEFINITION. The implicit operands of a command as natural numbers and the engine's effective addresses
(spec/30_encoding.md R71, spec/20_memory.md R60, spec/00_scope.md R9). -/

namespace Sys2Proof.Machine

/-- `R.K` as a natural number, so that no sum wraps (R9, R11). -/
def State.kNat (s : State) : Nat := s.k.toNat

/-- `R.M` as a natural number. -/
def State.mNat (s : State) : Nat := s.m.toNat

/-- `R.L` as a natural number. -/
def State.lNat (s : State) : Nat := s.l.toNat

/-- `R.IN_COUNT` as a natural number. -/
def State.countNat (s : State) : Nat := s.inCount.toNat

/-- Where byte `b` of the shard at position `p` of the input set is: `IN_DATA[p × L + b]` (R60). -/
def inDataAt (l p b : Nat) : Nat := Buffer.base .inData + (p * l + b)

/-- Where byte `b` of the shard at position `q` of the output set is: `OUT_DATA[q × L + b]` (R60). -/
def outDataAt (l q b : Nat) : Nat := Buffer.base .outData + (q * l + b)

/-- Where `IN_IDX[p]` is (R51). -/
def inIdxAt (p : Nat) : Nat := Buffer.base .inIdx + 2 * p

/-- Where `OUT_IDX[q]` is (R51). -/
def outIdxAt (q : Nat) : Nat := Buffer.base .outIdx + 2 * q

/-- Where `SEL[t]` is (R51). -/
def selAt (t : Nat) : Nat := Buffer.base .sel + 2 * t

/-- Where `MAT[i][j]` is: the row stride is always 256 (R31, R51). -/
def matAt (i j : Nat) : Nat := Buffer.base .mat + (256 * i + j)

/-- Byte column `b` of the input shards at the given positions, in their order. -/
def State.inColumn (s : State) (positions : List Nat) (b : Nat) : Except Stop (List Byte) :=
  collect (fun p => s.engineByte (inDataAt s.lNat p b)) positions

/-- The `n × n` corner of `MAT`, row by row (R31). -/
def State.matCorner (s : State) (n : Nat) : Except Stop (List (List Byte)) :=
  collect (fun i => collect (fun j => s.engineByte (matAt i j)) (List.range n)) (List.range n)

end Sys2Proof.Machine
end

