-- ==== Sys2Proof/Machine/Generator.lean ====
section
/-! DEFINITION. The generator-matrix ROM and the command `GENQ` (spec/41_generator.md R110 to R115). -/

namespace Sys2Proof.Machine

/-- `valid_km(k, m)` (R112). -/
def validKm (k m : Nat) : Bool := decide (1 ≤ k) && decide (k + m ≤ Config.NMAX)

/-- `GEN(k, r, c)`: an identity row below `k`, a Cauchy row from `k` on (R110). `m` only names the sequences. -/
def gen (k m r c : Nat) : Except Stop Byte :=
  if r < k then .ok (if r = c then 0x01 else 0x00)
  else gfInv (Config.XSEQ k m (r - k) ^^^ Config.YSEQ k m c)

/-- Row `r` of the generator matrix, `k` entries (R110). -/
def genRow (k m r : Nat) : Except Stop (List Byte) := collect (gen k m r) (List.range k)

/-- The checks of `GENQ`, in order (R115, R163). -/
def genqCheck (k m r c : Nat) : Option ErrorName :=
  if ¬ validKm k m then some .invalidParameters
  else if k + m ≤ r ∨ k ≤ c then some .indexOutOfRange
  else none

/-- The rule of `GENQ r, c` (R115). -/
def ruleGenq (r c : Byte) (s : State) : Except Stop State := do
  raiseIf (genqCheck s.kNat s.mNat r.toNat c.toNat)
  let g ← gen s.kNat s.mNat r.toNat c.toNat
  .ok { s with res := g }

/-- `GENQ r, c` (R115). -/
def execGenq (r c : Byte) (s : State) : Host.Outcome State Fault Refusal := s.complete (ruleGenq r c)

end Sys2Proof.Machine
end

