-- ==== Sys2Proof/Machine/Encoder.lean ====
section
/-! DEFINITION. The encoder: command `ENCODE` (spec/42_encode.md R120 to R124). -/

namespace Sys2Proof.Machine

/-- The validation of `ENCODE`, in order (R121, R163). -/
def encodeCheck (s : State) : Option ErrorName :=
  if ¬ validKm s.kNat s.mNat then some .invalidParameters
  else if Config.LMAX < s.lNat then some .capacityExceeded
  else if s.countNat ≠ s.kNat then some .shardCountMismatch
  else if s.inLen ≠ s.l then some .shardLengthMismatch
  else none

/-- The bytes of the shard a row of coefficients makes of the input shards at the given positions: for each byte
column, the row times that column (R120, R150). -/
def State.combineShards (s : State) (row : List Byte) (positions : List Nat) : Except Stop (List Byte) :=
  collect (fun b => do
    let col ← s.inColumn positions b
    .ok (gfDot row col)) (List.range s.lNat)

/-- Recovery shard `j`: row `k + j` of the generator matrix times the originals, position `i` being original `i`
whatever `IN_MODE` holds (R120, R123). -/
def State.recoveryShard (s : State) (j : Nat) : Except Stop (List Byte) := do
  let row ← genRow s.kNat s.mNat (s.kNat + j)
  s.combineShards row (List.range s.kNat)

/-- The rule of `ENCODE` (R120): shard `j` goes to `OUT_DATA[j × L ..)`, the output is Dense. -/
def ruleEncode (s : State) : Except Stop State := do
  raiseIf (encodeCheck s)
  let shards ← collect s.recoveryShard (List.range s.mNat)
  .ok { s with
    mem      := s.mem.writeRows (outDataAt s.lNat 0 0) s.lNat shards
    outLen   := s.l
    outCount := s.m.setWidth 32
    outMode  := 0 }

/-- `ENCODE` (R120). -/
def execEncode (s : State) : Host.Outcome State Fault Refusal := s.complete ruleEncode

end Sys2Proof.Machine
end

