-- ==== Sys2Proof/Machine/MatInv.lean ====
section
/-! DEFINITION. Matrix inversion by Gauss-Jordan elimination: `gf_matinv` and the command `MATINV`
(spec/43_matinv.md R130 to R135). -/

namespace Sys2Proof.Machine

/-- One row of the two working matrices `W` and `V`, on which every row operation acts alike (R130). -/
structure WorkRow where
  w : List Byte
  v : List Byte
deriving DecidableEq, Repr

/-- The row times a factor. -/
def WorkRow.scale (row : WorkRow) (d : Byte) : WorkRow := ⟨row.w.map (gfMul d), row.v.map (gfMul d)⟩

/-- The row plus a factor times the pivot row. -/
def WorkRow.addMul (row : WorkRow) (f : Byte) (pivot : WorkRow) : WorkRow :=
  ⟨List.zipWith (fun x y => gfAdd x (gfMul f y)) row.w pivot.w,
   List.zipWith (fun x y => gfAdd x (gfMul f y)) row.v pivot.v⟩

/-- `W[r][c]`. -/
def workEntry (rows : List WorkRow) (r c : Nat) : Byte := (rows.getD r ⟨[], []⟩).w.getD c 0x00

/-- Row `i` of `identity(n)`. -/
def identityRow (n i : Nat) : List Byte := (List.range n).map (fun j => if i = j then 0x01 else 0x00)

/-- `W <- S`, `V <- identity(n)` (R130). -/
def workStart (n : Nat) (mat : List (List Byte)) : List WorkRow :=
  mat.mapIdx (fun i row => ⟨row, identityRow n i⟩)

/-- The least row at or below the diagonal with a nonzero entry in column `c` (R130). -/
def findPivot (n : Nat) (rows : List WorkRow) (c : Nat) : Option Nat :=
  (List.range' c (n - c)).find? (fun r => workEntry rows r c ≠ 0x00)

/-- Rows `i` and `j` exchanged; nothing when they are one row (R130). -/
def swapRows (rows : List WorkRow) (i j : Nat) : List WorkRow :=
  (rows.set i (rows.getD j ⟨[], []⟩)).set j (rows.getD i ⟨[], []⟩)

/-- Every row but the pivot row loses its entry in column `c` (R130). -/
def eliminate (rows : List WorkRow) (c : Nat) (pivot : WorkRow) : List WorkRow :=
  rows.mapIdx (fun r row => if r = c then pivot else row.addMul (row.w.getD c 0x00) pivot)

/-- One turn of the loop over pivot columns: search, swap, normalise, eliminate (R130). -/
def pivotColumn (n : Nat) (rows : List WorkRow) (c : Nat) : Except Stop (List WorkRow) :=
  match findPivot n rows c with
  | none => .error (.raise .singularMatrix)
  | some p =>
    match gfInv (workEntry (swapRows rows c p) c c) with
    | .error e => .error e
    | .ok d => .ok (eliminate (swapRows rows c p) c (((swapRows rows c p).getD c ⟨[], []⟩).scale d))

/-- The loop over the pivot columns still to do (R130). -/
def pivotColumns (n : Nat) : List Nat → List WorkRow → Except Stop (List WorkRow)
  | [], rows => .ok rows
  | c :: cs, rows =>
    match pivotColumn n rows c with
    | .error e => .error e
    | .ok rows' => pivotColumns n cs rows'

/-- `gf_matinv(n, S)` (R130). -/
def gfMatinv (n : Nat) (mat : List (List Byte)) : Except Stop (List (List Byte)) :=
  match pivotColumns n (List.range n) (workStart n mat) with
  | .error e => .error e
  | .ok rows => .ok (rows.map (·.v))

/-- The check of `MATINV` (R135, R163). -/
def matinvCheck (n : Nat) : Option ErrorName :=
  if n = 0 ∨ Config.NMAX < n then some .invalidParameters else none

/-- The rule of `MATINV` (R135): `n = R.K`, the corner of `MAT` is replaced by its inverse. -/
def ruleMatinv (s : State) : Except Stop State := do
  raiseIf (matinvCheck s.kNat)
  let mat ← s.matCorner s.kNat
  let inv ← gfMatinv s.kNat mat
  .ok { s with mem := s.mem.writeRows (matAt 0 0) 256 inv }

/-- `MATINV` (R135). -/
def execMatinv (s : State) : Host.Outcome State Fault Refusal := s.complete ruleMatinv

end Sys2Proof.Machine
end

