-- ==== Sys2Proof/Machine/Decoder.lean ====
section
/-! DEFINITION. The decoder: command `DECODE` (spec/44_decode.md R140 to R153). -/

namespace Sys2Proof.Machine

/-- Steps 1 to 4 of the validation, which read no buffer (R142, R163). -/
def decodeHeaderCheck (s : State) : Option ErrorName :=
  if ¬ validKm s.kNat s.mNat then some .invalidParameters
  else if Config.LMAX < s.lNat then some .capacityExceeded
  else if s.inLen ≠ s.l then some .shardLengthMismatch
  else if 256 < s.countNat then some .capacityExceeded
  else none

/-- `idx[0..n)`: the indices the input positions carry, from `IN_IDX` when Sparse, the position itself when Dense (R141). -/
def State.presentIndices (s : State) : Except Stop (List Nat) :=
  if s.inMode = 1 then
    collect (fun p => do
      let i ← s.engineHalf (inIdxAt p)
      .ok i.toNat) (List.range s.countNat)
  else .ok (List.range s.countNat)

/-- Steps 5 to 7 of the validation, each a predicate on the whole input (R142, R163). -/
def decodeIndexCheck (k m : Nat) (idx : List Nat) : Option ErrorName :=
  if idx.any (fun i => decide (k + m ≤ i)) then some .indexOutOfRange
  else if ¬ idx.Nodup then some .duplicateIndex
  else if idx.length < k then some .tooFewShards
  else none

/-- The originals no present shard carries, ascending (R140, R145). -/
def missingOriginals (k : Nat) (idx : List Nat) : List Nat := (List.range k).filter (fun i => !idx.contains i)

/-- `have_original`, ascending (R145). -/
def haveOriginal (k : Nat) (idx : List Nat) : List Nat := (List.range k).filter (fun i => idx.contains i)

/-- `have_recovery`, ascending (R145). -/
def haveRecovery (k m : Nat) (idx : List Nat) : List Nat := (List.range' k m).filter (fun i => idx.contains i)

/-- The erasure selector's `sel`: all present originals, then the smallest present recovery indices, as many as
originals are missing; ascending because every original index is below every recovery index (R147). -/
def selectShards (k m : Nat) (idx : List Nat) : List Nat :=
  haveOriginal k idx ++ (haveRecovery k m idx).take (missingOriginals k idx).length

/-- `pos[t]`: the input position of each selected shard (R147). -/
def selectedPositions (idx sel : List Nat) : List Nat := sel.map (fun g => idx.idxOf g)

/-- The submatrix `S`: the generator matrix's rows of the selected indices (R148). -/
def submatrix (k m : Nat) (sel : List Nat) : Except Stop (List (List Byte)) := collect (genRow k m) sel

/-- The recovered original `i`: row `i` of the inverse times the selected shards (R150). -/
def State.recoveredShard (s : State) (inv : List (List Byte)) (positions : List Nat) (i : Nat) :
    Except Stop (List Byte) :=
  s.combineShards (inv.getD i []) positions

/-- What the reconstruction path writes: the recovered shards, their indices, the inverse and the selection, all after
the last point of failure (R140, R150, R152). -/
def State.writeRecovered (s : State) (missing sel : List Nat) (inv shards : List (List Byte)) : State :=
  { s with
    mem :=
      (((s.mem.writeRows (outDataAt s.lNat 0 0) s.lNat shards).writeHalves (outIdxAt 0)
        (missing.map (BitVec.ofNat 16))).writeRows (matAt 0 0) 256 inv).writeHalves (selAt 0)
        (sel.map (BitVec.ofNat 16))
    outLen   := s.l
    outCount := BitVec.ofNat 32 missing.length
    outMode  := 1 }

/-- The reconstruction path, for a nonempty list of missing originals (R147 to R152). -/
def ruleReconstruct (idx : List Nat) (s : State) : Except Stop State := do
  let sel := selectShards s.kNat s.mNat idx
  let missing := missingOriginals s.kNat idx
  let sub ← submatrix s.kNat s.mNat sel
  let inv ← gfMatinv s.kNat sub
  let shards ← collect (s.recoveredShard inv (selectedPositions idx sel)) missing
  .ok (s.writeRecovered missing sel inv shards)

/-- The empty result when nothing is missing: no buffer is read or written (R146). -/
def State.nothingMissing (s : State) : State := { s with outLen := s.l, outCount := 0, outMode := 1 }

/-- The rule of `DECODE` (R140). -/
def ruleDecode (s : State) : Except Stop State := do
  raiseIf (decodeHeaderCheck s)
  let idx ← s.presentIndices
  raiseIf (decodeIndexCheck s.kNat s.mNat idx)
  if missingOriginals s.kNat idx = [] then .ok s.nothingMissing
  else ruleReconstruct idx s

/-- `DECODE` (R140). -/
def execDecode (s : State) : Host.Outcome State Fault Refusal := s.complete ruleDecode

end Sys2Proof.Machine
end

