-- ==== Sys2Proof/Machine/Scalar.lean ====
section
/-! DEFINITION. The scalar commands `GFADD`, `GFMUL`, `GFDIV` (spec/40_gf_arith.md R100 to R102): they read no parameter
register and no buffer and write only `RES` and `STATUS`. -/

namespace Sys2Proof.Machine

/-- The rule of `GFADD a, b` (R100). -/
def ruleGfadd (a b : Byte) (s : State) : Except Stop State := .ok { s with res := gfAdd a b }

/-- `GFADD a, b` (R100). -/
def execGfadd (a b : Byte) (s : State) : Host.Outcome State Fault Refusal := s.complete (ruleGfadd a b)

/-- The rule of `GFMUL a, b` (R101). -/
def ruleGfmul (a b : Byte) (s : State) : Except Stop State := .ok { s with res := gfMul a b }

/-- `GFMUL a, b` (R101). -/
def execGfmul (a b : Byte) (s : State) : Host.Outcome State Fault Refusal := s.complete (ruleGfmul a b)

/-- The rule of `GFDIV a, b` (R102): raises `DivisionByZero` when `b = 0x00`. -/
def ruleGfdiv (a b : Byte) (s : State) : Except Stop State := do
  let q ← gfDiv a b
  .ok { s with res := q }

/-- `GFDIV a, b` (R102). -/
def execGfdiv (a b : Byte) (s : State) : Host.Outcome State Fault Refusal := s.complete (ruleGfdiv a b)

end Sys2Proof.Machine
end

