-- ==== Sys2Proof/Machine/Dispatch.lean ====
section
/-! DEFINITION. One arm per command, each one call of its meaning (spec/30_encoding.md R73, R76). -/

namespace Sys2Proof.Machine

/-- The engine's step `COMPLETE` for a command word that decodes to `i` (R76). -/
def exec (i : Instr) (s : State) : Host.Outcome State Fault Refusal :=
  match i with
  | .gfadd a b => Sys2Proof.Machine.execGfadd a b s
  | .gfmul a b => Sys2Proof.Machine.execGfmul a b s
  | .gfdiv a b => Sys2Proof.Machine.execGfdiv a b s
  | .genq r c => Sys2Proof.Machine.execGenq r c s
  | .encode => Sys2Proof.Machine.execEncode s
  | .matinv => Sys2Proof.Machine.execMatinv s
  | .decode => Sys2Proof.Machine.execDecode s

end Sys2Proof.Machine
end

