-- ==== Sys2Proof/Machine/Engine.lean ====
section
/-! DEFINITION. The engine's one step `COMPLETE`, whose turn it is, and how a command word is placed where the next step
takes it (spec/00_scope.md R14, spec/30_encoding.md R75, R76, spec/70_reset_and_hazards.md R191). -/

namespace Sys2Proof.Machine

/-- `COMPLETE` (R76): the latched word's command, or `IllegalCommand` for a word that is none (R74). -/
def State.completeCommand (s : State) : Host.Outcome State Fault Refusal :=
  match decodeWord s.cmdReg with
  | .ok i => exec i s
  | .error _ => .next (s.raised .illegalCommand)

/-- The engine's turn: `COMPLETE` is enabled exactly when `BUSY = 1` (R76); an idle block does not step (R173). -/
def State.engineTurn (s : State) : Host.Outcome State Fault Refusal :=
  if s.busy then s.completeCommand else .next s

/-- Is the next move the engine's: its turn has come, or nothing else is to come (assumption log 2)? -/
def State.engineNext (s : State) : Bool :=
  match s.agenda with
  | [] => true
  | .engine :: _ => true
  | .host _ :: _ => false
  | .reset :: _ => false

/-- The state with the next move taken off the agenda. -/
def State.takeMove (s : State) : State := { s with agenda := s.agenda.tail }

/-- A move carried out, once it is off the agenda. -/
def State.move (s : State) : Event → Host.Outcome State Fault Refusal
  | .engine => s.engineTurn
  | .host a => s.hostAccess a
  | .reset => .next s.resetEvent

/-- The command word in `CMDREG` as `START` leaves it, the engine having the next move (assumption log 4). Moves that are
still to come stay to come. -/
def State.placeCommand (s : State) (w : Word) : State :=
  { s.start w with agenda := if s.agenda = [] then [] else .engine :: s.agenda }

end Sys2Proof.Machine
end

