-- ==== Sys2Proof/Machine/Script.lean ====
section
/-! DEFINITION. The host script: its lines, their expansion into the moves of the agenda, and the pseudo-lines
(spec/30_encoding.md R80, R81). -/

namespace Sys2Proof.Machine

/-- A line of a host script (R80), and the pseudo-line `wait` (R81). -/
inductive ScriptLine where
  | wr (r : Reg) (v : Word)
  | rd (r : Reg)
  | wrb (buf : Buffer) (a : Nat) (bytes : List Byte)
  | rdb (buf : Buffer) (a n : Nat)
  | wrh (buf : Buffer) (p : Nat) (entries : List Half)
  | rdh (buf : Buffer) (p n : Nat)
  | wrm (i j : Nat) (bytes : List Byte)
  | rdm (i j n : Nat)
  | cmd (i : Instr)
  /-- `wait` with the number of `STATUS` reads that still see `BUSY = 1`: the spec leaves the time open (U8), so every
  number is one of the hardware's runs. -/
  | wait (polls : Nat)
deriving DecidableEq, Repr

/-- The host's read of `STATUS`. -/
def statusRead : Event := .host (.read (Reg.offset .status) 4)

/-- Bytes written at an offset and upwards, in order. -/
def byteWrites (off : Nat) (bytes : List Byte) : List Event :=
  bytes.mapIdx (fun i v => .host (.write (off + i) 1 (v.setWidth 32)))

/-- Bytes read at an offset and upwards, in order. -/
def byteReads (off n : Nat) : List Event := (List.range n).map (fun i => .host (.read (off + i) 1))

/-- The moves of one line (R80). `wait` is read for its outcome: some busy reads, `COMPLETE`, one read that is not busy
(R81, R191). -/
def ScriptLine.events : ScriptLine → List Event
  | .wr r v => [.host (.write r.offset 4 v)]
  | .rd r => [.host (.read r.offset 4)]
  | .wrb buf a bytes => byteWrites (buf.base + a) bytes
  | .rdb buf a n => byteReads (buf.base + a) n
  | .wrh buf p entries => entries.mapIdx (fun i h => .host (.write (buf.base + 2 * (p + i)) 2 (h.setWidth 32)))
  | .rdh buf p n => (List.range n).map (fun i => .host (.read (buf.base + 2 * (p + i)) 2))
  | .wrm i j bytes => byteWrites (Buffer.base .mat + (256 * i + j)) bytes
  | .rdm i j n => byteReads (Buffer.base .mat + (256 * i + j)) n
  | .cmd i => [.host (.write (Reg.offset .cmd) 4 (encode i))]
  | .wait polls => List.replicate polls statusRead ++ [.engine, statusRead]

/-- `DENSE` and `SPARSE` as values for `IN_MODE` (R80). -/
def scriptDense : Word := 0

/-- See `scriptDense`. -/
def scriptSparse : Word := 1

/-- `run MNEMONIC [a, b]` (R81). -/
def scriptRun (i : Instr) (polls : Nat) : List ScriptLine := [.cmd i, .wait polls]

/-- `gfinv a` (R81). -/
def scriptGfinv (a : Byte) (polls : Nat) : List ScriptLine := scriptRun (.gfdiv 0x01 a) polls

/-- The parameter writes the two calls share (R81). -/
def scriptParams (k m n count : Nat) (mode : Word) : List ScriptLine :=
  [ .wr .k (BitVec.ofNat 32 k), .wr .m (BitVec.ofNat 32 m), .wr .l (BitVec.ofNat 32 n),
    .wr .inLen (BitVec.ofNat 32 n), .wr .inCount (BitVec.ofNat 32 count), .wr .inMode mode ]

/-- Shards of length `n` written one after the other (R81). -/
def scriptShards (n : Nat) (shards : List (List Byte)) : List ScriptLine :=
  shards.mapIdx (fun p bytes => .wrb .inData (p * n) bytes)

/-- `encode(k, m, n, S)` (R81). -/
def scriptEncode (k m n : Nat) (shards : List (List Byte)) (polls : Nat) : List ScriptLine :=
  scriptParams k m n k scriptDense ++ scriptShards n shards ++ scriptRun .encode polls

/-- `decode(k, m, n, T)` (R81). -/
def scriptDecode (k m n : Nat) (tagged : List (Half × List Byte)) (polls : Nat) : List ScriptLine :=
  scriptParams k m n tagged.length scriptSparse ++ [.wrh .inIdx 0 (tagged.map (·.1))] ++
    scriptShards n (tagged.map (·.2)) ++ scriptRun .decode polls

/-- The state in which the host is about to run a script after what it still has to do (assumption log 2). -/
def State.loadScript (s : State) (lines : List ScriptLine) : State :=
  { s with agenda := s.agenda ++ lines.flatMap ScriptLine.events }

end Sys2Proof.Machine
end

