-- ==== Sys2Proof/WellFormed.lean ====
section
/-! DEFINITION. What a well-formed command, host access and configuration are (spec/30_encoding.md R71,
spec/20_memory.md R52, spec/00_scope.md R7). -/

namespace Sys2Proof

open Machine

/-- A command is well-formed when its operands fit their fields; the operands are bytes, so every command of the type
is (R70, R71). -/
def Instr.wellFormed : Instr → Bool
  | .gfadd a b | .gfmul a b | .gfdiv a b | .genq a b => decide (a.toNat < 256) && decide (b.toNat < 256)
  | .encode | .matinv | .decode => true

/-- A host access has a size of 1, 2 or 4 bytes, and a written value fits the size (R52). -/
def Machine.HostAccess.wellFormed : HostAccess → Bool
  | .read _ n => [1, 2, 4].contains n
  | .write _ n v => [1, 2, 4].contains n && decide (v.toNat < 2 ^ (8 * n))

/-- A reduction polynomial is legal when bit 8 is set and `ALPHA = 0x02` generates all 255 nonzero elements (R7, R8). -/
def polyLegal (poly : BitVec 9) : Bool := poly.getLsbD 8 && decide (powersFrom poly 255 0x01).Nodup

/-- The constraints on the Cauchy sequences for `(k, m)`: each has distinct elements and they are disjoint (R7). -/
def sequencesLegal (xseq yseq : Nat → Byte) (k m : Nat) : Bool :=
  decide ((List.range m).map xseq ++ (List.range k).map yseq).Nodup

end Sys2Proof
end

