-- ==== Sys2Proof/Safety.lean ====
section
/-! DEFINITION. The terms in which claims about RS-CORE are made: what stays the same across a step, what a command's
input is, the invariant of every step, and when a run has ended well. -/

namespace Sys2Proof.Machine

/-! ### What stays the same -/

/-- The parameter registers are those of `s` (R21). -/
def State.SameParams (s t : State) : Prop :=
  t.k = s.k ∧ t.m = s.m ∧ t.l = s.l ∧ t.inLen = s.inLen ∧ t.inCount = s.inCount ∧ t.inMode = s.inMode

/-- The host's side is that of `s`: nothing was taken off the agenda, read or drawn. -/
def State.SameHost (s t : State) : Prop := t.agenda = s.agenda ∧ t.replies = s.replies ∧ t.draws = s.draws

/-- Everything but `RES`, `OUT_LEN`, `OUT_COUNT`, `OUT_MODE`, `STATUS` and the buffers is that of `s`. -/
def State.SameBesidesResults (s t : State) : Prop := s.SameParams t ∧ t.cmdReg = s.cmdReg ∧ s.SameHost t

/-- Every buffer byte outside the region reads as in `s`, a location without a value included. -/
def State.SameMemOutside (s t : State) (region : Nat → Prop) : Prop :=
  ∀ a, ¬ region a → t.mem.read a = s.mem.read a

/-- The state a failed command leaves, written out (R165): the result registers 0, `STATUS` the given word, the rest as
it was. -/
def State.failedWith (s : State) (status : Word) : State :=
  { s with res := 0, outLen := 0, outCount := 0, outMode := 0, status := status }

/-- The state a successful scalar command leaves, written out (R76, R100 to R102, R115). -/
def State.scalarResult (s : State) (v : Byte) : State :=
  { s with res := v, outLen := 0, outCount := 0, outMode := 0, status := 0x00000002 }

/-- The byte offsets of a buffer from its element byte `lo` up to, not including, `hi`. -/
def Buffer.region (b : Buffer) (lo hi : Nat) (a : Nat) : Prop := b.base + lo ≤ a ∧ a < b.base + hi

/-- The offsets of the `n × n` corner of `MAT` (R31). -/
def matCornerRegion (n : Nat) (a : Nat) : Prop := ∃ i j, i < n ∧ j < n ∧ a = matAt i j

/-! ### What a command reads and makes -/

/-- `GEN(k, r, c)` as a value, with the default sequences (R110, R111). -/
def genValue (k r c : Nat) : Byte :=
  if r < k then (if r = c then 0x01 else 0x00)
  else gfQuot 0x01 (BitVec.ofNat 8 r ^^^ BitVec.ofNat 8 c)

/-- Byte `b` of the shard with global index `g` of the code whose original shards are `orig`: the original itself below
`k`, else the recovery shard (R18, R120). -/
def codeByte (k : Nat) (orig : Nat → Nat → Byte) (g b : Nat) : Byte :=
  if g < k then orig g b else xorOver k (fun i => gfMul (genValue k g i) (orig i b))

/-- The input positions carry the indices `idx`: read from `IN_IDX` when Sparse, the positions themselves when Dense
(R141). -/
def State.CarriesIndices (s : State) (idx : List Nat) : Prop :=
  idx.length = s.countNat ∧
  ∀ p, (h : p < idx.length) →
    if s.inMode = 1 then (s.mem.readHalf (inIdxAt p)).map BitVec.toNat = some idx[p] else idx[p] = p

/-- The input shards hold the bytes `data`, position by position (R28, R60). -/
def State.InputHolds (s : State) (count : Nat) (data : Nat → Nat → Byte) : Prop :=
  ∀ p b, p < count → b < s.lNat → s.mem.read (inDataAt s.lNat p b) = some (data p b)

/-- The originals no present shard carries, ascending (R145). -/
def missingOf (k : Nat) (idx : List Nat) : List Nat := (List.range k).filter (fun i => decide (i ∉ idx))

/-- The present shard `g` is one of those a reconstruction reads (R147): an original, or a recovery shard with fewer smaller
present recovery indices than originals are missing. -/
def IsSelected (k : Nat) (idx : List Nat) (g : Nat) : Prop :=
  g ∈ idx ∧ (g < k ∨ (idx.filter (fun h => decide (k ≤ h ∧ h < g))).length < (missingOf k idx).length)

/-- The selected input shards hold the bytes `data`, position by position; a surplus shard need hold none (R147, R183). -/
def State.SelectedHold (s : State) (idx : List Nat) (data : Nat → Nat → Byte) : Prop :=
  ∀ p b, (h : p < idx.length) → IsSelected s.kNat idx idx[p] → b < s.lNat →
    s.mem.read (inDataAt s.lNat p b) = some (data p b)

/-- The `n × n` corner of `MAT` holds the matrix `mat` (R31). -/
def State.MatHolds (s : State) (n : Nat) (mat : Nat → Nat → Byte) : Prop :=
  ∀ i j, i < n → j < n → s.mem.read (matAt i j) = some (mat i j)

/-- The product of two `n × n` matrices (R131). -/
def matProduct (n : Nat) (a b : Nat → Nat → Byte) (i j : Nat) : Byte :=
  xorOver n (fun t => gfMul (a i t) (b t j))

/-- The product of two `n × n` matrices is the identity (R131). -/
def ProductIsIdentity (n : Nat) (a b : Nat → Nat → Byte) : Prop :=
  ∀ i j, i < n → j < n → matProduct n a b i j = if i = j then 0x01 else 0x00

/-- The offsets of `IN_DATA[0 .. IN_COUNT × IN_LEN)`, as far as the buffer goes (R33). -/
def State.inDataValid (s : State) (a : Nat) : Prop :=
  Buffer.region .inData 0 (min (s.inCount.toNat * s.inLen.toNat) (Buffer.size .inData)) a

/-- The offsets of `IN_IDX[0 .. IN_COUNT)`, as far as the buffer goes; none unless `IN_MODE = 1` (R33). -/
def State.inIdxValid (s : State) (a : Nat) : Prop :=
  s.inMode = 1 ∧ Buffer.region .inIdx 0 (min (2 * s.inCount.toNat) (Buffer.size .inIdx)) a

/-- Two states give a command the same inputs (R15): the parameter registers, the input valid regions and, for `MATINV`, the
matrix valid region of `MAT` (R33) read alike. -/
def SameInputs (i : Instr) (s t : State) : Prop :=
  s.SameParams t ∧
  (∀ a, s.inDataValid a ∨ s.inIdxValid a → t.mem.read a = s.mem.read a) ∧
  (i = .matinv → ∀ a, matCornerRegion s.kNat a → t.mem.read a = s.mem.read a)

/-- The errors the rules of a command can raise (R162); `SingularMatrix` of `DECODE` is in the rules. -/
def mayRaise : Instr → List ErrorName
  | .gfadd _ _ | .gfmul _ _ => []
  | .gfdiv _ _ => [.divisionByZero]
  | .genq _ _ => [.invalidParameters, .indexOutOfRange]
  | .encode => [.invalidParameters, .shardCountMismatch, .shardLengthMismatch]
  | .matinv => [.invalidParameters, .singularMatrix]
  | .decode => [.invalidParameters, .shardLengthMismatch, .tooFewShards, .duplicateIndex, .singularMatrix,
      .indexOutOfRange, .capacityExceeded]

/-! ### Illegal words and performed accesses -/

/-- The condition on a word's bits under which R74 calls it illegal. -/
def IllegalWord (w : Word) : Prop :=
  opField w = 0x00 ∨ 0x08 ≤ (opField w).toNat ∨
  (0x05 ≤ (opField w).toNat ∧ (opField w).toNat ≤ 0x07 ∧ w.extractLsb' 8 24 ≠ 0) ∨
  (0x01 ≤ (opField w).toNat ∧ (opField w).toNat ≤ 0x04 ∧ w.extractLsb' 24 8 ≠ 0)

/-- The accesses R52 performs, with the map of R51 for this hardware's `LMAX` written out. -/
def PerformedAccess (off n : Nat) : Prop :=
  off % n = 0 ∧
  ((n = 4 ∧ off + n ≤ 0x0000030) ∨
   (n = 2 ∧ 0x0000200 ≤ off ∧ off + n ≤ 0x0000800) ∨
   (n = 1 ∧ 0x0010000 ≤ off ∧ off + n ≤ 0x0020000) ∨
   (n = 1 ∧ 0x1000000 ≤ off ∧ off + n ≤ 0x1FFFF00) ∨
   (n = 1 ∧ 0x2000000 ≤ off ∧ off + n ≤ 0x2FFFF00))

/-! ### The invariant -/

/-- The shapes `STATUS` takes (R23): nothing started, busy, or done with an error number from 0 to 10 (R160). -/
def LegalStatus (status : Word) : Prop :=
  status = 0x00000000 ∨ status = 0x00000001 ∨ ∃ e, e ≤ 10 ∧ status = BitVec.ofNat 32 (256 * e + 2)

/-- What every step keeps, from any state that meets it. -/
structure State.Inv (s : State) : Prop where
  /-- Only the shapes of R23 occur in `STATUS`. -/
  status : LegalStatus s.status
  /-- The memory is in its canonical form. -/
  canonical : s.mem.wf
  /-- Only bytes of the six buffers hold a value (R51). -/
  mapped : ∀ c ∈ s.mem, ∃ b ∈ bufferRows, b.holds c.1 1 = true
  /-- A 16-bit entry holds a value whole or not at all (R53: an access is of the whole element). -/
  entriesWhole : ∀ b ∈ bufferRows, b.elemBytes = 2 → ∀ p, p < 256 →
    ((s.mem.read (b.base + 2 * p)).isSome ↔ (s.mem.read (b.base + 2 * p + 1)).isSome)
  /-- Before any command and after a failed one the result registers are 0 (R22, R37, R165). -/
  noResults : s.status = 0x00000000 ∨ errField s.status ≠ 0x00 →
    s.res = 0 ∧ s.outLen = 0 ∧ s.outCount = 0 ∧ s.outMode = 0
  /-- Every byte of the output valid region holds a value (R33). -/
  outputWritten : ∀ a, a < s.outCount.toNat * s.outLen.toNat → (s.mem.read (Buffer.base .outData + a)).isSome
  /-- Every index of a Sparse output holds a value (R33). -/
  indicesWritten : s.outMode = 1 → ∀ q, q < s.outCount.toNat → (s.mem.readHalf (outIdxAt q)).isSome

/-! ### The end of a run -/

/-- A run has ended well: the host has no move left and no command is pending (R190). -/
def State.endedWell (s : State) : Bool := s.agenda.isEmpty && !s.busy

end Sys2Proof.Machine
end

