-- ==== Sys2Proof/Certificates/Slice0/Obligations.lean ====
section
/-! DEFINITION. The statements about RS-CORE that are left to the provers. Each cites the rule of spec/ it formalises. -/

open Sys2Proof Sys2Proof.Machine

/-! ### Encoding -/

/-- Decoding a command's word gives the command back, and a word that decodes to a command is that command's word: no bit
is dropped and none is free (R70, R71, R73). -/
def Obligations.DecodeInvertsEncode : Prop :=
  (∀ i : Instr, decodeWord (encode i) = .ok i) ∧
  ∀ (w : Word) (i : Instr), decodeWord w = .ok i → encode i = w

/-- Words the spec writes out, one per row and the nearest illegal ones (R100 to R102, R115, V110 to V116). -/
def Obligations.SpecWordsDecode : Prop :=
  decodeWord 0x00CA5301 = .ok (.gfadd 0x53 0xCA) ∧
  decodeWord 0x00CA5302 = .ok (.gfmul 0x53 0xCA) ∧
  decodeWord 0x00CA5303 = .ok (.gfdiv 0x53 0xCA) ∧
  decodeWord 0x00010404 = .ok (.genq 0x04 0x01) ∧
  decodeWord 0x00000005 = .ok .encode ∧
  decodeWord 0x00000006 = .ok .matinv ∧
  decodeWord 0x00000007 = .ok .decode ∧
  decodeWord 0x00000000 = .error (.unassignedOpcode 0x00) ∧
  decodeWord 0x00000008 = .error (.unassignedOpcode 0x08) ∧
  decodeWord 0x00000105 = .error (.reservedBitsSet 0x05) ∧
  decodeWord 0x01CA5302 = .error (.reservedBitsSet 0x02)

/-- R74: exactly the words with an unassigned `op` or a set reserved bit are no command; `START` accepts one like any
other word, and the engine's step then completes with `IllegalCommand`, whatever the registers and buffers hold. -/
def Obligations.IllegalWordsFailWhenRun : Prop :=
  ∀ w : Word,
    (IllegalWord w ↔ ∃ e, decodeWord w = .error e) ∧
    (IllegalWord w →
      (∀ s : State, s.busy = false →
        s.hostAccess (.write 0x00 4 w) = .next { s with cmdReg := w, status := 0x00000001 }) ∧
      ∀ s : State, s.busy = true → s.engineNext = true → s.cmdReg = w →
        step s = .next (s.takeMove.failedWith 0x00000802))

/-! ### The step -/

/-- Where the block is busy, the next move is the engine's and the latched word decodes to `i`, the step is `exec i` on the
state with that move taken; and a placed command is what the very next step runs (R76, log 2 and 4 of the model). -/
def Obligations.StepRunsDecodedCommand : Prop :=
  (∀ (s : State) (i : Instr), s.busy = true → s.engineNext = true → decodeWord s.cmdReg = .ok i →
    step s = exec i s.takeMove) ∧
  ∀ (s : State) (nbits w : Nat) (i : Instr), decodeTableWord nbits w = some i →
    step (s.withFetchWord nbits w) =
      exec i { s with cmdReg := tableWord nbits w, status := 0x00000001 }

/-- The other moves: an idle block's engine does nothing (`COMPLETE` is enabled exactly when `BUSY = 1`), a host access and
the reset event act as their own operations say, each once it is off the agenda (R14, R62, R76, log 2). -/
def Obligations.StepFollowsTheAgenda : Prop :=
  ∀ s : State,
    (s.busy = false → s.engineNext = true → step s = .next s.takeMove) ∧
    (∀ a rest, s.agenda = .host a :: rest → step s = ({ s with agenda := rest } : State).hostAccess a) ∧
    (∀ rest, s.agenda = .reset :: rest → step s = .next ({ s with agenda := rest } : State).resetEvent)

/-! ### GF(2^8) -/

/-- R100: the word, the sum, and that nothing else happens; it never fails. -/
def Obligations.GfaddAdds : Prop :=
  ∀ (a b : Byte) (s : State),
    encode (.gfadd a b) = (b.setWidth 32 <<< 16) ||| (a.setWidth 32 <<< 8) ||| 0x01 ∧
    exec (.gfadd a b) s = .next (s.scalarResult (a ^^^ b)) ∧
    (a = b → a ^^^ b = 0x00) ∧ (b = 0x00 → a ^^^ b = a)

/-- R97, R101: the product by tables is the product of the two polynomials modulo `POLY`, computed without any table, and
`GFMUL` leaves it in `RES`. -/
def Obligations.GfmulIsThePolynomialProduct : Prop :=
  ∀ (a b : Byte) (s : State),
    encode (.gfmul a b) = (b.setWidth 32 <<< 16) ||| (a.setWidth 32 <<< 8) ||| 0x02 ∧
    gfMul a b = clmulMod a b ∧
    exec (.gfmul a b) s = .next (s.scalarResult (gfMul a b))

/-- R92: the product by tables, its zero cases, and the laws of a commutative ring with one. -/
def Obligations.GfmulLaws : Prop :=
  (∀ a b : Byte, gfMul a b = if a = 0x00 ∨ b = 0x00 then 0x00 else expAt ((logAt a + logAt b) % 255)) ∧
  (∀ a b : Byte, gfMul a b = gfMul b a) ∧
  (∀ a b c : Byte, gfMul (gfMul a b) c = gfMul a (gfMul b c)) ∧
  (∀ a b c : Byte, gfMul a (gfAdd b c) = gfAdd (gfMul a b) (gfMul a c)) ∧
  (∀ a : Byte, gfMul a 0x01 = a)

/-- R96: division by zero raises, `0x00` divided by it included; otherwise the quotient times the divisor is the
dividend, and an element times its inverse is one. -/
def Obligations.GfdivUndoesGfmul : Prop :=
  (∀ a : Byte, gfDiv a 0x00 = .error (.raise .divisionByZero)) ∧
  (∀ a b : Byte, b ≠ 0x00 →
    ∃ q, gfDiv a b = .ok q ∧ (a = 0x00 → q = 0x00) ∧ (a ≠ 0x00 → q = expAt ((logAt a + 255 - logAt b) % 255)) ∧
      gfMul q b = a ∧ ∀ q', gfMul q' b = a → q' = q) ∧
  (∀ b : Byte, gfInv b = gfDiv 0x01 b) ∧
  (∀ b : Byte, b ≠ 0x00 → ∃ v, gfInv b = .ok v ∧ v = expAt ((255 - logAt b) % 255) ∧ gfMul b v = 0x01)

/-- R102: `GFDIV` with a nonzero divisor leaves the one quotient in `RES`; with divisor `0x00` it completes with
`DivisionByZero`, for every dividend. -/
def Obligations.GfdivDivides : Prop :=
  ∀ (a b : Byte) (s : State),
    (b ≠ 0x00 → ∃ q, exec (.gfdiv a b) s = .next (s.scalarResult q) ∧ clmulMod q b = a) ∧
    (b = 0x00 → exec (.gfdiv a b) s = .next (s.failedWith 0x00000702))

/-- R167: no other command completes with `DivisionByZero`. -/
def Obligations.DivisionByZeroOnlyFromGfdiv : Prop :=
  ∀ (i : Instr) (s t : State), exec i s = .next t → errField t.status = 7 → ∃ a, i = .gfdiv a 0x00

/-- R93: the tables' content is what the construction loop puts there, the loop returns to `0x01` after 255 turns, and
each table undoes the other. -/
def Obligations.TablesAreConstructed : Prop :=
  powersFrom Config.POLY 255 0x01 = (List.range 255).map expAt ∧
  timesAlpha Config.POLY (expAt 254) = 0x01 ∧
  expAt 1 = Config.ALPHA ∧
  (∀ i, i < 255 → expAt i ≠ 0x00 ∧ logAt (expAt i) = i) ∧
  (∀ a : Byte, a ≠ 0x00 → logAt a < 255 ∧ expAt (logAt a) = a)

/-- R8: the polynomials for which `0x02` generates every nonzero element are exactly the sixteen listed. -/
def Obligations.LegalPolynomialsAreTheSixteen : Prop :=
  ∀ poly : BitVec 9, polyLegal poly = true ↔
    poly ∈ [0x11D, 0x12B, 0x12D, 0x14D, 0x15F, 0x163, 0x165, 0x169,
            0x171, 0x187, 0x18D, 0x1A9, 0x1C3, 0x1CF, 0x1E7, 0x1F5]

/-! ### The generator matrix -/

/-- R110, R111, R115: for valid parameters and an entry inside the matrix, `GENQ` leaves in `RES` the identity's entry
in the first `k` rows and, below them, the inverse of `r xor c`, which is not zero. -/
def Obligations.GenqReadsTheMatrix : Prop :=
  ∀ (r c : Byte) (s : State), 1 ≤ s.kNat → s.kNat + s.mNat ≤ 256 → r.toNat < s.kNat + s.mNat → c.toNat < s.kNat →
    ∃ g, exec (.genq r c) s = .next (s.scalarResult g) ∧
      (r.toNat < s.kNat → g = if r = c then 0x01 else 0x00) ∧
      (s.kNat ≤ r.toNat → r ^^^ c ≠ 0x00 ∧ gfMul g (r ^^^ c) = 0x01)

/-- R115, R163: the two errors of `GENQ`, in their order; `K + M` does not wrap. -/
def Obligations.GenqErrorsInOrder : Prop :=
  ∀ (r c : Byte) (s : State),
    (s.kNat = 0 ∨ 256 < s.kNat + s.mNat → exec (.genq r c) s = .next (s.failedWith 0x00000102)) ∧
    (1 ≤ s.kNat → s.kNat + s.mNat ≤ 256 → s.kNat + s.mNat ≤ r.toNat ∨ s.kNat ≤ c.toNat →
      exec (.genq r c) s = .next (s.failedWith 0x00000902))

/-- R116: the matrix for `k = 3`, `m = 2`, row by row. -/
def Obligations.WorkedMatrixThreeTwo : Prop :=
  collect (genRow 3 2) (List.range 5) = .ok
    [ [0x01, 0x00, 0x00],
      [0x00, 0x01, 0x00],
      [0x00, 0x00, 0x01],
      [0xF4, 0x8E, 0x01],
      [0x47, 0xA7, 0x7A] ]

/-- R114: any `k` distinct rows of the generator matrix form an invertible matrix. -/
def Obligations.AnyRowsAreInvertible : Prop :=
  ∀ (k m : Nat) (sel : List Nat), 1 ≤ k → k + m ≤ 256 → sel.length = k → sel.Nodup → (∀ g ∈ sel, g < k + m) →
    ∃ inv : Nat → Nat → Byte, ProductIsIdentity k inv (fun t c => genValue k (sel.getD t 0) c)

/-! ### ENCODE -/

/-- R120, R123: with valid parameters and written originals `ENCODE` succeeds; byte `b` of recovery shard `j` is the sum
over the originals of the generator entry of row `k + j` times the original's byte `b`; the output is Dense with `M`
shards of `L` bytes; `IN_MODE` and `IN_IDX` play no part. -/
def Obligations.EncodeMakesRecoveryShards : Prop :=
  ∀ (s : State) (orig : Nat → Nat → Byte),
    1 ≤ s.kNat → s.kNat + s.mNat ≤ 256 → s.countNat = s.kNat → s.inLen = s.l → s.InputHolds s.kNat orig →
    ∃ t, exec .encode s = .next t ∧
      t.status = 0x00000002 ∧ t.res = 0 ∧ t.outLen = s.l ∧ t.outCount.toNat = s.mNat ∧ t.outMode = 0 ∧
      ∀ j b, j < s.mNat → b < s.lNat →
        t.mem.read (outDataAt s.lNat j b) =
          some (xorOver s.kNat (fun i => gfMul (genValue s.kNat (s.kNat + j) i) (orig i b)))

/-- R121: the validation of `ENCODE`, in its order; once it has passed no error is raised. The second condition never holds
with this hardware's `LMAX`. -/
def Obligations.EncodeErrorsInOrder : Prop :=
  ∀ s : State,
    if ¬ (1 ≤ s.kNat ∧ s.kNat + s.mNat ≤ 256) then exec .encode s = .next (s.failedWith 0x00000102)
    else if Config.LMAX < s.lNat then exec .encode s = .next (s.failedWith 0x00000A02)
    else if s.countNat ≠ s.kNat then exec .encode s = .next (s.failedWith 0x00000202)
    else if s.inLen ≠ s.l then exec .encode s = .next (s.failedWith 0x00000302)
    else ∀ t, exec .encode s = .next t → t.status = 0x00000002

/-- What `ENCODE` leaves unchanged when it answers a next state (R29, R33, R120): everything but the result registers,
`STATUS` and, on success, the bytes of the recovery shards, at the addresses the meaning stores them to. -/
def Obligations.EncodeFrame : Prop :=
  ∀ s t : State, exec .encode s = .next t →
    s.SameBesidesResults t ∧ t.res = 0 ∧
    (t.status ≠ 0x00000002 → t.mem = s.mem) ∧
    s.SameMemOutside t (fun a => ∃ j b, j < s.mNat ∧ b < s.lNat ∧ a = outDataAt s.lNat j b)

/-! ### MATINV -/

/-- R130, R131, R135: where the corner of `MAT` holds a matrix that has an inverse, `MATINV` succeeds and leaves that
inverse there; it is the inverse from both sides. -/
def Obligations.MatinvInverts : Prop :=
  ∀ (s : State) (mat inv : Nat → Nat → Byte), 1 ≤ s.kNat → s.kNat ≤ 256 → s.MatHolds s.kNat mat →
    ProductIsIdentity s.kNat inv mat →
    ProductIsIdentity s.kNat mat inv ∧
    ∃ t, exec .matinv s = .next t ∧
      t.status = 0x00000002 ∧ t.res = 0 ∧ t.outLen = 0 ∧ t.outCount = 0 ∧ t.outMode = 0 ∧
      t.MatHolds s.kNat inv

/-- R131, R135: where it holds a matrix without inverse, `MATINV` completes with `SingularMatrix` and changes no buffer. -/
def Obligations.MatinvDetectsSingular : Prop :=
  ∀ (s : State) (mat : Nat → Nat → Byte), 1 ≤ s.kNat → s.kNat ≤ 256 → s.MatHolds s.kNat mat →
    (¬ ∃ inv, ProductIsIdentity s.kNat inv mat) →
    exec .matinv s = .next (s.failedWith 0x00000602)

/-- R135: the dimension's check, which comes before any read of `MAT`; `M` is not looked at. -/
def Obligations.MatinvChecksDimension : Prop :=
  ∀ s : State, s.kNat = 0 ∨ 256 < s.kNat → exec .matinv s = .next (s.failedWith 0x00000102)

/-- What `MATINV` leaves unchanged when it answers a next state (R31, R135): the result registers are 0, and only the
`K × K` corner of `MAT` may change, on success. -/
def Obligations.MatinvFrame : Prop :=
  ∀ s t : State, exec .matinv s = .next t →
    s.SameBesidesResults t ∧ t.res = 0 ∧ t.outLen = 0 ∧ t.outCount = 0 ∧ t.outMode = 0 ∧
    (t.status ≠ 0x00000002 → t.mem = s.mem) ∧
    s.SameMemOutside t (matCornerRegion s.kNat)

/-! ### DECODE -/

/-- R143, R147, R150, R151: THE ROUND TRIP. From any `k` or more distinct shards of one encoding, in any order, Sparse or
Dense, `DECODE` succeeds and returns exactly the missing originals, ascending, each byte for byte. Only the selected shards
need have been written. -/
def Obligations.DecodeRecoversOriginals : Prop :=
  ∀ (s : State) (idx : List Nat) (orig : Nat → Nat → Byte),
    1 ≤ s.kNat → s.kNat + s.mNat ≤ 256 → s.inLen = s.l →
    s.CarriesIndices idx → idx.Nodup → (∀ g ∈ idx, g < s.kNat + s.mNat) → s.kNat ≤ idx.length →
    s.SelectedHold idx (fun p b => codeByte s.kNat orig (idx.getD p 0) b) →
    ∃ t, exec .decode s = .next t ∧ t.status = 0x00000002 ∧ t.res = 0 ∧ t.outMode = 1 ∧ t.outLen = s.l ∧
      t.outCount.toNat = (missingOf s.kNat idx).length ∧
      ∀ q, (hq : q < (missingOf s.kNat idx).length) →
        t.mem.readHalf (outIdxAt q) = some (BitVec.ofNat 16 (missingOf s.kNat idx)[q]) ∧
        ∀ b, b < s.lNat → t.mem.read (outDataAt s.lNat q b) = some (orig (missingOf s.kNat idx)[q] b)

/-- R147 to R152: whatever bytes the selected shards hold, of one encoding or not, and whatever the surplus ones hold or do
not, `DECODE` with an original missing succeeds with a Sparse output of one shard per missing original, ascending; `MAT` holds
the inverse of the generator rows of the selected indices, and byte `b` of output position `q` is the inverse's row of the
`q`-th missing original times the selected shards' bytes `b`. -/
def Obligations.DecodeReturnsInverseTimesShards : Prop :=
  ∀ (s : State) (idx : List Nat) (data : Nat → Nat → Byte),
    1 ≤ s.kNat → s.kNat + s.mNat ≤ 256 → s.inLen = s.l →
    s.CarriesIndices idx → idx.Nodup → (∀ g ∈ idx, g < s.kNat + s.mNat) → s.kNat ≤ idx.length →
    (∃ i, i < s.kNat ∧ i ∉ idx) → s.SelectedHold idx data →
    ∃ (t : State) (sel : List Nat) (inv : Nat → Nat → Byte), exec .decode s = .next t ∧ t.status = 0x00000002 ∧
      t.res = 0 ∧ t.outMode = 1 ∧ t.outLen = s.l ∧ t.outCount.toNat = (missingOf s.kNat idx).length ∧
      sel.length = s.kNat ∧ sel.Pairwise (· < ·) ∧ (∀ g, g ∈ sel ↔ IsSelected s.kNat idx g) ∧
      ProductIsIdentity s.kNat inv (fun i c => genValue s.kNat (sel.getD i 0) c) ∧ t.MatHolds s.kNat inv ∧
      ∀ q, (hq : q < (missingOf s.kNat idx).length) →
        t.mem.readHalf (outIdxAt q) = some (BitVec.ofNat 16 (missingOf s.kNat idx)[q]) ∧
        ∀ b, b < s.lNat →
          t.mem.read (outDataAt s.lNat q b) =
            some (xorOver s.kNat (fun i =>
              gfMul (inv (missingOf s.kNat idx)[q] i) (data (idx.idxOf (sel.getD i 0)) b)))

/-- R146: when every original is present `DECODE` succeeds with the empty result; no buffer is read beyond the indices and
none is written. -/
def Obligations.DecodeWithNothingMissing : Prop :=
  ∀ (s : State) (idx : List Nat),
    1 ≤ s.kNat → s.kNat + s.mNat ≤ 256 → s.inLen = s.l →
    s.CarriesIndices idx → idx.Nodup → (∀ g ∈ idx, g < s.kNat + s.mNat) → (∀ i, i < s.kNat → i ∈ idx) →
    exec .decode s = .next
      { s with res := 0, outLen := s.l, outCount := 0, outMode := 1, status := 0x00000002 }

/-- R142: the validation of `DECODE`, in its order; the indices are looked at only once the first four
conditions have passed, so that until then no entry of `IN_IDX` need have been written (R183). The second condition never
holds with this hardware's `LMAX`. -/
def Obligations.DecodeErrorsInOrder : Prop :=
  ∀ (s : State) (idx : List Nat),
    (1 ≤ s.kNat → s.kNat + s.mNat ≤ 256 → s.lNat ≤ Config.LMAX → s.inLen = s.l → s.countNat ≤ 256 →
      s.CarriesIndices idx) →
    if ¬ (1 ≤ s.kNat ∧ s.kNat + s.mNat ≤ 256) then exec .decode s = .next (s.failedWith 0x00000102)
    else if Config.LMAX < s.lNat then exec .decode s = .next (s.failedWith 0x00000A02)
    else if s.inLen ≠ s.l then exec .decode s = .next (s.failedWith 0x00000302)
    else if 256 < s.countNat then exec .decode s = .next (s.failedWith 0x00000A02)
    else if ∃ g ∈ idx, s.kNat + s.mNat ≤ g then exec .decode s = .next (s.failedWith 0x00000902)
    else if ¬ idx.Nodup then exec .decode s = .next (s.failedWith 0x00000502)
    else if s.countNat < s.kNat then exec .decode s = .next (s.failedWith 0x00000402)
    else ∀ t, exec .decode s = .next t → t.status = 0x00000002 ∨ t.status = 0x00000602

/-- R149: `DECODE` never completes with `SingularMatrix`. -/
def Obligations.DecodeIsNeverSingular : Prop :=
  ∀ s t : State, exec .decode s = .next t → errField t.status ≠ 6

/-- R147, R148, R152: what a reconstruction leaves in `SEL` and `MAT`. `SEL` holds `k` present indices, ascending: every
present original, and no present recovery index left out is smaller than one taken. `MAT` holds the inverse of the generator
rows `SEL` names. -/
def Obligations.DecodeLeavesSelectionAndInverse : Prop :=
  ∀ (s t : State) (idx : List Nat),
    s.CarriesIndices idx → (∃ i, i < s.kNat ∧ i ∉ idx) → exec .decode s = .next t → t.status = 0x00000002 →
    ∃ sel : List Nat, sel.length = s.kNat ∧ sel.Pairwise (· < ·) ∧ (∀ g ∈ sel, g ∈ idx) ∧
      (∀ g ∈ idx, g < s.kNat → g ∈ sel) ∧
      (∀ g ∈ idx, g ∉ sel → ∀ g' ∈ sel, g' < g) ∧
      (∀ i, (hi : i < sel.length) → t.mem.readHalf (selAt i) = some (BitVec.ofNat 16 sel[i])) ∧
      ∃ inv : Nat → Nat → Byte, t.MatHolds s.kNat inv ∧
        ProductIsIdentity s.kNat inv (fun i c => genValue s.kNat (sel.getD i 0) c)

/-- What `DECODE` leaves unchanged when it answers a next state (R29, R33, R140): everything but the result registers,
`STATUS` and, when it returns shards, their bytes, their indices, the `K × K` corner of `MAT` and `K` entries of `SEL`, at
the addresses the meaning stores them to. When it returns none, no buffer changes. -/
def Obligations.DecodeFrame : Prop :=
  ∀ s t : State, exec .decode s = .next t →
    s.SameBesidesResults t ∧ t.res = 0 ∧
    (t.outCount = 0 → t.mem = s.mem) ∧
    s.SameMemOutside t (fun a =>
      (∃ q b, q < t.outCount.toNat ∧ b < s.lNat ∧ a = outDataAt s.lNat q b) ∨
      (∃ q, q < t.outCount.toNat ∧ (a = outIdxAt q ∨ a = outIdxAt q + 1)) ∨
      matCornerRegion s.kNat a ∨
      (∃ i, i < s.kNat ∧ (a = selAt i ∨ a = selAt i + 1)))

/-! ### All commands -/

/-- R162: a command that answers a next state has succeeded, or completed with an error its rules can raise; the table's
`CapacityExceeded` of `ENCODE` does not arise with this hardware's `LMAX`. -/
def Obligations.ErrorsOnlyAsTabled : Prop :=
  ∀ (i : Instr) (s t : State), exec i s = .next t →
    t.status = 0x00000002 ∨ ∃ e ∈ mayRaise i, t.status = (e.code.setWidth 32 <<< 8) ||| 0x02

/-- R165: a command that completes with an error leaves the four result registers 0 and the error's number in `STATUS`, and
nothing else is changed: no buffer, no parameter register, not `CMDREG`. -/
def Obligations.FailureChangesOnlyStatusAndResults : Prop :=
  ∀ (i : Instr) (s t : State), exec i s = .next t → t.status ≠ 0x00000002 →
    ∃ e : ErrorName, t = s.failedWith ((e.code.setWidth 32 <<< 8) ||| 0x02)

/-- R29, R21: no command writes `IN_DATA`, `IN_IDX` or a parameter register. -/
def Obligations.CommandsNeverWriteTheirInputs : Prop :=
  ∀ (i : Instr) (s t : State), exec i s = .next t →
    s.SameParams t ∧
    ∀ a, Buffer.region .inData 0 (Buffer.size .inData) a ∨ Buffer.region .inIdx 0 (Buffer.size .inIdx) a →
      t.mem.read a = s.mem.read a

/-- R15: a command's outcome depends on its inputs alone. Two states that agree on the parameter registers and the input valid
regions (and, for `MATINV`, on the corner of `MAT`), whatever else they hold, get the same status, results and output valid
region (and, for `MATINV`, the same corner). -/
def Obligations.ResultsDependOnInputsOnly : Prop :=
  ∀ (i : Instr) (s₁ s₂ t₁ : State), SameInputs i s₁ s₂ → exec i s₁ = .next t₁ →
    ∃ t₂, exec i s₂ = .next t₂ ∧
      t₂.status = t₁.status ∧ t₂.res = t₁.res ∧ t₂.outLen = t₁.outLen ∧ t₂.outCount = t₁.outCount ∧
      t₂.outMode = t₁.outMode ∧
      (∀ a, a < t₁.outCount.toNat * t₁.outLen.toNat →
        t₂.mem.read (Buffer.base .outData + a) = t₁.mem.read (Buffer.base .outData + a)) ∧
      (t₁.outMode = 1 → ∀ q, q < t₁.outCount.toNat → t₂.mem.readHalf (outIdxAt q) = t₁.mem.readHalf (outIdxAt q)) ∧
      (i = .matinv → ∀ a, matCornerRegion s₁.kNat a → t₂.mem.read a = t₁.mem.read a)

/-- R38, R183, U1: a command whose rule reads a location without a value is refused, naming such a location: an original of
`ENCODE`, an entry of the corner for `MATINV`, an index of `DECODE` or a byte of a shard it selected (R147). -/
def Obligations.UnwrittenInputIsRefused : Prop :=
  ∀ s : State,
    (∀ p b, 1 ≤ s.kNat → s.kNat + s.mNat ≤ 256 → s.countNat = s.kNat → s.inLen = s.l → 1 ≤ s.mNat →
      p < s.kNat → b < s.lNat → s.mem.read (inDataAt s.lNat p b) = none →
      ∃ off, s.mem.read off = none ∧ exec .encode s = .refused (.unwrittenRead off)) ∧
    (∀ i j, 1 ≤ s.kNat → s.kNat ≤ 256 → i < s.kNat → j < s.kNat → s.mem.read (matAt i j) = none →
      ∃ off, s.mem.read off = none ∧ exec .matinv s = .refused (.unwrittenRead off)) ∧
    (∀ p, 1 ≤ s.kNat → s.kNat + s.mNat ≤ 256 → s.inLen = s.l → s.countNat ≤ 256 → s.inMode = 1 →
      p < s.countNat → s.mem.readHalf (inIdxAt p) = none →
      ∃ off, s.mem.readHalf off = none ∧ exec .decode s = .refused (.unwrittenRead off)) ∧
    (∀ (idx : List Nat) (p b : Nat), 1 ≤ s.kNat → s.kNat + s.mNat ≤ 256 → s.inLen = s.l →
      s.CarriesIndices idx → idx.Nodup → (∀ g ∈ idx, g < s.kNat + s.mNat) → s.kNat ≤ idx.length →
      (∃ i, i < s.kNat ∧ i ∉ idx) →
      (hp : p < idx.length) → IsSelected s.kNat idx idx[p] → b < s.lNat → s.mem.read (inDataAt s.lNat p b) = none →
      ∃ off, s.mem.read off = none ∧ exec .decode s = .refused (.unwrittenRead off))

/-- R76, R191: a busy block whose engine has the turn completes: the step ends with `BUSY = 0` and `DONE = 1`, unless the
command reads a location without a value. -/
def Obligations.BusyEngineCompletes : Prop :=
  ∀ s : State, s.busy = true → s.engineNext = true →
    (∃ t, step s = .next t ∧ t.busy = false ∧ doneBit t.status = true) ∨
    ∃ off, s.mem.readHalf off = none ∧ step s = .refused (.unwrittenRead off)

/-! ### Invariant and reset -/

/-- Every step that answers a next state keeps the invariant, from any state that meets it: `STATUS` has one of its shapes
(R23), the memory is canonical and only of the six buffers (R51), 16-bit entries are whole (R53), a failed command leaves no
result (R22), and every byte and index the result registers declare valid holds a value (R33). -/
def Obligations.StepKeepsInv : Prop :=
  ∀ s t : State, s.Inv → step s = .next t → t.Inv

/-- The state after reset meets the invariant. -/
def Obligations.ResetMeetsInv : Prop := State.reset.Inv

/-- R37: every register is 0 after reset, `STATUS` says neither busy nor done, `CMDREG` is 0; and no buffer location holds a
value (R38). -/
def Obligations.ResetRegistersAreZero : Prop :=
  (∀ r : Reg, State.reset.readReg r = 0) ∧ State.reset.status = 0x00000000 ∧ State.reset.cmdReg = 0 ∧
  ∀ a, State.reset.mem.read a = none

/-- R180: the reset event, at any time, a busy block included: the registers, `STATUS` and `CMDREG` are 0, every buffer
location has lost its value, the started command is gone. -/
def Obligations.ResetEventClearsTheBlock : Prop :=
  ∀ (s : State) (rest : List Event), s.agenda = .reset :: rest →
    ∃ t, step s = .next t ∧ (∀ r : Reg, t.readReg r = 0) ∧ t.cmdReg = 0 ∧ (∀ a, t.mem.read a = none) ∧
      t.busy = false ∧ t.agenda = rest ∧ t.replies = s.replies ∧ t.draws = s.draws

/-! ### The host's window -/

/-- R75: `START` latches the word and sets `BUSY` alone, and changes nothing else. With `BUSY = 1` the write is a
protocol violation, to which R186 gives no meaning: that it is refused follows U2, and how is the model's log 6. -/
def Obligations.StartLatchesTheCommand : Prop :=
  ∀ (s : State) (w : Word),
    (s.busy = false → s.hostAccess (.write 0x00 4 w) = .next { s with cmdReg := w, status := 0x00000001 }) ∧
    (s.busy = true → s.hostAccess (.write 0x00 4 w) = .refused (.protocolViolation 0x00))

/-- R20, R53: what a read of each register delivers, at its offset; nothing else changes. -/
def Obligations.RegisterReadsDeliver : Prop :=
  ∀ s : State, s.busy = false →
    s.hostAccess (.read 0x00 4) = .next { s with replies := 0 :: s.replies } ∧
    s.hostAccess (.read 0x04 4) = .next { s with replies := s.status :: s.replies } ∧
    s.hostAccess (.read 0x08 4) = .next { s with replies := s.k.setWidth 32 :: s.replies } ∧
    s.hostAccess (.read 0x0C 4) = .next { s with replies := s.m.setWidth 32 :: s.replies } ∧
    s.hostAccess (.read 0x10 4) = .next { s with replies := s.l.setWidth 32 :: s.replies } ∧
    s.hostAccess (.read 0x14 4) = .next { s with replies := s.inLen.setWidth 32 :: s.replies } ∧
    s.hostAccess (.read 0x18 4) = .next { s with replies := s.inCount :: s.replies } ∧
    s.hostAccess (.read 0x1C 4) = .next { s with replies := s.inMode.setWidth 32 :: s.replies } ∧
    s.hostAccess (.read 0x20 4) = .next { s with replies := s.outLen.setWidth 32 :: s.replies } ∧
    s.hostAccess (.read 0x24 4) = .next { s with replies := s.outCount :: s.replies } ∧
    s.hostAccess (.read 0x28 4) = .next { s with replies := s.outMode.setWidth 32 :: s.replies } ∧
    s.hostAccess (.read 0x2C 4) = .next { s with replies := s.res.setWidth 32 :: s.replies }

/-- R20, R53: a write of a read-write register keeps the low bits of its implemented width, a write of a read-only one is
performed and changes nothing. -/
def Obligations.RegisterWritesKeepTheirWidth : Prop :=
  ∀ (s : State) (v : Word), s.busy = false →
    s.hostAccess (.write 0x04 4 v) = .next s ∧
    s.hostAccess (.write 0x08 4 v) = .next { s with k := v.extractLsb' 0 16 } ∧
    s.hostAccess (.write 0x0C 4 v) = .next { s with m := v.extractLsb' 0 16 } ∧
    s.hostAccess (.write 0x10 4 v) = .next { s with l := v.extractLsb' 0 16 } ∧
    s.hostAccess (.write 0x14 4 v) = .next { s with inLen := v.extractLsb' 0 16 } ∧
    s.hostAccess (.write 0x18 4 v) = .next { s with inCount := v } ∧
    s.hostAccess (.write 0x1C 4 v) = .next { s with inMode := v.extractLsb' 0 1 } ∧
    s.hostAccess (.write 0x20 4 v) = .next s ∧
    s.hostAccess (.write 0x24 4 v) = .next s ∧
    s.hostAccess (.write 0x28 4 v) = .next s ∧
    s.hostAccess (.write 0x2C 4 v) = .next s

/-- R52, R54: every access outside these is rejected, a busy block's included (R186), by the fault that names it; none of
these is. -/
def Obligations.RejectedExactlyOutsideTheMap : Prop :=
  ∀ (s : State) (off n : Nat) (v : Word),
    (¬ PerformedAccess off n →
      s.hostAccess (.read off n) = .fault (.rejectedAccess off n) ∧
      s.hostAccess (.write off n v) = .fault (.rejectedAccess off n)) ∧
    (PerformedAccess off n → ∀ f,
      s.hostAccess (.read off n) ≠ .fault f ∧ s.hostAccess (.write off n v) ≠ .fault f)

/-- R53, R55: a performed write of an element of `IN_IDX`, `MAT` or `IN_DATA` stores the element, low byte at the lower
offset, and changes no other byte and no register; a read of the element then delivers it. -/
def Obligations.ElementWriteReadsBack : Prop :=
  ∀ (s : State) (v : Word), s.busy = false →
    (∀ p, p < 256 →
      ∃ t, s.hostAccess (.write (inIdxAt p) 2 v) = .next t ∧ t = { s with mem := t.mem } ∧
        t.mem.read (inIdxAt p) = some (v.extractLsb' 0 8) ∧ t.mem.read (inIdxAt p + 1) = some (v.extractLsb' 8 8) ∧
        (∀ a, a ≠ inIdxAt p → a ≠ inIdxAt p + 1 → t.mem.read a = s.mem.read a) ∧
        t.hostAccess (.read (inIdxAt p) 2) =
          .next { t with replies := (v.extractLsb' 0 16).setWidth 32 :: t.replies }) ∧
    (∀ off, (0x0010000 ≤ off ∧ off < 0x0020000) ∨ (0x1000000 ≤ off ∧ off < 0x1FFFF00) →
      ∃ t, s.hostAccess (.write off 1 v) = .next t ∧ t = { s with mem := t.mem } ∧
        t.mem.read off = some (v.extractLsb' 0 8) ∧ (∀ a, a ≠ off → t.mem.read a = s.mem.read a) ∧
        t.hostAccess (.read off 1) = .next { t with replies := (v.extractLsb' 0 8).setWidth 32 :: t.replies })

/-- R53, R55: a performed read of an element that holds a value delivers it, zero-extended, and changes nothing of the block:
each 16-bit entry of `SEL`, `IN_IDX` and `OUT_IDX`, each byte of `MAT`, `IN_DATA` and `OUT_DATA`. -/
def Obligations.ElementReadDelivers : Prop :=
  ∀ s : State, s.busy = false →
    (∀ (b : Buffer) (p : Nat) (v : Half), b = .sel ∨ b = .inIdx ∨ b = .outIdx → p < 256 →
      s.mem.readHalf (b.base + 2 * p) = some v →
      s.hostAccess (.read (b.base + 2 * p) 2) = .next { s with replies := v.setWidth 32 :: s.replies }) ∧
    (∀ (b : Buffer) (off : Nat) (v : Byte), b = .mat ∨ b = .inData ∨ b = .outData → off < b.size →
      s.mem.read (b.base + off) = some v →
      s.hostAccess (.read (b.base + off) 1) = .next { s with replies := v.setWidth 32 :: s.replies }) ∧
    (∀ (a : Nat) (lo hi : Byte), s.mem.read a = some lo → s.mem.read (a + 1) = some hi →
      s.mem.readHalf a = some (hi ++ lo))

/-- R30: a host write to `OUT_DATA`, `OUT_IDX` or `SEL` is performed and changes nothing. -/
def Obligations.ReadOnlyBuffersKeepTheirContent : Prop :=
  ∀ (s : State) (v : Word), s.busy = false →
    (∀ p, p < 256 → s.hostAccess (.write (selAt p) 2 v) = .next s ∧ s.hostAccess (.write (outIdxAt p) 2 v) = .next s) ∧
    (∀ a, a < 256 * Config.LMAX → s.hostAccess (.write (Buffer.base .outData + a) 1 v) = .next s)

/-- R38, U1: a host read of a buffer element that holds no value delivers a free value, whatever it is, and changes nothing
of the block; the next such read is another draw (the model's log 1). A 16-bit entry of which either byte holds none holds no
value. -/
def Obligations.UnwrittenHostReadIsFree : Prop :=
  ∀ s : State, s.busy = false →
    (∀ (b : Buffer) (p : Nat), b = .sel ∨ b = .inIdx ∨ b = .outIdx → p < 256 →
      s.mem.read (b.base + 2 * p) = none ∨ s.mem.read (b.base + 2 * p + 1) = none →
      s.hostAccess (.read (b.base + 2 * p) 2) = .next
        { s with replies := (Config.unwrittenRead s.draws).setWidth 32 :: s.replies, draws := s.draws + 1 }) ∧
    (∀ (b : Buffer) (off : Nat), b = .mat ∨ b = .inData ∨ b = .outData → off < b.size →
      s.mem.read (b.base + off) = none →
      s.hostAccess (.read (b.base + off) 1) = .next
        { s with replies := ((Config.unwrittenRead s.draws).setWidth 8).setWidth 32 :: s.replies, draws := s.draws + 1 })

/-- R186: while `BUSY = 1` a read of `STATUS` delivers `0x0000_0001`; every other performed access has no meaning and is
refused. -/
def Obligations.BusyBlockAnswersOnlyStatus : Prop :=
  ∀ s : State, s.status = 0x00000001 →
    s.hostAccess (.read 0x04 4) = .next { s with replies := 0x00000001 :: s.replies } ∧
    ∀ (off n : Nat) (v : Word), PerformedAccess off n →
      (off ≠ 0x04 → s.hostAccess (.read off n) = .refused (.protocolViolation off)) ∧
      s.hostAccess (.write off n v) = .refused (.protocolViolation off)

/-- R80: the script line `cmd` of a command starts it: on an idle block the step latches the command's word. -/
def Obligations.ScriptCommandLineStarts : Prop :=
  ∀ (s : State) (i : Instr), s.busy = false → s.agenda = [] →
    step (s.loadScript [.cmd i]) = .next { s with cmdReg := encode i, status := 0x00000001 }
end

