-- ==== Sys2Proof/Laws/Memory.lean ====
section
/-! SUPPORT. The laws of memory: a read after a write, what a write leaves alone, that every memory operation keeps the
canonical form, and which offsets can become listed. -/

namespace Sys2Proof.Machine

theorem Memory.read_write_same (mem : Memory) (a : Nat) (v : Byte) : (mem.write a v).read a = some v := by
  induction mem with
  | nil => simp [Memory.write, Memory.read]
  | cons c rest ih =>
    unfold Memory.write
    split
    · simp [Memory.read]
    · split
      · simp [Memory.read]
      · rename_i h
        simp [Memory.read, h, ih]

theorem Memory.read_write_other (mem : Memory) {a a' : Nat} (v : Byte) (h : a' ≠ a) :
    (mem.write a v).read a' = mem.read a' := by
  induction mem with
  | nil => simp [Memory.write, Memory.read, h]
  | cons c rest ih =>
    unfold Memory.write
    split
    · simp [Memory.read, h]
    · split
      · rename_i hc
        simp [Memory.read, h, ← hc]
      · simp [Memory.read, ih]

theorem Memory.read_write (mem : Memory) (a a' : Nat) (v : Byte) :
    (mem.write a v).read a' = if a' = a then some v else mem.read a' := by
  split
  · rename_i h
    rw [h, Memory.read_write_same]
  · rename_i h
    exact Memory.read_write_other mem v h

/-- A write lists only its own offset anew. -/
theorem Memory.mem_write {mem : Memory} {a : Nat} {v : Byte} {c : Host.Cell} (h : c ∈ mem.write a v) :
    c = (a, v) ∨ c ∈ mem := by
  induction mem with
  | nil => simpa [Memory.write] using h
  | cons d rest ih =>
    unfold Memory.write at h
    split at h
    · simpa using h
    · split at h
      · rcases List.mem_cons.mp h with h | h
        · exact .inl h
        · exact .inr (List.mem_cons_of_mem _ h)
      · rcases List.mem_cons.mp h with h | h
        · exact .inr (h ▸ List.mem_cons_self)
        · exact (ih h).imp id (List.mem_cons_of_mem _)

theorem Memory.wf_nil : Memory.wf [] := List.Pairwise.nil

theorem Memory.wf_write {mem : Memory} (h : mem.wf) (a : Nat) (v : Byte) : (mem.write a v).wf := by
  induction mem with
  | nil => simp [Memory.write, Memory.wf]
  | cons c rest ih =>
    have hc : ∀ d ∈ rest, c.1 < d.1 := fun d hd => List.rel_of_pairwise_cons h hd
    have hrest := List.Pairwise.of_cons h
    unfold Memory.write
    split
    · rename_i hlt
      refine List.Pairwise.cons (fun d hd => ?_) h
      rcases List.mem_cons.mp hd with rfl | hd
      · exact hlt
      · exact Nat.lt_trans hlt (hc d hd)
    · split
      · rename_i heq
        exact List.Pairwise.cons (fun d hd => heq ▸ hc d hd) hrest
      · refine List.Pairwise.cons (fun d hd => ?_) (ih hrest)
        rcases Memory.mem_write hd with rfl | hd
        · show c.1 < a
          omega
        · exact hc d hd

/-! ### Several bytes -/

theorem Memory.read_writeBytes (mem : Memory) (a : Nat) (vs : List Byte) (a' : Nat) :
    (mem.writeBytes a vs).read a' =
      if a ≤ a' ∧ a' < a + vs.length then vs[a' - a]? else mem.read a' := by
  induction vs generalizing mem a with
  | nil =>
    have : ¬ (a ≤ a' ∧ a' < a + ([] : List Byte).length) := by simp
    rw [if_neg this]
    rfl
  | cons v vs ih =>
    rw [Memory.writeBytes, ih, Memory.read_write]
    by_cases h1 : a' = a
    · subst h1
      simp
    · by_cases h2 : a + 1 ≤ a' ∧ a' < a + 1 + vs.length
      · have h3 : a ≤ a' ∧ a' < a + (v :: vs).length := by
          simp only [List.length_cons]
          omega
        rw [if_pos h2, if_pos h3, show a' - a = (a' - (a + 1)) + 1 by omega, List.getElem?_cons_succ]
      · have h3 : ¬ (a ≤ a' ∧ a' < a + (v :: vs).length) := by
          simp only [List.length_cons]
          omega
        rw [if_neg h2, if_neg h3, if_neg h1]

theorem Memory.read_writeBytes_outside (mem : Memory) (a : Nat) (vs : List Byte) {a' : Nat}
    (h : a' < a ∨ a + vs.length ≤ a') : (mem.writeBytes a vs).read a' = mem.read a' := by
  rw [Memory.read_writeBytes, if_neg (by omega)]

theorem Memory.read_writeBytes_inside (mem : Memory) (a : Nat) (vs : List Byte) {i : Nat} (h : i < vs.length) :
    (mem.writeBytes a vs).read (a + i) = some vs[i] := by
  rw [Memory.read_writeBytes, if_pos (by omega), Nat.add_sub_cancel_left, List.getElem?_eq_getElem h]

theorem Memory.wf_writeBytes {mem : Memory} (h : mem.wf) (a : Nat) (vs : List Byte) : (mem.writeBytes a vs).wf := by
  induction vs generalizing mem a with
  | nil => exact h
  | cons v vs ih => exact ih (Memory.wf_write h a v) (a + 1)

theorem Memory.mem_writeBytes {mem : Memory} {a : Nat} {vs : List Byte} {c : Host.Cell}
    (h : c ∈ mem.writeBytes a vs) : (a ≤ c.1 ∧ c.1 < a + vs.length) ∨ c ∈ mem := by
  induction vs generalizing mem a with
  | nil => exact .inr h
  | cons v vs ih =>
    rcases ih h with h | h
    · left
      simp only [List.length_cons]
      omega
    · rcases Memory.mem_write h with rfl | h
      · left
        simp
      · exact .inr h

/-! ### Rows of bytes -/

/-- A read outside every row is as before. -/
theorem Memory.read_writeRows_outside (mem : Memory) (a stride : Nat) (rows : List (List Byte)) {a' : Nat}
    (h : ∀ i (hi : i < rows.length), a' < a + stride * i ∨ a + stride * i + rows[i].length ≤ a') :
    (mem.writeRows a stride rows).read a' = mem.read a' := by
  induction rows generalizing mem a with
  | nil => rfl
  | cons row rows ih =>
    rw [Memory.writeRows, ih, Memory.read_writeBytes_outside]
    · have h0 := h 0 (Nat.succ_pos _)
      rw [Nat.mul_zero, Nat.add_zero] at h0
      exact h0
    · intro i hi
      have := h (i + 1) (by simpa using hi)
      simp only [List.getElem_cons_succ, Nat.mul_add, Nat.mul_one] at this
      omega

/-- A read below the first row, or past the last, is as before. -/
theorem Memory.read_writeRows_beyond (mem : Memory) (a stride : Nat) (rows : List (List Byte)) {a' : Nat}
    (hrow : ∀ row ∈ rows, row.length ≤ stride) (h : a' < a ∨ a + stride * rows.length ≤ a') :
    (mem.writeRows a stride rows).read a' = mem.read a' := by
  apply Memory.read_writeRows_outside
  intro i hi
  rcases h with h | h
  · left
    omega
  · right
    have h1 := hrow _ (List.getElem_mem hi)
    have h2 : stride * (i + 1) ≤ stride * rows.length := Nat.mul_le_mul_left _ hi
    rw [Nat.mul_add, Nat.mul_one] at h2
    omega

/-- Rows no longer than the stride do not overlap: byte `j` of row `i` reads back. -/
theorem Memory.read_writeRows_inside (mem : Memory) (a stride : Nat) (rows : List (List Byte))
    (hrow : ∀ row ∈ rows, row.length ≤ stride) {i j : Nat} (hi : i < rows.length) (hj : j < rows[i].length) :
    (mem.writeRows a stride rows).read (a + stride * i + j) = some rows[i][j] := by
  induction rows generalizing mem a i with
  | nil => simp at hi
  | cons row rows ih =>
    have hrest : ∀ r ∈ rows, r.length ≤ stride := fun r hr => hrow r (List.mem_cons_of_mem _ hr)
    rw [Memory.writeRows]
    cases i with
    | zero =>
      have hlen := hrow row List.mem_cons_self
      simp only [List.getElem_cons_zero] at hj
      rw [Nat.mul_zero, Nat.add_zero, Memory.read_writeRows_beyond _ _ _ _ hrest (by omega),
        Memory.read_writeBytes_inside _ _ _ hj]
      rfl
    | succ i =>
      have := ih (mem.writeBytes a row) (a + stride) hrest (by simpa using hi) (by simpa using hj)
      rw [Nat.mul_add, Nat.mul_one, show a + (stride * i + stride) + j = a + stride + stride * i + j by omega]
      simpa using this

theorem Memory.wf_writeRows {mem : Memory} (h : mem.wf) (a stride : Nat) (rows : List (List Byte)) :
    (mem.writeRows a stride rows).wf := by
  induction rows generalizing mem a with
  | nil => exact h
  | cons row rows ih => exact ih (Memory.wf_writeBytes h a row) (a + stride)

theorem Memory.mem_writeRows {mem : Memory} {a stride : Nat} {rows : List (List Byte)} {c : Host.Cell}
    (hrow : ∀ row ∈ rows, row.length ≤ stride) (h : c ∈ mem.writeRows a stride rows) :
    (a ≤ c.1 ∧ c.1 < a + stride * rows.length) ∨ c ∈ mem := by
  induction rows generalizing mem a with
  | nil => exact .inr h
  | cons row rows ih =>
    have hlen := hrow row List.mem_cons_self
    have hle : stride ≤ stride * (rows.length + 1) := Nat.le_mul_of_pos_right _ (Nat.succ_pos _)
    simp only [List.length_cons]
    rcases ih (fun r hr => hrow r (List.mem_cons_of_mem _ hr)) h with h | h
    · left
      rw [Nat.mul_add, Nat.mul_one]
      omega
    · rcases Memory.mem_writeBytes h with h | h
      · left
        omega
      · exact .inr h

/-! ### 16-bit entries -/

theorem halfBytes_length (v : Half) : (halfBytes v).length = 2 := rfl

theorem halfBytes_join (v : Half) : (v.extractLsb' 8 8 ++ v.extractLsb' 0 8 : Half) = v := by
  ext i hi
  simp only [BitVec.getElem_append, BitVec.getElem_extractLsb', Nat.zero_add]
  split
  · rw [BitVec.getLsbD_eq_getElem]
  · rw [show 8 + (i - 8) = i by omega, BitVec.getLsbD_eq_getElem]

theorem Memory.readHalf_writeHalf_same (mem : Memory) (a : Nat) (v : Half) :
    (mem.writeHalf a v).readHalf a = some v := by
  have h0 := Memory.read_writeBytes_inside mem a (halfBytes v) (i := 0) (by simp [halfBytes_length])
  have h1 := Memory.read_writeBytes_inside mem a (halfBytes v) (i := 1) (by simp [halfBytes_length])
  simp only [Nat.add_zero] at h0
  rw [Memory.readHalf, Memory.writeHalf, h0, h1]
  exact congrArg some (halfBytes_join v)

theorem Memory.wf_writeHalf {mem : Memory} (h : mem.wf) (a : Nat) (v : Half) : (mem.writeHalf a v).wf :=
  Memory.wf_writeBytes h a _

theorem halves_length (vs : List Half) : (vs.flatMap halfBytes).length = 2 * vs.length := by
  induction vs with
  | nil => rfl
  | cons v vs ih =>
    simp only [List.flatMap_cons, List.length_append, halfBytes_length, ih, List.length_cons]
    omega

theorem Memory.wf_writeHalves {mem : Memory} (h : mem.wf) (a : Nat) (vs : List Half) : (mem.writeHalves a vs).wf :=
  Memory.wf_writeBytes h a _

theorem Memory.read_writeHalves_outside (mem : Memory) (a : Nat) (vs : List Half) {a' : Nat}
    (h : a' < a ∨ a + 2 * vs.length ≤ a') : (mem.writeHalves a vs).read a' = mem.read a' :=
  Memory.read_writeBytes_outside mem a _ (by rw [halves_length]; exact h)

theorem Memory.readHalf_writeHalves_outside (mem : Memory) (a : Nat) (vs : List Half) {a' : Nat}
    (h : a' + 2 ≤ a ∨ a + 2 * vs.length ≤ a') : (mem.writeHalves a vs).readHalf a' = mem.readHalf a' := by
  rw [Memory.readHalf, Memory.readHalf, Memory.read_writeHalves_outside _ _ _ (by omega),
    Memory.read_writeHalves_outside _ _ _ (by omega)]

theorem Memory.writeHalves_cons (mem : Memory) (a : Nat) (v : Half) (vs : List Half) :
    mem.writeHalves a (v :: vs) = (mem.writeHalf a v).writeHalves (a + 2) vs := rfl

theorem Memory.readHalf_writeHalves_inside (mem : Memory) (a : Nat) (vs : List Half) {i : Nat} (h : i < vs.length) :
    (mem.writeHalves a vs).readHalf (a + 2 * i) = some vs[i] := by
  induction vs generalizing mem a i with
  | nil => simp at h
  | cons v vs ih =>
    rw [Memory.writeHalves_cons]
    cases i with
    | zero =>
      rw [show a + 2 * 0 = a by omega, Memory.readHalf_writeHalves_outside _ _ _ (by omega),
        Memory.readHalf_writeHalf_same]
      rfl
    | succ i =>
      rw [show a + 2 * (i + 1) = a + 2 + 2 * i by omega, ih _ _ (by simpa using h)]
      rfl

theorem Memory.mem_writeHalves {mem : Memory} {a : Nat} {vs : List Half} {c : Host.Cell}
    (h : c ∈ mem.writeHalves a vs) : (a ≤ c.1 ∧ c.1 < a + 2 * vs.length) ∨ c ∈ mem := by
  have := Memory.mem_writeBytes h
  rwa [halves_length] at this

end Sys2Proof.Machine
end

