-- ==== Sys2Proof/Laws/State.lean ====
section
/-! SUPPORT. What each named update of the state does to each field, so that no proof unfolds a record update. -/

namespace Sys2Proof.Machine

variable (s : State)

@[simp] theorem State.start_status (w : Word) : (s.start w).status = statusStarted := rfl
@[simp] theorem State.start_k (w : Word) : (s.start w).k = s.k := rfl
@[simp] theorem State.start_m (w : Word) : (s.start w).m = s.m := rfl
@[simp] theorem State.start_l (w : Word) : (s.start w).l = s.l := rfl
@[simp] theorem State.start_inLen (w : Word) : (s.start w).inLen = s.inLen := rfl
@[simp] theorem State.start_inCount (w : Word) : (s.start w).inCount = s.inCount := rfl
@[simp] theorem State.start_inMode (w : Word) : (s.start w).inMode = s.inMode := rfl
@[simp] theorem State.start_outLen (w : Word) : (s.start w).outLen = s.outLen := rfl
@[simp] theorem State.start_outCount (w : Word) : (s.start w).outCount = s.outCount := rfl
@[simp] theorem State.start_outMode (w : Word) : (s.start w).outMode = s.outMode := rfl
@[simp] theorem State.start_res (w : Word) : (s.start w).res = s.res := rfl
@[simp] theorem State.start_cmdReg (w : Word) : (s.start w).cmdReg = w := rfl
@[simp] theorem State.start_mem (w : Word) : (s.start w).mem = s.mem := rfl
@[simp] theorem State.start_agenda (w : Word) : (s.start w).agenda = s.agenda := rfl
@[simp] theorem State.start_replies (w : Word) : (s.start w).replies = s.replies := rfl
@[simp] theorem State.start_draws (w : Word) : (s.start w).draws = s.draws := rfl

@[simp] theorem State.clearResults_status : s.clearResults.status = s.status := rfl
@[simp] theorem State.clearResults_k : s.clearResults.k = s.k := rfl
@[simp] theorem State.clearResults_m : s.clearResults.m = s.m := rfl
@[simp] theorem State.clearResults_l : s.clearResults.l = s.l := rfl
@[simp] theorem State.clearResults_inLen : s.clearResults.inLen = s.inLen := rfl
@[simp] theorem State.clearResults_inCount : s.clearResults.inCount = s.inCount := rfl
@[simp] theorem State.clearResults_inMode : s.clearResults.inMode = s.inMode := rfl
@[simp] theorem State.clearResults_outLen : s.clearResults.outLen = 0 := rfl
@[simp] theorem State.clearResults_outCount : s.clearResults.outCount = 0 := rfl
@[simp] theorem State.clearResults_outMode : s.clearResults.outMode = 0 := rfl
@[simp] theorem State.clearResults_res : s.clearResults.res = 0 := rfl
@[simp] theorem State.clearResults_cmdReg : s.clearResults.cmdReg = s.cmdReg := rfl
@[simp] theorem State.clearResults_mem : s.clearResults.mem = s.mem := rfl
@[simp] theorem State.clearResults_agenda : s.clearResults.agenda = s.agenda := rfl
@[simp] theorem State.clearResults_replies : s.clearResults.replies = s.replies := rfl
@[simp] theorem State.clearResults_draws : s.clearResults.draws = s.draws := rfl

@[simp] theorem State.succeed_status : s.succeed.status = statusDone := rfl
@[simp] theorem State.succeed_k : s.succeed.k = s.k := rfl
@[simp] theorem State.succeed_m : s.succeed.m = s.m := rfl
@[simp] theorem State.succeed_l : s.succeed.l = s.l := rfl
@[simp] theorem State.succeed_inLen : s.succeed.inLen = s.inLen := rfl
@[simp] theorem State.succeed_inCount : s.succeed.inCount = s.inCount := rfl
@[simp] theorem State.succeed_inMode : s.succeed.inMode = s.inMode := rfl
@[simp] theorem State.succeed_outLen : s.succeed.outLen = s.outLen := rfl
@[simp] theorem State.succeed_outCount : s.succeed.outCount = s.outCount := rfl
@[simp] theorem State.succeed_outMode : s.succeed.outMode = s.outMode := rfl
@[simp] theorem State.succeed_res : s.succeed.res = s.res := rfl
@[simp] theorem State.succeed_cmdReg : s.succeed.cmdReg = s.cmdReg := rfl
@[simp] theorem State.succeed_mem : s.succeed.mem = s.mem := rfl
@[simp] theorem State.succeed_agenda : s.succeed.agenda = s.agenda := rfl
@[simp] theorem State.succeed_replies : s.succeed.replies = s.replies := rfl
@[simp] theorem State.succeed_draws : s.succeed.draws = s.draws := rfl

@[simp] theorem State.raised_status (e : ErrorName) : (s.raised e).status = statusError e := rfl
@[simp] theorem State.raised_k (e : ErrorName) : (s.raised e).k = s.k := rfl
@[simp] theorem State.raised_m (e : ErrorName) : (s.raised e).m = s.m := rfl
@[simp] theorem State.raised_l (e : ErrorName) : (s.raised e).l = s.l := rfl
@[simp] theorem State.raised_inLen (e : ErrorName) : (s.raised e).inLen = s.inLen := rfl
@[simp] theorem State.raised_inCount (e : ErrorName) : (s.raised e).inCount = s.inCount := rfl
@[simp] theorem State.raised_inMode (e : ErrorName) : (s.raised e).inMode = s.inMode := rfl
@[simp] theorem State.raised_outLen (e : ErrorName) : (s.raised e).outLen = 0 := rfl
@[simp] theorem State.raised_outCount (e : ErrorName) : (s.raised e).outCount = 0 := rfl
@[simp] theorem State.raised_outMode (e : ErrorName) : (s.raised e).outMode = 0 := rfl
@[simp] theorem State.raised_res (e : ErrorName) : (s.raised e).res = 0 := rfl
@[simp] theorem State.raised_cmdReg (e : ErrorName) : (s.raised e).cmdReg = s.cmdReg := rfl
@[simp] theorem State.raised_mem (e : ErrorName) : (s.raised e).mem = s.mem := rfl
@[simp] theorem State.raised_agenda (e : ErrorName) : (s.raised e).agenda = s.agenda := rfl
@[simp] theorem State.raised_replies (e : ErrorName) : (s.raised e).replies = s.replies := rfl
@[simp] theorem State.raised_draws (e : ErrorName) : (s.raised e).draws = s.draws := rfl

@[simp] theorem State.nothingMissing_status : s.nothingMissing.status = s.status := rfl
@[simp] theorem State.nothingMissing_k : s.nothingMissing.k = s.k := rfl
@[simp] theorem State.nothingMissing_m : s.nothingMissing.m = s.m := rfl
@[simp] theorem State.nothingMissing_l : s.nothingMissing.l = s.l := rfl
@[simp] theorem State.nothingMissing_inLen : s.nothingMissing.inLen = s.inLen := rfl
@[simp] theorem State.nothingMissing_inCount : s.nothingMissing.inCount = s.inCount := rfl
@[simp] theorem State.nothingMissing_inMode : s.nothingMissing.inMode = s.inMode := rfl
@[simp] theorem State.nothingMissing_outLen : s.nothingMissing.outLen = s.l := rfl
@[simp] theorem State.nothingMissing_outCount : s.nothingMissing.outCount = 0 := rfl
@[simp] theorem State.nothingMissing_outMode : s.nothingMissing.outMode = 1 := rfl
@[simp] theorem State.nothingMissing_res : s.nothingMissing.res = s.res := rfl
@[simp] theorem State.nothingMissing_cmdReg : s.nothingMissing.cmdReg = s.cmdReg := rfl
@[simp] theorem State.nothingMissing_mem : s.nothingMissing.mem = s.mem := rfl
@[simp] theorem State.nothingMissing_agenda : s.nothingMissing.agenda = s.agenda := rfl
@[simp] theorem State.nothingMissing_replies : s.nothingMissing.replies = s.replies := rfl
@[simp] theorem State.nothingMissing_draws : s.nothingMissing.draws = s.draws := rfl

@[simp] theorem State.deliver_status (v : Word) : (s.deliver v).status = s.status := rfl
@[simp] theorem State.deliver_k (v : Word) : (s.deliver v).k = s.k := rfl
@[simp] theorem State.deliver_m (v : Word) : (s.deliver v).m = s.m := rfl
@[simp] theorem State.deliver_l (v : Word) : (s.deliver v).l = s.l := rfl
@[simp] theorem State.deliver_inLen (v : Word) : (s.deliver v).inLen = s.inLen := rfl
@[simp] theorem State.deliver_inCount (v : Word) : (s.deliver v).inCount = s.inCount := rfl
@[simp] theorem State.deliver_inMode (v : Word) : (s.deliver v).inMode = s.inMode := rfl
@[simp] theorem State.deliver_outLen (v : Word) : (s.deliver v).outLen = s.outLen := rfl
@[simp] theorem State.deliver_outCount (v : Word) : (s.deliver v).outCount = s.outCount := rfl
@[simp] theorem State.deliver_outMode (v : Word) : (s.deliver v).outMode = s.outMode := rfl
@[simp] theorem State.deliver_res (v : Word) : (s.deliver v).res = s.res := rfl
@[simp] theorem State.deliver_cmdReg (v : Word) : (s.deliver v).cmdReg = s.cmdReg := rfl
@[simp] theorem State.deliver_mem (v : Word) : (s.deliver v).mem = s.mem := rfl
@[simp] theorem State.deliver_agenda (v : Word) : (s.deliver v).agenda = s.agenda := rfl
@[simp] theorem State.deliver_replies (v : Word) : (s.deliver v).replies = v :: s.replies := rfl
@[simp] theorem State.deliver_draws (v : Word) : (s.deliver v).draws = s.draws := rfl

@[simp] theorem State.takeMove_status : s.takeMove.status = s.status := rfl
@[simp] theorem State.takeMove_k : s.takeMove.k = s.k := rfl
@[simp] theorem State.takeMove_m : s.takeMove.m = s.m := rfl
@[simp] theorem State.takeMove_l : s.takeMove.l = s.l := rfl
@[simp] theorem State.takeMove_inLen : s.takeMove.inLen = s.inLen := rfl
@[simp] theorem State.takeMove_inCount : s.takeMove.inCount = s.inCount := rfl
@[simp] theorem State.takeMove_inMode : s.takeMove.inMode = s.inMode := rfl
@[simp] theorem State.takeMove_outLen : s.takeMove.outLen = s.outLen := rfl
@[simp] theorem State.takeMove_outCount : s.takeMove.outCount = s.outCount := rfl
@[simp] theorem State.takeMove_outMode : s.takeMove.outMode = s.outMode := rfl
@[simp] theorem State.takeMove_res : s.takeMove.res = s.res := rfl
@[simp] theorem State.takeMove_cmdReg : s.takeMove.cmdReg = s.cmdReg := rfl
@[simp] theorem State.takeMove_mem : s.takeMove.mem = s.mem := rfl
@[simp] theorem State.takeMove_agenda : s.takeMove.agenda = s.agenda.tail := rfl
@[simp] theorem State.takeMove_replies : s.takeMove.replies = s.replies := rfl
@[simp] theorem State.takeMove_draws : s.takeMove.draws = s.draws := rfl

@[simp] theorem State.resetEvent_status : s.resetEvent.status = 0 := rfl
@[simp] theorem State.resetEvent_k : s.resetEvent.k = 0 := rfl
@[simp] theorem State.resetEvent_m : s.resetEvent.m = 0 := rfl
@[simp] theorem State.resetEvent_l : s.resetEvent.l = 0 := rfl
@[simp] theorem State.resetEvent_inLen : s.resetEvent.inLen = 0 := rfl
@[simp] theorem State.resetEvent_inCount : s.resetEvent.inCount = 0 := rfl
@[simp] theorem State.resetEvent_inMode : s.resetEvent.inMode = 0 := rfl
@[simp] theorem State.resetEvent_outLen : s.resetEvent.outLen = 0 := rfl
@[simp] theorem State.resetEvent_outCount : s.resetEvent.outCount = 0 := rfl
@[simp] theorem State.resetEvent_outMode : s.resetEvent.outMode = 0 := rfl
@[simp] theorem State.resetEvent_res : s.resetEvent.res = 0 := rfl
@[simp] theorem State.resetEvent_cmdReg : s.resetEvent.cmdReg = 0 := rfl
@[simp] theorem State.resetEvent_mem : s.resetEvent.mem = [] := rfl
@[simp] theorem State.resetEvent_agenda : s.resetEvent.agenda = s.agenda := rfl
@[simp] theorem State.resetEvent_replies : s.resetEvent.replies = s.replies := rfl
@[simp] theorem State.resetEvent_draws : s.resetEvent.draws = s.draws := rfl

end Sys2Proof.Machine
end

