-- ==== Sys2Proof/Laws/Ops.lean ====
section
/-! SUPPORT. What each shared operation can do: collecting results, the engine's reads, and completing a command. -/

namespace Sys2Proof.Machine

section Collect

variable {α β ε : Type} {f : α → Except ε β}

/-- A collection that succeeds has one result per element, in order. -/
theorem collect_ok {xs : List α} {ys : List β} (h : collect f xs = .ok ys) :
    ys.length = xs.length ∧ ∀ i (hx : i < xs.length) (hy : i < ys.length), f xs[i] = .ok ys[i] := by
  induction xs generalizing ys with
  | nil =>
    cases h
    exact ⟨rfl, fun i hx => absurd hx (Nat.not_lt_zero i)⟩
  | cons x xs ih =>
    unfold collect at h
    split at h
    · cases h
    · rename_i y hy
      split at h
      · cases h
      · rename_i ys' hys
        cases h
        obtain ⟨hlen, hget⟩ := ih hys
        refine ⟨by simp [hlen], fun i hx hy' => ?_⟩
        cases i with
        | zero => exact hy
        | succ i => exact hget i (Nat.lt_of_succ_lt_succ hx) (Nat.lt_of_succ_lt_succ hy')

theorem collect_length {xs : List α} {ys : List β} (h : collect f xs = .ok ys) : ys.length = xs.length :=
  (collect_ok h).1

/-- Every result comes from an element. -/
theorem collect_mem {xs : List α} {ys : List β} (h : collect f xs = .ok ys) {y : β} (hy : y ∈ ys) :
    ∃ x ∈ xs, f x = .ok y := by
  obtain ⟨i, hi, rfl⟩ := List.getElem_of_mem hy
  obtain ⟨hlen, hget⟩ := collect_ok h
  exact ⟨xs[i], List.getElem_mem (by omega), hget i (by omega) hi⟩

/-- Elements that all succeed are collected. -/
theorem collect_eq_map {xs : List α} {g : α → β} (h : ∀ x ∈ xs, f x = .ok (g x)) :
    collect f xs = .ok (xs.map g) := by
  induction xs with
  | nil => rfl
  | cons x xs ih =>
    rw [collect, h x List.mem_cons_self, ih (fun y hy => h y (List.mem_cons_of_mem _ hy))]
    rfl

/-- A collection that stops does so at an element, all before it having succeeded. -/
theorem collect_error {xs : List α} {e : ε} (h : collect f xs = .error e) : ∃ x ∈ xs, f x = .error e := by
  induction xs with
  | nil => cases h
  | cons x xs ih =>
    unfold collect at h
    split at h
    · rename_i e' he
      cases h
      exact ⟨x, List.mem_cons_self, he⟩
    · split at h
      · rename_i e' he
        cases h
        obtain ⟨y, hy, hye⟩ := ih he
        exact ⟨y, List.mem_cons_of_mem _ hy, hye⟩
      · cases h

/-- A collection over an element that stops does stop. -/
theorem collect_stops {xs : List α} {x : α} (hx : x ∈ xs) {e : ε} (h : f x = .error e) :
    ∃ e', collect f xs = .error e' := by
  cases hc : collect f xs with
  | error e' => exact ⟨e', rfl⟩
  | ok ys =>
    obtain ⟨i, hi, rfl⟩ := List.getElem_of_mem hx
    obtain ⟨hlen, hget⟩ := collect_ok hc
    rw [hget i hi (by omega)] at h
    cases h

/-- Two functions that agree on the elements collect alike. -/
theorem collect_congr {xs : List α} {g : α → Except ε β} (h : ∀ x ∈ xs, f x = g x) :
    collect f xs = collect g xs := by
  induction xs with
  | nil => rfl
  | cons x xs ih =>
    rw [collect, collect, h x List.mem_cons_self, ih (fun y hy => h y (List.mem_cons_of_mem _ hy))]

end Collect

/-! ### Checks and reads -/

theorem raiseIf_ok {c : Option ErrorName} {u : Unit} (h : raiseIf c = .ok u) : c = none := by
  cases c with
  | none => rfl
  | some e => cases h

theorem raiseIf_error {c : Option ErrorName} {x : Stop} (h : raiseIf c = .error x) : ∃ e, c = some e ∧ x = .raise e := by
  cases c with
  | none => cases h
  | some e =>
    cases h
    exact ⟨e, rfl, rfl⟩

theorem bind_ok {ε α β : Type} {x : Except ε α} {f : α → Except ε β} {b : β} (h : (x >>= f) = .ok b) :
    ∃ a, x = .ok a ∧ f a = .ok b := by
  cases x with
  | error e => cases h
  | ok a => exact ⟨a, rfl, h⟩

theorem bind_error {ε α β : Type} {x : Except ε α} {f : α → Except ε β} {e : ε} (h : (x >>= f) = .error e) :
    x = .error e ∨ ∃ a, x = .ok a ∧ f a = .error e := by
  cases x with
  | error e' =>
    cases h
    exact .inl rfl
  | ok a => exact .inr ⟨a, rfl, h⟩

theorem State.engineByte_ok {s : State} {off : Nat} {v : Byte} :
    s.engineByte off = .ok v ↔ s.mem.read off = some v := by
  unfold State.engineByte
  cases s.mem.read off <;> simp

theorem State.engineByte_error {s : State} {off : Nat} {x : Stop} :
    s.engineByte off = .error x ↔ s.mem.read off = none ∧ x = .refuse (.unwrittenRead off) := by
  unfold State.engineByte
  cases s.mem.read off <;> simp [eq_comm]

theorem State.engineHalf_ok {s : State} {off : Nat} {v : Half} :
    s.engineHalf off = .ok v ↔ s.mem.readHalf off = some v := by
  unfold State.engineHalf
  cases s.mem.readHalf off <;> simp

theorem State.engineHalf_error {s : State} {off : Nat} {x : Stop} :
    s.engineHalf off = .error x ↔ s.mem.readHalf off = none ∧ x = .refuse (.unwrittenRead off) := by
  unfold State.engineHalf
  cases s.mem.readHalf off <;> simp [eq_comm]

/-! ### Completing a command -/

theorem State.complete_of_ok {s u : State} {rule : State → Except Stop State} (h : rule s.clearResults = .ok u) :
    s.complete rule = .next u.succeed := by
  rw [State.complete, h]

theorem State.complete_of_raise {s : State} {rule : State → Except Stop State} {e : ErrorName}
    (h : rule s.clearResults = .error (.raise e)) : s.complete rule = .next (s.raised e) := by
  rw [State.complete, h]

theorem State.complete_of_refuse {s : State} {rule : State → Except Stop State} {r : Refusal}
    (h : rule s.clearResults = .error (.refuse r)) : s.complete rule = .refused r := by
  rw [State.complete, h]

/-- Everything a `COMPLETE` that answers a next state can have done. -/
theorem State.complete_next {s t : State} {rule : State → Except Stop State} (h : s.complete rule = .next t) :
    (∃ u, rule s.clearResults = .ok u ∧ t = u.succeed) ∨
    (∃ e, rule s.clearResults = .error (.raise e) ∧ t = s.raised e) := by
  unfold State.complete at h
  split at h
  · rename_i u hu
    cases h
    exact .inl ⟨u, hu, rfl⟩
  · rename_i e he
    cases h
    exact .inr ⟨e, he, rfl⟩
  · cases h

/-- A `COMPLETE` never faults. -/
theorem State.complete_no_fault {s : State} {rule : State → Except Stop State} {f : Fault} :
    s.complete rule ≠ .fault f := by
  unfold State.complete
  split <;> simp

/-- A `COMPLETE` refuses only what its rule refuses. -/
theorem State.complete_refused {s : State} {rule : State → Except Stop State} {r : Refusal}
    (h : s.complete rule = .refused r) : rule s.clearResults = .error (.refuse r) := by
  unfold State.complete at h
  split at h
  · cases h
  · cases h
  · rename_i r' hr
    cases h
    exact hr

end Sys2Proof.Machine
end

