-- ==== Sys2Proof/Laws/Bus.lean ====
section
/-! SUPPORT. What a host access can do: what it reaches, and what it answers. -/

namespace Sys2Proof.Machine

theorem registerRow_length : registerRow.length = 12 := rfl

theorem Reg.mem_registerRow (r : Reg) : r ∈ registerRow := by
  cases r <;> decide

/-- An access that reaches a register is of size 4 at the register's offset. -/
theorem resolve_reg {off n : Nat} {r : Reg} (h : resolve off n = some (.reg r)) :
    n = 4 ∧ off % 4 = 0 ∧ registerRow[off / 4]? = some r := by
  unfold resolve at h
  split at h
  · cases h
  · split at h
    · split at h
      · rename_i h0 _ hn
        subst hn
        refine ⟨rfl, by simpa using h0, ?_⟩
        simpa using h
      · cases h
    · split at h
      · split at h <;> cases h
      · cases h

/-- Every register is reached at its offset. -/
theorem resolve_offset (r : Reg) : resolve r.offset 4 = some (.reg r) := by
  cases r <;> decide

/-- An access that reaches a buffer element is aligned, of the element's size, and inside the buffer. -/
theorem resolve_elem {off n o : Nat} {b : Buffer} (h : resolve off n = some (.elem b o)) :
    o = off ∧ n = b.elemBytes ∧ off % n = 0 ∧ b.base ≤ off ∧ off + n ≤ b.base + b.size := by
  unfold resolve at h
  split at h
  · cases h
  · rename_i h0
    split at h
    · split at h
      · cases hr : registerRow[off / 4]? <;> simp [hr] at h
      · cases h
    · split at h
      · rename_i b' hb
        split at h
        · rename_i hn
          cases h
          have := List.find?_some hb
          rw [Buffer.holds, Bool.and_eq_true, decide_eq_true_eq, decide_eq_true_eq] at this
          exact ⟨rfl, hn, by omega, this.1, this.2⟩
        · cases h
      · cases h

theorem Buffer.holds_iff {b : Buffer} {off n : Nat} :
    b.holds off n = true ↔ b.base ≤ off ∧ off + n ≤ b.base + b.size := by
  rw [Buffer.holds, Bool.and_eq_true, decide_eq_true_eq, decide_eq_true_eq]

/-- The rows of the map do not meet: bytes inside one are inside no other (R51). -/
theorem Buffer.holds_unique {b b' : Buffer} {off n : Nat} (hn : 0 < n) (h : b.holds off n = true)
    (h' : b'.holds off n = true) : b' = b := by
  rw [Buffer.holds_iff] at h h'
  cases b <;> cases b' <;>
    first
      | rfl
      | (simp only [Buffer.base, Buffer.size, Buffer.elemBytes, Buffer.count, Config.LMAX] at h h'; omega)

theorem Buffer.mem_bufferRows (b : Buffer) : b ∈ bufferRows := by
  cases b <;> decide

/-- Every element of every buffer is reached at its offset, with its size. -/
theorem resolve_element {b : Buffer} {off : Nat} (ha : off % b.elemBytes = 0)
    (h : off + b.elemBytes ≤ b.size) :
    resolve (b.base + off) b.elemBytes = some (.elem b (b.base + off)) := by
  have hn : 0 < b.elemBytes := by cases b <;> decide
  have hholds : b.holds (b.base + off) b.elemBytes = true := Buffer.holds_iff.mpr ⟨by omega, by omega⟩
  have hal : (b.base + off) % b.elemBytes = 0 := by
    have hb : b.base % b.elemBytes = 0 := by cases b <;> decide
    rw [Nat.add_mod, hb, ha, Nat.zero_add, Nat.zero_mod]
  have hbase : 0x30 < b.base := by cases b <;> decide
  unfold resolve
  rw [if_neg (by omega), if_neg (by omega)]
  cases hf : bufferRows.find? (fun b' => b'.holds (b.base + off) b.elemBytes) with
  | none => exact absurd hholds (List.find?_eq_none.mp hf b (Buffer.mem_bufferRows b))
  | some b' =>
    have hb' : b'.holds (b.base + off) b.elemBytes = true := by
      simpa using List.find?_some hf
    obtain rfl := Buffer.holds_unique hn hholds hb'
    simp

/-- Everything a host access that answers a next state can have done. -/
theorem State.hostAccess_next {s t : State} {a : HostAccess} (h : s.hostAccess a = .next t) :
    (∃ off n r, a = .read off n ∧ resolve off n = some (.reg r) ∧ (s.busy → r = .status) ∧
      t = s.deliver (s.readReg r)) ∨
    (∃ off n b, a = .read off n ∧ resolve off n = some (.elem b off) ∧ s.busy = false ∧ t = s.readElement b off) ∨
    (∃ off n v r, a = .write off n v ∧ resolve off n = some (.reg r) ∧ s.busy = false ∧ t = s.writeReg r v) ∨
    (∃ off n v b, a = .write off n v ∧ resolve off n = some (.elem b off) ∧ s.busy = false ∧
      t = s.writeElement b off v) := by
  cases a with
  | read off n =>
    rw [State.hostAccess, State.hostRead] at h
    split at h
    · cases h
    · rename_i r hr
      split at h
      · cases h
      · rename_i hb
        cases h
        refine .inl ⟨off, n, r, rfl, hr, fun hbusy => ?_, rfl⟩
        by_contra hne
        exact hb ⟨hbusy, hne⟩
    · rename_i b o hr
      obtain ⟨rfl, _⟩ := resolve_elem hr
      split at h
      · cases h
      · rename_i hb
        cases h
        exact .inr (.inl ⟨o, n, b, rfl, hr, by simpa using hb, rfl⟩)
  | write off n v =>
    rw [State.hostAccess, State.hostWrite] at h
    split at h
    · cases h
    · rename_i r hr
      split at h
      · cases h
      · rename_i hb
        cases h
        exact .inr (.inr (.inl ⟨off, n, v, r, rfl, hr, by simpa using hb, rfl⟩))
    · rename_i b o hr
      obtain ⟨rfl, _⟩ := resolve_elem hr
      split at h
      · cases h
      · rename_i hb
        cases h
        exact .inr (.inr (.inr ⟨o, n, v, b, rfl, hr, by simpa using hb, rfl⟩))

/-- A read of a buffer element changes nothing but the host's side. -/
theorem State.readElement_block (s : State) (b : Buffer) (off : Nat) :
    ∃ v d, s.readElement b off = { s with replies := v :: s.replies, draws := d } := by
  unfold State.readElement
  split
  · exact ⟨_, s.draws, rfl⟩
  · exact ⟨_, _, rfl⟩

/-- A write of a buffer element changes the memory only. -/
theorem State.writeElement_mem (s : State) (b : Buffer) (off : Nat) (v : Word) :
    ∃ mem, s.writeElement b off v = { s with mem := mem } ∧ (s.mem.wf → mem.wf) ∧
      ∀ a, a < off ∨ off + b.elemBytes ≤ a → mem.read a = s.mem.read a := by
  unfold State.writeElement
  split
  · split
    · rename_i h2
      refine ⟨_, rfl, fun h => Memory.wf_writeHalf h _ _, fun a ha => ?_⟩
      exact Memory.read_writeBytes_outside _ _ _ (by rw [halfBytes_length]; omega)
    · rename_i h2
      have h1 : b.elemBytes = 1 := by cases b <;> first | rfl | exact absurd rfl h2
      refine ⟨_, rfl, fun h => Memory.wf_write h _ _, fun a ha => ?_⟩
      exact Memory.read_write_other _ _ (by omega)
  · exact ⟨s.mem, rfl, id, fun _ _ => rfl⟩

/-- A write of a register never touches the memory. -/
@[simp] theorem State.writeReg_mem (s : State) (r : Reg) (v : Word) : (s.writeReg r v).mem = s.mem := by
  cases r <;> rfl

end Sys2Proof.Machine
end

