-- ==== Sys2Proof/Laws/PerInstr.lean ====
section
/-! SUPPORT. A fact about every command as syntax, one lemma per constructor: its word has the opcode of its row of the
opcode map, and the bits its format requires to be zero are zero (spec/30_encoding.md R70, R73). -/

namespace Sys2Proof.Laws.Format

/-- The opcode the map gives a command (R73). -/
def opcode : Instr → Byte
  | .gfadd _ _ => 0x01
  | .gfmul _ _ => 0x02
  | .gfdiv _ _ => 0x03
  | .genq _ _  => 0x04
  | .encode    => 0x05
  | .matinv    => 0x06
  | .decode    => 0x07

/-- The word's `op` field is the command's opcode and its bits 31:24 are zero. -/
def Statement (i : Instr) : Prop := opField (encode i) = opcode i ∧ (encode i).extractLsb' 24 8 = 0x00

theorem opField_wordAB (op : Byte) (a b : Byte) : opField (wordAB (op.setWidth 32) a b) = op := by
  ext i hi
  have h1 : i < 16 := by omega
  have h2 : i < 32 := by omega
  simp [opField, wordAB, hi, h1, h2]

theorem topField_wordAB (op : Byte) (a b : Byte) : (wordAB (op.setWidth 32) a b).extractLsb' 24 8 = 0x00 := by
  ext i hi
  simp only [wordAB, BitVec.getElem_extractLsb', BitVec.getLsbD_or, BitVec.getLsbD_shiftLeft, BitVec.getLsbD_setWidth]
  rw [BitVec.getLsbD_of_ge b (24 + i - 16) (by omega), BitVec.getLsbD_of_ge a (24 + i - 8) (by omega),
    BitVec.getLsbD_of_ge op (24 + i) (by omega)]
  simp

theorem gfadd (a b : Byte) : Statement (.gfadd a b) := ⟨opField_wordAB 0x01 a b, topField_wordAB 0x01 a b⟩
theorem gfmul (a b : Byte) : Statement (.gfmul a b) := ⟨opField_wordAB 0x02 a b, topField_wordAB 0x02 a b⟩
theorem gfdiv (a b : Byte) : Statement (.gfdiv a b) := ⟨opField_wordAB 0x03 a b, topField_wordAB 0x03 a b⟩
theorem genq (r c : Byte) : Statement (.genq r c) := ⟨opField_wordAB 0x04 r c, topField_wordAB 0x04 r c⟩
theorem encode : Statement .encode := ⟨by decide, by decide⟩
theorem matinv : Statement .matinv := ⟨by decide, by decide⟩
theorem decode : Statement .decode := ⟨by decide, by decide⟩

end Sys2Proof.Laws.Format
end

