-- ==== Sys2Proof/Laws/Rules.lean ====
section
/-! SUPPORT. What the rule of each command does when it succeeds, and the sizes of what it makes. -/

namespace Sys2Proof.Machine

/-- The rule of a command, which `exec` completes. -/
def ruleOf : Instr → State → Except Stop State
  | .gfadd a b => ruleGfadd a b
  | .gfmul a b => ruleGfmul a b
  | .gfdiv a b => ruleGfdiv a b
  | .genq r c  => ruleGenq r c
  | .encode    => ruleEncode
  | .matinv    => ruleMatinv
  | .decode    => ruleDecode

theorem exec_eq_complete (i : Instr) (s : State) : exec i s = s.complete (ruleOf i) := by
  cases i <;> rfl

/-- Everything `exec` can have done when it answers a next state. -/
theorem exec_next {i : Instr} {s t : State} (h : exec i s = .next t) :
    (∃ u, ruleOf i s.clearResults = .ok u ∧ t = u.succeed) ∨
    (∃ e, ruleOf i s.clearResults = .error (.raise e) ∧ t = s.raised e) :=
  State.complete_next (exec_eq_complete i s ▸ h)

/-! ### Scalar commands and `GENQ` -/

theorem gfDiv_ok {a b q : Byte} (h : gfDiv a b = .ok q) : b ≠ 0x00 ∧ q = gfQuot a b := by
  unfold gfDiv at h
  split at h
  · cases h
  · rename_i hb
    cases h
    exact ⟨hb, rfl⟩

theorem gfDiv_error {a b : Byte} {x : Stop} (h : gfDiv a b = .error x) : b = 0x00 ∧ x = .raise .divisionByZero := by
  unfold gfDiv at h
  split at h
  · rename_i hb
    cases h
    exact ⟨hb, rfl⟩
  · cases h

theorem ruleGfdiv_ok {a b : Byte} {s u : State} (h : ruleGfdiv a b s = .ok u) :
    b ≠ 0x00 ∧ u = { s with res := gfQuot a b } := by
  obtain ⟨q, hq, hu⟩ := bind_ok h
  obtain ⟨hb, rfl⟩ := gfDiv_ok hq
  cases hu
  exact ⟨hb, rfl⟩

theorem ruleGenq_ok {r c : Byte} {s u : State} (h : ruleGenq r c s = .ok u) :
    genqCheck s.kNat s.mNat r.toNat c.toNat = none ∧
    ∃ g, gen s.kNat s.mNat r.toNat c.toNat = .ok g ∧ u = { s with res := g } := by
  obtain ⟨_, h1, h⟩ := bind_ok h
  obtain ⟨g, h2, h⟩ := bind_ok h
  cases h
  exact ⟨raiseIf_ok h1, g, h2, rfl⟩

/-- `GEN` stops only with `DivisionByZero`, never with a refusal. -/
theorem gen_error {k m r c : Nat} {x : Stop} (h : gen k m r c = .error x) : x = .raise .divisionByZero := by
  unfold gen at h
  split at h
  · cases h
  · exact (gfDiv_error h).2

theorem genRow_error {k m r : Nat} {x : Stop} (h : genRow k m r = .error x) : x = .raise .divisionByZero := by
  obtain ⟨c, _, hc⟩ := collect_error h
  exact gen_error hc

theorem validKm_bounds {k m : Nat} (h : validKm k m = true) : 1 ≤ k ∧ k + m ≤ 256 := by
  rw [validKm, Bool.and_eq_true, decide_eq_true_eq, decide_eq_true_eq] at h
  exact h

theorem validKm_iff {k m : Nat} : validKm k m = true ↔ 1 ≤ k ∧ k + m ≤ 256 := by
  refine ⟨validKm_bounds, fun h => ?_⟩
  rw [validKm, Bool.and_eq_true, decide_eq_true_eq, decide_eq_true_eq]
  exact h

theorem matinvCheck_eq (n : Nat) : matinvCheck n = if n = 0 ∨ 256 < n then some .invalidParameters else none := rfl

/-- Inside a valid matrix `GEN` is its value: the Cauchy divisor is not zero there (R111). -/
theorem gen_valid {k m r c : Nat} (hv : validKm k m = true) (hr : r < k + m) (hc : c < k) :
    gen k m r c = .ok (genValue k r c) := by
  have hkm : k + m ≤ 256 := (validKm_bounds hv).2
  unfold gen genValue
  split
  · rfl
  · rename_i hk
    have hx : Config.XSEQ k m (r - k) = BitVec.ofNat 8 r := by
      unfold Config.XSEQ
      rw [show k + (r - k) = r by omega]
    rw [hx, Config.YSEQ, gfInv, gfDiv, if_neg]
    intro h0
    have h1 := congrArg BitVec.toNat (BitVec.xor_eq_zero_iff.mp h0)
    simp only [BitVec.toNat_ofNat] at h1
    omega

theorem genRow_valid {k m r : Nat} (hv : validKm k m = true) (hr : r < k + m) :
    genRow k m r = .ok ((List.range k).map (genValue k r)) :=
  collect_eq_map (fun _ hc => gen_valid hv hr (List.mem_range.mp hc))

theorem genRow_length {k m r : Nat} {row : List Byte} (h : genRow k m r = .ok row) : row.length = k := by
  rw [collect_length h, List.length_range]

/-! ### Combining shards -/

/-- A combined shard has `L` bytes, each the row times its column. -/
theorem State.combineShards_ok {s : State} {row : List Byte} {ps : List Nat} {shard : List Byte}
    (h : s.combineShards row ps = .ok shard) :
    shard.length = s.lNat ∧ ∀ b (hb : b < shard.length), ∃ col, s.inColumn ps b = .ok col ∧ shard[b] = gfDot row col := by
  obtain ⟨hlen, hget⟩ := collect_ok h
  rw [List.length_range] at hlen
  refine ⟨hlen, fun b hb => ?_⟩
  obtain ⟨col, hcol, hdot⟩ := bind_ok (hget b (by rw [List.length_range]; omega) hb)
  rw [List.getElem_range] at hcol
  exact ⟨col, hcol, (Except.ok.inj hdot).symm⟩

/-- The rule reads input bytes only: if it stops, it refuses a location without a value. -/
theorem State.combineShards_error {s : State} {row : List Byte} {ps : List Nat} {x : Stop}
    (h : s.combineShards row ps = .error x) :
    ∃ p ∈ ps, ∃ b, b < s.lNat ∧ s.mem.read (inDataAt s.lNat p b) = none ∧
      x = .refuse (.unwrittenRead (inDataAt s.lNat p b)) := by
  obtain ⟨b, hb, hx⟩ := collect_error h
  rcases bind_error hx with hx | ⟨_, _, hx⟩
  · obtain ⟨p, hp, hread⟩ := collect_error hx
    obtain ⟨h0, h1⟩ := State.engineByte_error.mp hread
    exact ⟨p, hp, b, List.mem_range.mp hb, h0, h1⟩
  · cases hx

/-! ### `ENCODE` -/

theorem ruleEncode_ok {s u : State} (h : ruleEncode s = .ok u) :
    encodeCheck s = none ∧ ∃ shards, collect s.recoveryShard (List.range s.mNat) = .ok shards ∧
      u = { s with mem := s.mem.writeRows (outDataAt s.lNat 0 0) s.lNat shards
                   outLen := s.l, outCount := s.m.setWidth 32, outMode := 0 } := by
  obtain ⟨_, h1, h⟩ := bind_ok h
  obtain ⟨shards, h2, h⟩ := bind_ok h
  cases h
  exact ⟨raiseIf_ok h1, shards, h2, rfl⟩

theorem State.recoveryShard_length {s : State} {j : Nat} {shard : List Byte} (h : s.recoveryShard j = .ok shard) :
    shard.length = s.lNat := by
  obtain ⟨row, _, h⟩ := bind_ok h
  exact (State.combineShards_ok h).1

/-- The recovery shards: `m` of them, each of `L` bytes. -/
theorem recoveryShards_size {s : State} {shards : List (List Byte)}
    (h : collect s.recoveryShard (List.range s.mNat) = .ok shards) :
    shards.length = s.mNat ∧ ∀ shard ∈ shards, shard.length = s.lNat := by
  refine ⟨by rw [collect_length h, List.length_range], fun shard hs => ?_⟩
  obtain ⟨j, _, hj⟩ := collect_mem h hs
  exact State.recoveryShard_length hj

theorem encodeCheck_none {s : State} (h : encodeCheck s = none) :
    validKm s.kNat s.mNat = true ∧ s.countNat = s.kNat ∧ s.inLen = s.l := by
  unfold encodeCheck at h
  split at h
  · cases h
  · split at h
    · cases h
    · split at h
      · cases h
      · split at h
        · cases h
        · simp_all

/-! ### `MATINV` -/

theorem WorkRow.scale_w_length (row : WorkRow) (d : Byte) : (row.scale d).w.length = row.w.length := by
  simp [WorkRow.scale]

theorem WorkRow.scale_v_length (row : WorkRow) (d : Byte) : (row.scale d).v.length = row.v.length := by
  simp [WorkRow.scale]

theorem swapRows_length (rows : List WorkRow) (i j : Nat) : (swapRows rows i j).length = rows.length := by
  simp [swapRows]

theorem eliminate_length (rows : List WorkRow) (c : Nat) (p : WorkRow) : (eliminate rows c p).length = rows.length := by
  simp [eliminate]

/-- The second working matrix has rows of at most `n` entries. -/
def VRowsBounded (n : Nat) (rows : List WorkRow) : Prop := ∀ row ∈ rows, row.v.length = n

theorem workStart_bounded (n : Nat) (mat : List (List Byte)) : VRowsBounded n (workStart n mat) := by
  intro row hrow
  obtain ⟨i, hi, rfl⟩ := List.mem_mapIdx.mp hrow
  simp [identityRow]

theorem getD_bounded {n : Nat} {rows : List WorkRow} (h : VRowsBounded n rows) {i : Nat} (hi : i < rows.length) :
    (rows.getD i ⟨[], []⟩).v.length = n := by
  rw [List.getD_eq_getElem _ _ hi]
  exact h _ (List.getElem_mem hi)

theorem swapRows_bounded {n : Nat} {rows : List WorkRow} (h : VRowsBounded n rows) {i j : Nat} (hi : i < rows.length)
    (hj : j < rows.length) : VRowsBounded n (swapRows rows i j) := by
  intro row hrow
  rcases List.mem_or_eq_of_mem_set hrow with hrow | rfl
  · rcases List.mem_or_eq_of_mem_set hrow with hrow | rfl
    · exact h row hrow
    · exact getD_bounded h hj
  · exact getD_bounded h hi

theorem eliminate_bounded {n : Nat} {rows : List WorkRow} (h : VRowsBounded n rows) (c : Nat) {p : WorkRow}
    (hp : p.v.length = n) : VRowsBounded n (eliminate rows c p) := by
  intro row hrow
  obtain ⟨i, hi, rfl⟩ := List.mem_mapIdx.mp hrow
  split
  · exact hp
  · simp [WorkRow.addMul, h _ (List.getElem_mem hi), hp]

theorem findPivot_range {n : Nat} {rows : List WorkRow} {c p : Nat} (h : findPivot n rows c = some p) :
    c ≤ p ∧ p < c + (n - c) ∧ workEntry rows p c ≠ 0x00 := by
  have hm := List.mem_range'_1.mp (List.mem_of_find?_eq_some h)
  exact ⟨hm.1, hm.2, by simpa using List.find?_some h⟩

theorem pivotColumn_ok {n : Nat} {rows rows' : List WorkRow} {c : Nat} (h : pivotColumn n rows c = .ok rows') :
    ∃ p d, findPivot n rows c = some p ∧ gfInv (workEntry (swapRows rows c p) c c) = .ok d ∧
      rows' = eliminate (swapRows rows c p) c (((swapRows rows c p).getD c ⟨[], []⟩).scale d) := by
  unfold pivotColumn at h
  split at h
  · cases h
  · rename_i p hp
    split at h
    · cases h
    · rename_i d hd
      cases h
      exact ⟨p, d, hp, hd, rfl⟩

theorem pivotColumn_size {n : Nat} {rows rows' : List WorkRow} {c : Nat} (hl : rows.length = n)
    (hb : VRowsBounded n rows) (h : pivotColumn n rows c = .ok rows') :
    rows'.length = n ∧ VRowsBounded n rows' := by
  obtain ⟨p, d, hp, _, rfl⟩ := pivotColumn_ok h
  obtain ⟨h1, h2, _⟩ := findPivot_range hp
  have hs := swapRows_bounded hb (i := c) (j := p) (by omega) (by omega)
  refine ⟨by rw [eliminate_length, swapRows_length, hl], eliminate_bounded hs c ?_⟩
  rw [WorkRow.scale_v_length]
  exact getD_bounded hs (by rw [swapRows_length]; omega)

theorem pivotColumns_size {n : Nat} {cs : List Nat} {rows rows' : List WorkRow} (hl : rows.length = n)
    (hb : VRowsBounded n rows) (h : pivotColumns n cs rows = .ok rows') :
    rows'.length = n ∧ VRowsBounded n rows' := by
  induction cs generalizing rows with
  | nil =>
    cases h
    exact ⟨hl, hb⟩
  | cons c cs ih =>
    unfold pivotColumns at h
    split at h
    · cases h
    · rename_i rows1 h1
      obtain ⟨hl1, hb1⟩ := pivotColumn_size hl hb h1
      exact ih hl1 hb1 h

/-- The inverse of a matrix of `n` rows has `n` rows of `n` entries. -/
theorem gfMatinv_size {n : Nat} {mat inv : List (List Byte)} (hl : mat.length = n) (h : gfMatinv n mat = .ok inv) :
    inv.length = n ∧ ∀ row ∈ inv, row.length = n := by
  unfold gfMatinv at h
  split at h
  · cases h
  · rename_i rows hrows
    cases h
    obtain ⟨h1, h2⟩ := pivotColumns_size (by simp [workStart, hl]) (workStart_bounded n mat) hrows
    refine ⟨by rw [List.length_map, h1], fun row hrow => ?_⟩
    obtain ⟨w, hw, rfl⟩ := List.mem_map.mp hrow
    exact h2 w hw

/-- `gf_matinv` stops only by raising: `SingularMatrix`, for the pivot it inverts is tested (R132). -/
theorem pivotColumn_error {n : Nat} {rows : List WorkRow} {c : Nat} {x : Stop} (hc : c < rows.length)
    (h : pivotColumn n rows c = .error x) : x = .raise .singularMatrix := by
  unfold pivotColumn at h
  split at h
  · cases h
    rfl
  · rename_i p hp
    split at h
    · rename_i e he
      obtain ⟨h1, h2, h3⟩ := findPivot_range hp
      exfalso
      apply h3
      have h4 := (gfDiv_error he).1
      have h5 : (swapRows rows c p).getD c ⟨[], []⟩ = rows.getD p ⟨[], []⟩ := by
        rw [List.getD_eq_getElem _ _ (by rw [swapRows_length]; exact hc)]
        unfold swapRows
        rw [List.getElem_set]
        split
        · rename_i hpc
          rw [hpc]
        · rw [List.getElem_set_self]
      rw [workEntry, h5] at h4
      exact h4
    · cases h

theorem ruleMatinv_ok {s u : State} (h : ruleMatinv s = .ok u) :
    matinvCheck s.kNat = none ∧ ∃ mat inv, s.matCorner s.kNat = .ok mat ∧ gfMatinv s.kNat mat = .ok inv ∧
      u = { s with mem := s.mem.writeRows (matAt 0 0) 256 inv } := by
  obtain ⟨_, h1, h⟩ := bind_ok h
  obtain ⟨mat, h2, h⟩ := bind_ok h
  obtain ⟨inv, h3, h⟩ := bind_ok h
  cases h
  exact ⟨raiseIf_ok h1, mat, inv, h2, h3, rfl⟩

theorem State.matCorner_length {s : State} {n : Nat} {mat : List (List Byte)} (h : s.matCorner n = .ok mat) :
    mat.length = n := by
  rw [collect_length h, List.length_range]

/-! ### `DECODE` -/

theorem missingOriginals_length_le (k : Nat) (idx : List Nat) : (missingOriginals k idx).length ≤ k := by
  have := List.length_filter_le (fun i => !idx.contains i) (List.range k)
  rwa [List.length_range] at this

theorem haveOriginal_length (k : Nat) (idx : List Nat) :
    (haveOriginal k idx).length + (missingOriginals k idx).length = k := by
  have h := List.length_eq_length_filter_add (l := List.range k) (fun i => idx.contains i)
  rw [List.length_range] at h
  exact h.symm

theorem selectShards_length_le (k m : Nat) (idx : List Nat) : (selectShards k m idx).length ≤ k := by
  have h := haveOriginal_length k idx
  rw [selectShards, List.length_append, List.length_take]
  omega

theorem missingOriginals_eq (k : Nat) (idx : List Nat) : missingOriginals k idx = missingOf k idx := by
  simp [missingOriginals, missingOf]

/-- Of a rising list, the first `n` elements are those with fewer than `n` smaller ones. -/
theorem mem_take_of_rising {l : List Nat} (hl : l.Pairwise (· < ·)) (n g : Nat) :
    g ∈ l.take n ↔ g ∈ l ∧ (l.filter (fun h => decide (h < g))).length < n := by
  induction l generalizing n with
  | nil => simp
  | cons x xs ih =>
    have hx : ∀ y ∈ xs, x < y := fun y hy => List.rel_of_pairwise_cons hl hy
    cases n with
    | zero => simp
    | succ n =>
      rw [List.take_succ_cons, List.mem_cons, List.mem_cons, ih (List.Pairwise.of_cons hl)]
      by_cases hg : g = x
      · subst hg
        have : xs.filter (fun h => decide (h < g)) = [] :=
          List.filter_eq_nil_iff.mpr fun y hy => by simpa using Nat.le_of_lt (hx y hy)
        simp [this]
      · by_cases hm : g ∈ xs
        · simp [hg, hm, hx g hm]
        · simp [hg, hm]

theorem haveRecovery_rising (k m : Nat) (idx : List Nat) : (haveRecovery k m idx).Pairwise (· < ·) :=
  List.Pairwise.filter _ List.pairwise_lt_range'

theorem selectShards_rising (k m : Nat) (idx : List Nat) : (selectShards k m idx).Pairwise (· < ·) := by
  refine List.pairwise_append.mpr ⟨List.Pairwise.filter _ List.pairwise_lt_range,
    (haveRecovery_rising k m idx).sublist (List.take_sublist _ _), fun a ha b hb => ?_⟩
  have h1 := List.mem_range.mp (List.mem_filter.mp ha).1
  have h2 := List.mem_range'_1.mp (List.mem_filter.mp (List.mem_of_mem_take hb)).1
  omega

/-- The selection holds exactly the selected shards (R147). -/
theorem mem_selectShards {k m : Nat} {idx : List Nat} (hd : idx.Nodup) (hr : ∀ g ∈ idx, g < k + m) (g : Nat) :
    g ∈ selectShards k m idx ↔ IsSelected k idx g := by
  have hcount : ((haveRecovery k m idx).filter (fun h => decide (h < g))).length =
      (idx.filter (fun h => decide (k ≤ h ∧ h < g))).length := by
    refine List.Perm.length_eq ((List.perm_ext_iff_of_nodup ?_ (hd.filter _)).mpr fun a => ?_)
    · exact ((haveRecovery_rising k m idx).imp Nat.ne_of_lt).filter _
    · simp only [haveRecovery, List.mem_filter, List.mem_range'_1, List.contains_iff_mem, decide_eq_true_eq]
      exact ⟨fun h => ⟨h.1.2, h.1.1.1, h.2⟩, fun h => ⟨⟨⟨h.2.1, hr a h.1⟩, h.1⟩, h.2.2⟩⟩
  rw [selectShards, List.mem_append, mem_take_of_rising (haveRecovery_rising k m idx), hcount, missingOriginals_eq, IsSelected]
  simp only [haveOriginal, haveRecovery, List.mem_filter, List.mem_range, List.mem_range'_1, List.contains_iff_mem]
  constructor
  · rintro (⟨h1, h2⟩ | ⟨⟨_, h2⟩, h3⟩)
    · exact ⟨h2, .inl h1⟩
    · exact ⟨h2, .inr h3⟩
  · rintro ⟨h1, h2⟩
    have := hr g h1
    by_cases hk : g < k
    · exact .inl ⟨hk, h1⟩
    · exact .inr ⟨⟨⟨by omega, this⟩, h1⟩, h2.resolve_left hk⟩

/-- The indices the engine reads are those the input carries (R141). -/
theorem State.presentIndices_of_carries {s : State} {idx : List Nat} (h : s.CarriesIndices idx) :
    s.presentIndices = .ok idx := by
  obtain ⟨hl, hi⟩ := h
  unfold State.presentIndices
  split
  · rename_i hm
    rw [collect_eq_map (g := fun p => idx.getD p 0)]
    · rw [← hl]
      exact congrArg _ (List.ext_getElem (by simp) fun p h1 h2 => by simp [h2])
    · intro p hp
      have hp' : p < idx.length := hl ▸ List.mem_range.mp hp
      have h1 := hi p hp'
      rw [if_pos hm] at h1
      obtain ⟨v, hv, hv'⟩ := Option.map_eq_some_iff.mp h1
      rw [State.engineHalf_ok.mpr hv, List.getD_eq_getElem _ _ hp', ← hv']
      rfl
  · rename_i hm
    refine congrArg _ (List.ext_getElem (by simp [hl]) fun p _ h2 => ?_)
    have h1 := hi p h2
    rw [if_neg hm] at h1
    simp [h1]

theorem submatrix_length {k m : Nat} {sel : List Nat} {mat : List (List Byte)} (h : submatrix k m sel = .ok mat) :
    mat.length = sel.length :=
  collect_length h

theorem ruleReconstruct_ok {idx : List Nat} {s u : State} (h : ruleReconstruct idx s = .ok u) :
    ∃ sub inv shards,
      submatrix s.kNat s.mNat (selectShards s.kNat s.mNat idx) = .ok sub ∧
      gfMatinv s.kNat sub = .ok inv ∧
      collect (s.recoveredShard inv (selectedPositions idx (selectShards s.kNat s.mNat idx)))
        (missingOriginals s.kNat idx) = .ok shards ∧
      u = s.writeRecovered (missingOriginals s.kNat idx) (selectShards s.kNat s.mNat idx) inv shards := by
  obtain ⟨sub, h1, h⟩ := bind_ok h
  obtain ⟨inv, h2, h⟩ := bind_ok h
  obtain ⟨shards, h3, h⟩ := bind_ok h
  cases h
  exact ⟨sub, inv, shards, h1, h2, h3, rfl⟩

/-- The recovered shards: one per missing original, each of `L` bytes. -/
theorem recoveredShards_size {s : State} {inv : List (List Byte)} {ps missing : List Nat} {shards : List (List Byte)}
    (h : collect (s.recoveredShard inv ps) missing = .ok shards) :
    shards.length = missing.length ∧ ∀ shard ∈ shards, shard.length = s.lNat := by
  refine ⟨collect_length h, fun shard hs => ?_⟩
  obtain ⟨i, _, hi⟩ := collect_mem h hs
  exact (State.combineShards_ok hi).1

theorem ruleDecode_ok {s u : State} (h : ruleDecode s = .ok u) :
    decodeHeaderCheck s = none ∧ ∃ idx, s.presentIndices = .ok idx ∧ decodeIndexCheck s.kNat s.mNat idx = none ∧
      ((missingOriginals s.kNat idx = [] ∧ u = s.nothingMissing) ∨
       (missingOriginals s.kNat idx ≠ [] ∧ ruleReconstruct idx s = .ok u)) := by
  obtain ⟨_, h1, h⟩ := bind_ok h
  obtain ⟨idx, h2, h⟩ := bind_ok h
  obtain ⟨_, h3, h⟩ := bind_ok h
  refine ⟨raiseIf_ok h1, idx, h2, raiseIf_ok h3, ?_⟩
  split at h
  · rename_i hm
    cases h
    exact .inl ⟨hm, rfl⟩
  · rename_i hm
    exact .inr ⟨hm, h⟩

theorem decodeHeaderCheck_none {s : State} (h : decodeHeaderCheck s = none) :
    validKm s.kNat s.mNat = true ∧ s.inLen = s.l ∧ s.countNat ≤ 256 := by
  unfold decodeHeaderCheck at h
  split at h
  · cases h
  · split at h
    · cases h
    · split at h
      · cases h
      · split at h
        · cases h
        · simp_all

theorem State.lNat_le (s : State) : s.lNat ≤ 65535 := by
  have := s.l.isLt
  unfold State.lNat
  omega

end Sys2Proof.Machine
end

