-- ==== Sys2Proof/Laws/Step.lean ====
section
/-! SUPPORT. Everything a step can do. -/

namespace Sys2Proof.Machine

/-- The memory after reset is in its canonical form. -/
theorem State.reset_canonical : State.reset.mem.wf := Memory.wf_nil

@[simp] theorem State.start_busy (s : State) (w : Word) : (s.start w).busy = true := by
  show busyBit statusStarted = true
  decide

@[simp] theorem State.takeMove_busy (s : State) : s.takeMove.busy = s.busy := rfl

@[simp] theorem State.clearResults_kNat (s : State) : s.clearResults.kNat = s.kNat := rfl

@[simp] theorem State.clearResults_mNat (s : State) : s.clearResults.mNat = s.mNat := rfl

@[simp] theorem State.clearResults_lNat (s : State) : s.clearResults.lNat = s.lNat := rfl

@[simp] theorem State.clearResults_countNat (s : State) : s.clearResults.countNat = s.countNat := rfl

/-- A busy engine whose command decodes executes it. -/
theorem State.engineTurn_of_decodes {s : State} {i : Instr} (hb : s.busy = true) (hd : decodeWord s.cmdReg = .ok i) :
    s.engineTurn = exec i s := by
  rw [State.engineTurn, if_pos hb, State.completeCommand, hd]

/-- Everything the engine's turn can have done when it answers a next state. -/
theorem State.engineTurn_next {s t : State} (h : s.engineTurn = .next t) :
    (s.busy = false ∧ t = s) ∨
    (s.busy = true ∧ ∃ i, decodeWord s.cmdReg = .ok i ∧ exec i s = .next t) ∨
    (s.busy = true ∧ (∃ e, decodeWord s.cmdReg = .error e) ∧ t = s.raised .illegalCommand) := by
  unfold State.engineTurn at h
  split at h
  · rename_i hb
    unfold State.completeCommand at h
    split at h
    · rename_i i hi
      exact .inr (.inl ⟨hb, i, hi, h⟩)
    · rename_i e he
      cases h
      exact .inr (.inr ⟨hb, ⟨e, he⟩, rfl⟩)
  · rename_i hb
    cases h
    exact .inl ⟨by simpa using hb, rfl⟩

theorem State.takeMove_of_empty {s : State} (h : s.agenda = []) : s.takeMove = s := by
  unfold State.takeMove
  rw [h, List.tail_nil, ← h]

/-- Everything a step that answers a next state can have done. -/
theorem step_next {s t : State} (h : step s = .next t) :
    s.takeMove.engineTurn = .next t ∨ (∃ a, s.takeMove.hostAccess a = .next t) ∨ t = s.takeMove.resetEvent := by
  unfold step at h
  split at h
  · rename_i ha
    exact .inl (by rwa [State.takeMove_of_empty ha])
  · rename_i e _ _
    cases e with
    | engine => exact .inl h
    | host a => exact .inr (.inl ⟨a, h⟩)
    | reset =>
      cases h
      exact .inr (.inr rfl)

/-- Everything that makes a step stop: a rejected access faults; a refusal is a busy block's access or a location without
a value. -/
theorem State.hostAccess_fault {s : State} {a : HostAccess} {f : Fault} (h : s.hostAccess a = .fault f) :
    ∃ off n, f = .rejectedAccess off n ∧ resolve off n = none := by
  cases a with
  | read off n =>
    rw [State.hostAccess, State.hostRead] at h
    split at h
    · rename_i hr
      cases h
      exact ⟨off, n, rfl, hr⟩
    · split at h <;> cases h
    · split at h <;> cases h
  | write off n v =>
    rw [State.hostAccess, State.hostWrite] at h
    split at h
    · rename_i hr
      cases h
      exact ⟨off, n, rfl, hr⟩
    · split at h <;> cases h
    · split at h <;> cases h

end Sys2Proof.Machine
end

