-- ==== Sys2Proof/Tests/Slice0.lean ====
section
/-! SUPPORT. Tests: decoding of words written out from the spec, single steps against the spec's vectors
(spec/95_test_vectors.md), refused ill-formed terms, and for every statement with hypotheses a state that meets them. -/

namespace Sys2Proof.Tests

open Machine

-- One test after the other: many kernel evaluations waiting side by side reserve more memory than the check allows.
set_option Elab.async false

/-! ### Decoding (R70, R73, R74) -/

/-- `00000000 11001010 01010011 00000001`: b = 0xCA, a = 0x53, op = 1 (R100). -/
theorem test_decode_gfadd : decodeWord 0b00000000110010100101001100000001 = .ok (.gfadd 0x53 0xCA) := by decide
/-- op = 2 (R101). -/
theorem test_decode_gfmul : decodeWord 0b00000000110010100101001100000010 = .ok (.gfmul 0x53 0xCA) := by decide
/-- op = 3 (R102). -/
theorem test_decode_gfdiv : decodeWord 0b00000000110010100101001100000011 = .ok (.gfdiv 0x53 0xCA) := by decide
/-- op = 4, row in bits 15:8, column in bits 23:16 (V29: `0x00C7_FF04` is row 255, column 199). -/
theorem test_decode_genq : decodeWord 0b00000000110001111111111100000100 = .ok (.genq 255 199) := by decide
/-- op = 5, all other bits zero (R70, V116). -/
theorem test_decode_encode : decodeWord 0b00000000000000000000000000000101 = .ok .encode := by decide
/-- op = 6. -/
theorem test_decode_matinv : decodeWord 0b00000000000000000000000000000110 = .ok .matinv := by decide
/-- op = 7. -/
theorem test_decode_decode : decodeWord 0b00000000000000000000000000000111 = .ok .decode := by decide
/-- V110, V111, V112: opcodes no row has. -/
theorem test_decode_unassigned :
    [0x00000000, 0x00000008, 0x000000FF].map decodeWord =
      [.error (.unassignedOpcode 0x00), .error (.unassignedOpcode 0x08), .error (.unassignedOpcode 0xFF)] := by decide
/-- V113, V114: a bit that must be zero is set. -/
theorem test_decode_reserved :
    [0x00000105, 0x01CA5302].map decodeWord = [.error (.reservedBitsSet 0x05), .error (.reservedBitsSet 0x02)] := by
  decide
/-- The opcode table numbers the one word as it stands. -/
theorem test_decodeTableWord : decodeTableWord 32 0x00010404 = some (.genq 4 1) := by decide
/-- No two rows of the opcode map select a word: their fixed bits differ where both fix them. -/
theorem test_rows_disjoint :
    opcodeMap.Pairwise (fun r q => r.pattern &&& (r.mask &&& q.mask) ≠ q.pattern &&& (r.mask &&& q.mask)) := by decide

/-! ### Well-formedness: each check refuses an ill-formed term -/

/-- Operands are bytes, so the check holds of every command; it is the type that refuses a ninth bit. -/
theorem test_wellFormed_operands : Instr.wellFormed (.gfmul 0xFF 0xFF) = true := by decide
/-- Size 3 is no access size (R52). -/
theorem test_wellFormed_size : HostAccess.wellFormed (.read 0x400 3) = false := by decide
/-- 0x100 does not fit one byte (R52). -/
theorem test_wellFormed_value : HostAccess.wellFormed (.write 0x10000 1 0x100) = false := by decide
/-- 0x11B is irreducible, but `0x02` does not generate its field (R8 does not list it). -/
theorem test_polyLegal_refuses : polyLegal 0x11B = false := by decide +kernel
/-- The default is legal (R7, R8): the logarithms of its 255 powers are 0 to 254. -/
theorem test_polyLegal_default : polyLegal Config.POLY = true := by
  have h : (powersFrom Config.POLY 255 0x01).map logAt = List.range 255 := by decide +kernel
  rw [polyLegal, Bool.and_eq_true, decide_eq_true_eq]
  exact ⟨by decide, List.Nodup.of_map logAt (h ▸ List.nodup_range)⟩
/-- Sequences that share an element are refused; the default's are legal (R7, R111). -/
theorem test_sequencesLegal :
    sequencesLegal (fun j => BitVec.ofNat 8 j) (fun c => BitVec.ofNat 8 c) 3 2 = false ∧
    sequencesLegal (Config.XSEQ 20 12) (Config.YSEQ 20 12) 20 12 = true := by decide +kernel

/-! ### States -/

/-- The state of an outcome that has one. -/
def after : Host.Outcome State Fault Refusal → Option State
  | .next s => some s
  | .fault _ => none
  | .refused _ => none

/-- The answer of an outcome that stops. -/
def stopOf : Host.Outcome State Fault Refusal → Option (Fault ⊕ Refusal)
  | .next _ => none
  | .fault f => some (.inl f)
  | .refused r => some (.inr r)

/-- The first two originals of the spec's scenario, then the third (T1). -/
def shardsABC : List Byte := [0x01, 0x02, 0x03, 0x04, 0x05, 0x06, 0x07, 0x08, 0x09, 0x0A, 0x0B, 0x0C]

/-- The shards C, D, E of the scenario (V80). -/
def shardsCDE : List Byte := [0x09, 0x0A, 0x0B, 0x0C, 0x71, 0xFC, 0x87, 0xFF, 0xCB, 0x78, 0xE2, 0x52]

/-- Parameters on a block that is otherwise as after reset. -/
def withParams (k m l inLen : Half) (count : Word) (mode : BitVec 1) : State :=
  { State.reset with k := k, m := m, l := l, inLen := inLen, inCount := count, inMode := mode }

/-- `MAT[0][0..)`, `MAT[1][0..)`, ... hold the rows. -/
def withMat (s : State) (rows : List (List Byte)) : State := { s with mem := s.mem.writeRows (matAt 0 0) 256 rows }

/-- `IN_IDX` and `IN_DATA` hold the indices and bytes. -/
def withInput (s : State) (idx : List Half) (data : List Byte) : State :=
  { s with mem := (s.mem.writeHalves (inIdxAt 0) idx).writeBytes (inDataAt 0 0 0) data }

/-- V40's inputs. -/
def encodeState : State := withInput (withParams 3 2 4 4 3 0) [] shardsABC

/-- V80's inputs. -/
def decodeState : State := withInput (withParams 3 2 4 4 3 1) [2, 3, 4] shardsCDE

/-- V85's inputs: a Dense input with nothing missing. -/
def completeState : State := withInput (withParams 3 2 4 4 3 0) [] shardsABC

/-! ### Single steps against the spec's vectors -/

/-- V2: the sum. -/
theorem test_gfadd : (after (exec (.gfadd 0x53 0xCA) .reset)).map (·.res) = some 0x99 := by decide +kernel
/-- V2, V8, V12 and the exponent corner: `gf_mul(8E, 8E) = 47`. -/
theorem test_gfmul :
    [(0x53, 0xCA), (0x80, 0x80), (0x57, 0x83), (0x8E, 0x8E)].map
      (fun p : Byte × Byte => (after (exec (.gfmul p.1 p.2) .reset)).map (·.res)) =
      [some 0x8F, some 0x13, some 0x31, some 0x47] := by decide +kernel
/-- V2, V6, V12: quotients. -/
theorem test_gfdiv :
    [(0x53, 0xCA), (0x01, 0xAB), (0x57, 0x83)].map
      (fun p : Byte × Byte => (after (exec (.gfdiv p.1 p.2) .reset)).map (·.res)) =
      [some 0x6D, some 0x3C, some 0x8D] := by decide +kernel
/-- V1: the zero divisor wins over the zero dividend. -/
theorem test_gfdiv_zero :
    (after (exec (.gfdiv 0x00 0x00) .reset)).map (fun t => (t.res, t.status)) = some (0x00, 0x00000702) := by
  decide +kernel
/-- V24, V29: Cauchy entries, the last row and column of (200, 56) among them. -/
theorem test_genq :
    ((after (exec (.genq 4 1) (withParams 3 2 0 0 0 0))).map (·.res),
     (after (exec (.genq 255 199) (withParams 200 56 0 0 0 0))).map (·.res)) = (some 0xA7, some 0x50) := by
  decide +kernel
/-- V25, V26, V28, V31: the errors, at their boundaries. -/
theorem test_genq_errors :
    [exec (.genq 5 0) (withParams 3 2 0 0 0 0), exec (.genq 3 3) (withParams 3 2 0 0 0 0),
     exec (.genq 0 0) (withParams 200 57 0 0 0 0), exec (.genq 0 0) (withParams 65535 65535 0 0 0 0)].map
      (fun o => (after o).map (·.status)) =
      [some 0x00000902, some 0x00000902, some 0x00000102, some 0x00000102] := by decide +kernel
/-- V40: the recovery shards D and E, and nothing past them. -/
theorem test_encode :
    (after (exec .encode encodeState)).map
      (fun t => (t.outCount, (List.range 9).map (fun a => t.mem.read (outDataAt 0 0 a)))) =
    some (2, [some 0x71, some 0xFC, some 0x87, some 0xFF, some 0xCB, some 0x78, some 0xE2, some 0x52, none]) := by
  decide +kernel
/-- V46, V47, V48, V49: the errors and their order. -/
theorem test_encode_errors :
    [withParams 3 2 4 4 2 0, withParams 3 2 4 3 3 0, withParams 3 2 4 3 2 0, withParams 0 1 4 4 0 0].map
      (fun s => (after (exec .encode s)).map (·.status)) =
      [some 0x00000202, some 0x00000302, some 0x00000202, some 0x00000102] := by decide +kernel
/-- V66: the inversion that needs row swaps. -/
theorem test_matinv :
    (after (exec .matinv (withMat (withParams 3 0 0 0 0 0)
      [[0x00, 0x00, 0x01], [0xF4, 0x8E, 0x01], [0x47, 0xA7, 0x7A]]))).map
      (fun t => (List.range 9).map (fun a => t.mem.read (matAt (a / 3) (a % 3)))) =
    some [some 0x06, some 0xD6, some 0xDA, some 0x06, some 0x6D, some 0x67, some 0x01, some 0x00, some 0x00] := by
  decide +kernel
/-- V69: the second row is `02` times the first. -/
theorem test_matinv_singular :
    (after (exec .matinv (withMat (withParams 2 0 0 0 0 0) [[0x01, 0x02], [0x02, 0x04]]))).map
      (fun t => (t.status, t.mem.read (matAt 1 1))) = some (0x00000602, some 0x04) := by decide +kernel
/-- V80: A and B recovered from C, D, E. -/
theorem test_decode :
    (after (exec .decode decodeState)).map
      (fun t => ([t.mem.readHalf (outIdxAt 1), t.mem.readHalf (selAt 2)],
        (List.range 8).map (fun a => t.mem.read (outDataAt 0 0 a)))) =
    some ([some 1, some 4],
      [some 0x01, some 0x02, some 0x03, some 0x04, some 0x05, some 0x06, some 0x07, some 0x08]) := by decide +kernel
/-- V82: the inverse left in `MAT` when a surplus recovery shard is not selected. -/
theorem test_decode_inverse :
    (after (exec .decode (withInput (withParams 3 2 4 4 4 1) [0, 4, 3, 2]
      [0x01, 0x02, 0x03, 0x04, 0xCB, 0x78, 0xE2, 0x52, 0x71, 0xFC, 0x87, 0xFF, 0x09, 0x0A, 0x0B, 0x0C]))).map
      (fun t => (List.range 9).map (fun a => t.mem.read (matAt (a / 3) (a % 3)))) =
    some [some 0x01, some 0x00, some 0x00, some 0xF5, some 0x02, some 0x02, some 0x00, some 0x01, some 0x00] := by
  decide +kernel
/-- V89, V91, V87, V93: `DuplicateIndex` before `TooFewShards`, `IndexOutOfRange` before both. -/
theorem test_decode_errors :
    [withInput (withParams 3 2 4 4 2 1) [0, 0] [], withInput (withParams 3 2 4 4 3 1) [0, 0, 9] [],
     withInput (withParams 3 2 4 4 2 1) [3, 4] [], withParams 3 2 4 4 257 1].map
      (fun s => (after (exec .decode s)).map (·.status)) =
      [some 0x00000502, some 0x00000902, some 0x00000402, some 0x00000A02] := by decide +kernel

/-- V113: an illegal word completes with `IllegalCommand`. -/
theorem test_illegal_word :
    (after (step (State.reset.withFetchWord 32 0x00000105))).map (·.status) = some 0x00000802 := by decide +kernel
/-- V120, V121: registers keep their implemented width. -/
theorem test_register_width :
    ((after (State.reset.hostAccess (.write 0x08 4 0x00010003))).map (·.k),
     (after (State.reset.hostAccess (.write 0x1C 4 0xFFFFFFFE))).map (·.inMode)) = (some 3, some 0) := by decide +kernel
/-- V125 to V132: the rejected accesses. -/
theorem test_rejected :
    [State.reset.hostAccess (.write 0x08 2 3), State.reset.hostAccess (.write 0x0A 4 3),
     State.reset.hostAccess (.read 0x30 4), State.reset.hostAccess (.write 0x401 2 7),
     State.reset.hostAccess (.write 0x400 1 7), State.reset.hostAccess (.write 0x1000000 4 0x04030201),
     State.reset.hostAccess (.read 0x1FFFF00 1)].map stopOf =
    [(0x08, 2), (0x0A, 4), (0x30, 4), (0x401, 2), (0x400, 1), (0x1000000, 4), (0x1FFFF00, 1)].map
      (fun p => some (.inl (Fault.rejectedAccess p.1 p.2))) := by decide +kernel
/-- V131: an index entry reads back. -/
theorem test_entry_reads_back :
    ((after (State.reset.hostAccess (.write 0x400 2 0x0102))).bind
      (fun s => after (s.hostAccess (.read 0x400 2)))).map (·.replies) = some [0x00000102] := by decide +kernel

/-! ### The hypotheses of the statements are met -/

/-- A block on which a command has just been started, and one that is idle. -/
def startedState (w : Word) : State := State.reset.start w

theorem witness_DecodeInvertsEncode : decodeWord 0x00CA5302 = .ok (.gfmul 0x53 0xCA) := by decide

theorem witness_IllegalWordsFailWhenRun :
    IllegalWord 0x00000000 ∧ IllegalWord 0x00000008 ∧ IllegalWord 0x00000105 ∧ IllegalWord 0x01CA5302 ∧
    ¬ IllegalWord 0x00CA5302 ∧ ¬ IllegalWord 0x00000007 ∧ State.reset.busy = false ∧
    (startedState 0x00000105).busy = true ∧ (startedState 0x00000105).engineNext = true ∧
    (startedState 0x00000105).cmdReg = 0x00000105 := by
  refine ⟨?_, ?_, ?_, ?_, ?_, ?_, ?_, ?_, ?_, ?_⟩ <;> (try unfold IllegalWord) <;> decide

theorem witness_StepRunsDecodedCommand :
    (startedState 0x00CA5302).busy = true ∧ (startedState 0x00CA5302).engineNext = true ∧
    decodeWord (startedState 0x00CA5302).cmdReg = .ok (.gfmul 0x53 0xCA) ∧
    decodeTableWord 32 0x00CA5302 = some (.gfmul 0x53 0xCA) := by decide

theorem witness_StepFollowsTheAgenda :
    State.reset.busy = false ∧ State.reset.engineNext = true ∧
    ({ State.reset with agenda := [.host (.read 0 4)] } : State).agenda = .host (.read 0 4) :: [] ∧
    ({ State.reset with agenda := [.reset] } : State).agenda = .reset :: [] := by decide

theorem witness_DivisionByZeroOnlyFromGfdiv :
    ∃ t, exec (.gfdiv 0x05 0x00) State.reset = .next t ∧ errField t.status = 7 :=
  ⟨State.reset.failedWith 0x00000702, rfl, by decide⟩

/-- Inside the matrix: an identity entry, a Cauchy entry, and the last entry of (256, 0). -/
theorem witness_GenqReadsTheMatrix :
    (1 ≤ (withParams 3 2 0 0 0 0).kNat ∧ (withParams 3 2 0 0 0 0).kNat + (withParams 3 2 0 0 0 0).mNat ≤ 256 ∧
      (2 : Byte).toNat < (withParams 3 2 0 0 0 0).kNat ∧ (withParams 3 2 0 0 0 0).kNat ≤ (4 : Byte).toNat ∧
      (4 : Byte).toNat < (withParams 3 2 0 0 0 0).kNat + (withParams 3 2 0 0 0 0).mNat) ∧
    (withParams 256 0 0 0 0 0).kNat + (withParams 256 0 0 0 0 0).mNat ≤ 256 ∧
      (255 : Byte).toNat < (withParams 256 0 0 0 0 0).kNat := by decide

theorem witness_GenqErrorsInOrder :
    (withParams 0 2 0 0 0 0).kNat = 0 ∧ 256 < (withParams 200 57 0 0 0 0).kNat + (withParams 200 57 0 0 0 0).mNat ∧
    (withParams 3 2 0 0 0 0).kNat + (withParams 3 2 0 0 0 0).mNat ≤ (5 : Byte).toNat ∧
    (withParams 3 2 0 0 0 0).kNat ≤ (3 : Byte).toNat := by decide

theorem witness_AnyRowsAreInvertible :
    1 ≤ 3 ∧ 3 + 2 ≤ 256 ∧ [2, 3, 4].length = 3 ∧ [2, 3, 4].Nodup ∧ ∀ g ∈ [2, 3, 4], g < 3 + 2 := by decide

/-- The originals of the scenario as a function of shard and byte. -/
def originals (i b : Nat) : Byte := BitVec.ofNat 8 (4 * i + b + 1)

theorem witness_EncodeMakesRecoveryShards :
    1 ≤ encodeState.kNat ∧ encodeState.kNat + encodeState.mNat ≤ 256 ∧ encodeState.countNat = encodeState.kNat ∧
    encodeState.inLen = encodeState.l ∧ encodeState.InputHolds encodeState.kNat originals := by
  refine ⟨by decide, by decide, by decide, by decide, fun p b hp hb => ?_⟩
  have h : ∀ p < 3, ∀ b < 4, encodeState.mem.read (inDataAt 4 p b) = some (originals p b) := by decide +kernel
  exact h p hp b hb

/-- Commands that answer a next state, for the frames and the other statements about one: of each command, a success; and
failures. -/
theorem witness_next_states :
    [(exec .encode encodeState), exec .matinv (withMat (withParams 1 0 0 0 0 0) [[0x02]]), exec .decode decodeState,
     exec .decode completeState, exec .encode State.reset, exec .matinv State.reset, exec .decode State.reset].map
      (fun o => (after o).map (·.status)) =
    [some 2, some 2, some 2, some 2, some 0x102, some 0x102, some 0x102] := by decide +kernel

theorem witness_MatinvInverts :
    (withMat (withParams 1 0 0 0 0 0) [[0x02]]).kNat = 1 ∧
    (withMat (withParams 1 0 0 0 0 0) [[0x02]]).MatHolds 1 (fun _ _ => 0x02) ∧
    ProductIsIdentity 1 (fun _ _ => 0x8E) (fun _ _ => 0x02) := by
  refine ⟨by decide, fun i j hi hj => ?_, fun i j hi hj => ?_⟩ <;>
  · obtain rfl : i = 0 := by omega
    obtain rfl : j = 0 := by omega
    decide +kernel

/-- V66's matrix, whose inversion swaps rows. -/
def swapState : State :=
  withMat (withParams 3 0 0 0 0 0) [[0x00, 0x00, 0x01], [0xF4, 0x8E, 0x01], [0x47, 0xA7, 0x7A]]

/-- The matrix of three rows as a function. -/
def rows3 (rows : List (List Byte)) (i j : Nat) : Byte := (rows.getD i []).getD j 0x00

theorem witness_MatinvInverts_rowSwap :
    1 ≤ swapState.kNat ∧ swapState.kNat ≤ 256 ∧
    swapState.MatHolds swapState.kNat (rows3 [[0x00, 0x00, 0x01], [0xF4, 0x8E, 0x01], [0x47, 0xA7, 0x7A]]) ∧
    ProductIsIdentity swapState.kNat (rows3 [[0x06, 0xD6, 0xDA], [0x06, 0x6D, 0x67], [0x01, 0x00, 0x00]])
      (rows3 [[0x00, 0x00, 0x01], [0xF4, 0x8E, 0x01], [0x47, 0xA7, 0x7A]]) := by
  refine ⟨by decide, by decide, fun i j hi hj => ?_, fun i j hi hj => ?_⟩
  · have h : ∀ i < 3, ∀ j < 3, swapState.mem.read (matAt i j) =
        some (rows3 [[0x00, 0x00, 0x01], [0xF4, 0x8E, 0x01], [0x47, 0xA7, 0x7A]] i j) := by decide +kernel
    exact h i hi j hj
  · have h : ∀ i < 3, ∀ j < 3, matProduct 3 (rows3 [[0x06, 0xD6, 0xDA], [0x06, 0x6D, 0x67], [0x01, 0x00, 0x00]])
        (rows3 [[0x00, 0x00, 0x01], [0xF4, 0x8E, 0x01], [0x47, 0xA7, 0x7A]]) i j =
        if i = j then 0x01 else 0x00 := by decide +kernel
    exact h i hi j hj

theorem witness_MatinvDetectsSingular :
    (withMat (withParams 1 0 0 0 0 0) [[0x00]]).kNat = 1 ∧
    (withMat (withParams 1 0 0 0 0 0) [[0x00]]).MatHolds 1 (fun _ _ => 0x00) ∧
    ¬ ∃ inv, ProductIsIdentity 1 inv (fun _ _ => 0x00) := by
  refine ⟨by decide, fun i j hi hj => ?_, fun ⟨inv, h⟩ => ?_⟩
  · obtain rfl : i = 0 := by omega
    obtain rfl : j = 0 := by omega
    decide +kernel
  · have h1 := h 0 0 (by omega) (by omega)
    rw [matProduct, xorOver] at h1
    simp [xorAll, gfMul, gfAdd] at h1

theorem witness_MatinvChecksDimension : State.reset.kNat = 0 ∧ 256 < (withParams 257 0 0 0 0 0).kNat := by decide

/-- The indices an input carries, from a finite check. -/
theorem carriesIndices_of {s : State} {idx : List Nat} (hl : idx.length = s.countNat)
    (h : (idx.mapIdx fun p g => if s.inMode = 1 then decide ((s.mem.readHalf (inIdxAt p)).map BitVec.toNat = some g)
      else decide (g = p)).all id = true) : s.CarriesIndices idx := by
  refine ⟨hl, fun p hp => ?_⟩
  have h2 := List.all_eq_true.mp h
    (if s.inMode = 1 then decide ((s.mem.readHalf (inIdxAt p)).map BitVec.toNat = some idx[p]) else decide (idx[p] = p))
    (List.mem_mapIdx.mpr ⟨p, hp, rfl⟩)
  split at h2
  · rename_i hm
    rw [if_pos hm]
    simpa using h2
  · rename_i hm
    rw [if_neg hm]
    simpa using h2

theorem decodeState_carries : decodeState.CarriesIndices [2, 3, 4] :=
  carriesIndices_of (by decide) (by decide +kernel)

theorem completeState_carries : completeState.CarriesIndices [0, 1, 2] :=
  carriesIndices_of (by decide) (by decide +kernel)

/-- V82's input, but the surplus shard (index 4, at position 1) has never been written. -/
def surplusState : State :=
  let s := withInput (withParams 3 2 4 4 4 1) [0, 4, 3, 2] [0x01, 0x02, 0x03, 0x04]
  { s with mem := s.mem.writeBytes (inDataAt 4 2 0) [0x71, 0xFC, 0x87, 0xFF, 0x09, 0x0A, 0x0B, 0x0C] }

/-- R147: it decodes all the same, and B comes back. -/
theorem test_decode_surplus_unwritten :
    surplusState.mem.read (inDataAt 4 1 0) = none ∧
    (after (exec .decode surplusState)).map
      (fun t => (t.status, t.mem.readHalf (outIdxAt 0), (List.range 4).map (fun a => t.mem.read (outDataAt 0 0 a)))) =
    some (2, some 1, [some 0x05, some 0x06, some 0x07, some 0x08]) := by decide +kernel

/-- The selection of `surplusState`, spelled out: indices 0, 3, 2, at positions 0, 2, 3. -/
theorem surplusState_selected : ∀ p, (h : p < [0, 4, 3, 2].length) →
    (IsSelected surplusState.kNat [0, 4, 3, 2] [0, 4, 3, 2][p] ↔ p ≠ 1) := by
  unfold IsSelected
  decide +kernel

theorem surplusState_holds :
    surplusState.SelectedHold [0, 4, 3, 2]
      (fun p b => codeByte surplusState.kNat originals ([0, 4, 3, 2].getD p 0) b) := by
  intro p b hp hs hb
  have h : ∀ p < 4, p ≠ 1 → ∀ b < 4,
      surplusState.mem.read (inDataAt 4 p b) = some (codeByte 3 originals ([0, 4, 3, 2].getD p 0) b) := by decide +kernel
  exact h p hp ((surplusState_selected p hp).mp hs) b hb

/-- A surplus shard that nothing has written, in an order that is not ascending. -/
theorem witness_DecodeRecoversOriginals :
    1 ≤ surplusState.kNat ∧ surplusState.kNat + surplusState.mNat ≤ 256 ∧ surplusState.inLen = surplusState.l ∧
    surplusState.CarriesIndices [0, 4, 3, 2] ∧ [0, 4, 3, 2].Nodup ∧
    (∀ g ∈ [0, 4, 3, 2], g < surplusState.kNat + surplusState.mNat) ∧ surplusState.kNat ≤ [0, 4, 3, 2].length ∧
    surplusState.SelectedHold [0, 4, 3, 2]
      (fun p b => codeByte surplusState.kNat originals ([0, 4, 3, 2].getD p 0) b) :=
  ⟨by decide, by decide, by decide, carriesIndices_of (by decide) (by decide +kernel), by decide, by decide, by decide,
    surplusState_holds⟩

/-- `decodeState` with a byte changed, so that the shards are of no one encoding. -/
def mixedState : State := { decodeState with mem := decodeState.mem.write (inDataAt 4 0 0) 0xFF }

theorem witness_DecodeReturnsInverseTimesShards :
    1 ≤ mixedState.kNat ∧ mixedState.kNat + mixedState.mNat ≤ 256 ∧ mixedState.inLen = mixedState.l ∧
    mixedState.CarriesIndices [2, 3, 4] ∧ [2, 3, 4].Nodup ∧
    (∀ g ∈ [2, 3, 4], g < mixedState.kNat + mixedState.mNat) ∧ mixedState.kNat ≤ [2, 3, 4].length ∧
    (∃ i, i < mixedState.kNat ∧ i ∉ [2, 3, 4]) ∧
    mixedState.SelectedHold [2, 3, 4]
      (fun p b => if p = 0 ∧ b = 0 then 0xFF else codeByte 3 originals ([2, 3, 4].getD p 0) b) := by
  refine ⟨by decide, by decide, by decide, carriesIndices_of (by decide) (by decide +kernel), by decide, by decide, by decide,
    ⟨0, by decide, by decide⟩, fun p b hp _ hb => ?_⟩
  have h : ∀ p < 3, ∀ b < 4, mixedState.mem.read (inDataAt 4 p b) =
      some (if p = 0 ∧ b = 0 then 0xFF else codeByte 3 originals ([2, 3, 4].getD p 0) b) := by decide +kernel
  exact h p hp b hb

theorem witness_DecodeWithNothingMissing :
    1 ≤ completeState.kNat ∧ completeState.kNat + completeState.mNat ≤ 256 ∧ completeState.inLen = completeState.l ∧
    completeState.CarriesIndices [0, 1, 2] ∧ [0, 1, 2].Nodup ∧
    (∀ g ∈ [0, 1, 2], g < completeState.kNat + completeState.mNat) ∧ ∀ i < completeState.kNat, i ∈ [0, 1, 2] :=
  ⟨by decide, by decide, by decide, completeState_carries, by decide, by decide, by decide⟩

/-- V90 and V88's indices: one out of range, one repeated; and a Sparse input without a written index, whose header check
fails (any list then meets the premise). -/
theorem witness_DecodeErrorsInOrder :
    (withParams 0 2 4 4 3 1).kNat = 0 ∧ (withParams 0 2 4 4 3 1).mem.readHalf (inIdxAt 0) = none ∧
    (withParams 3 2 4 3 3 1).inLen ≠ (withParams 3 2 4 3 3 1).l ∧
    256 < (withParams 3 2 4 4 257 1).countNat ∧
    (withInput (withParams 3 2 4 4 3 1) [2, 3, 5] []).CarriesIndices [2, 3, 5] ∧
    (withInput (withParams 3 2 4 4 3 1) [2, 2, 3] []).CarriesIndices [2, 2, 3] ∧
    (withInput (withParams 3 2 4 4 2 1) [3, 4] []).CarriesIndices [3, 4] :=
  ⟨by decide, by decide, by decide, by decide, carriesIndices_of (by decide) (by decide +kernel),
   carriesIndices_of (by decide) (by decide +kernel), carriesIndices_of (by decide) (by decide +kernel)⟩

theorem witness_DecodeLeavesSelectionAndInverse :
    decodeState.CarriesIndices [2, 3, 4] ∧ (∃ i, i < decodeState.kNat ∧ i ∉ [2, 3, 4]) ∧
    (after (exec .decode decodeState)).map (·.status) = some 0x00000002 :=
  ⟨decodeState_carries, ⟨0, by decide, by decide⟩, by decide +kernel⟩

/-- The state on a block that holds other results, another word, and another byte just past the valid regions of its input
and of its `3 × 3` corner. -/
def otherBlock (s : State) : State :=
  { s with res := 0x55, outCount := 9, cmdReg := 0x12345678
           mem := (s.mem.write (inDataAt 0 0 12) 0xEE).write (matAt 0 3) 0xEE }

theorem otherBlock_sameInputs {i : Instr} {s : State} (hk : s.kNat = 3) (hn : s.inCount.toNat * s.inLen.toNat ≤ 12) :
    SameInputs i s (otherBlock s) := by
  refine ⟨⟨rfl, rfl, rfl, rfl, rfl, rfl⟩, fun a ha => ?_, fun _ a ha => ?_⟩ <;>
    (show ((s.mem.write (inDataAt 0 0 12) 0xEE).write (matAt 0 3) 0xEE).read a = s.mem.read a)
  · have hne : a ≠ matAt 0 3 ∧ a ≠ inDataAt 0 0 12 := by
      rcases ha with ha | ha
      · simp only [State.inDataValid, Buffer.region, Buffer.base, matAt, inDataAt] at ha ⊢
        omega
      · have h2 := ha.2
        simp only [Buffer.region, Buffer.base, Buffer.size, Buffer.elemBytes, Buffer.count, matAt, inDataAt] at h2 ⊢
        omega
    rw [Memory.read_write_other _ _ hne.1, Memory.read_write_other _ _ hne.2]
  · obtain ⟨i, j, hi, hj, rfl⟩ := ha
    rw [hk] at hi hj
    have hne : matAt i j ≠ matAt 0 3 ∧ matAt i j ≠ inDataAt 0 0 12 := by
      simp only [Buffer.base, matAt, inDataAt]
      omega
    rw [Memory.read_write_other _ _ hne.1, Memory.read_write_other _ _ hne.2]

theorem witness_ResultsDependOnInputsOnly :
    SameInputs .encode encodeState (otherBlock encodeState) ∧ (after (exec .encode encodeState)).isSome ∧
    SameInputs .decode decodeState (otherBlock decodeState) ∧ (after (exec .decode decodeState)).isSome ∧
    SameInputs .matinv swapState (otherBlock swapState) ∧ (after (exec .matinv swapState)).isSome :=
  ⟨otherBlock_sameInputs (by decide) (by decide), by decide +kernel, otherBlock_sameInputs (by decide) (by decide),
   by decide +kernel, otherBlock_sameInputs (by decide) (by decide), by decide +kernel⟩

/-- A missing original, an unwritten corner of `MAT`, an unwritten index. -/
theorem witness_UnwrittenInputIsRefused :
    (withParams 3 2 4 4 3 0).mem.read (inDataAt 4 0 0) = none ∧ 1 ≤ (withParams 3 2 4 4 3 0).mNat ∧
    (withParams 3 2 4 4 3 0).countNat = (withParams 3 2 4 4 3 0).kNat ∧
    (withParams 1 0 0 0 0 0).mem.read (matAt 0 0) = none ∧ (withParams 1 0 0 0 0 0).kNat = 1 ∧
    (withParams 3 2 4 4 3 1).mem.readHalf (inIdxAt 2) = none ∧ (withParams 3 2 4 4 3 1).inMode = 1 := by decide

/-- Indices without a data byte: the selected shard at position 0 has none. -/
theorem witness_UnwrittenInputIsRefused_selected :
    (withInput (withParams 3 2 4 4 3 1) [2, 3, 4] []).CarriesIndices [2, 3, 4] ∧
    IsSelected (withInput (withParams 3 2 4 4 3 1) [2, 3, 4] []).kNat [2, 3, 4] [2, 3, 4][0] ∧
    0 < (withInput (withParams 3 2 4 4 3 1) [2, 3, 4] []).lNat ∧
    (withInput (withParams 3 2 4 4 3 1) [2, 3, 4] []).mem.read (inDataAt 4 0 0) = none ∧
    stopOf (exec .decode (withInput (withParams 3 2 4 4 3 1) [2, 3, 4] [])) =
      some (.inr (.unwrittenRead (inDataAt 4 0 0))) := by
  refine ⟨carriesIndices_of (by decide) (by decide +kernel), ?_, by decide, by decide +kernel, by decide +kernel⟩
  unfold IsSelected
  decide +kernel

theorem witness_BusyEngineCompletes :
    (startedState 0x00000006).busy = true ∧ (startedState 0x00000006).engineNext = true := by decide

/-- A started command on an otherwise empty block meets the invariant, and its step answers a next state. -/
theorem witness_StepKeepsInv :
    (startedState 0x00CA5302).Inv ∧ (after (step (startedState 0x00CA5302))).isSome := by
  refine ⟨⟨.inr (.inl rfl), Memory.wf_nil, fun c hc => absurd hc (List.not_mem_nil), ?_, ?_, ?_, ?_⟩, by decide +kernel⟩
  · intro b _ _ p _
    exact Iff.rfl
  · intro _
    exact ⟨rfl, rfl, rfl, rfl⟩
  · intro a ha
    exact absurd ha (by simp [startedState, State.reset])
  · intro h
    exact absurd h (by simp [startedState, State.reset])

theorem witness_ResetEventClearsTheBlock :
    ({ startedState 0x00000005 with agenda := [.reset] } : State).agenda = .reset :: [] ∧
    ({ startedState 0x00000005 with agenda := [.reset] } : State).busy = true := by decide

theorem witness_idle_and_busy : State.reset.busy = false ∧ (startedState 0x00000001).busy = true ∧
    (startedState 0x00000001).status = 0x00000001 ∧ State.reset.agenda = [] := by decide

/-- Performed and rejected accesses where the rows meet: the last of a row and the first past it. -/
theorem witness_PerformedAccess :
    PerformedAccess 0x2C 4 ∧ ¬ PerformedAccess 0x30 4 ∧ PerformedAccess 0x200 2 ∧ PerformedAccess 0x7FE 2 ∧
    ¬ PerformedAccess 0x800 2 ∧ PerformedAccess 0x10000 1 ∧ PerformedAccess 0x1FFFF 1 ∧ ¬ PerformedAccess 0x20000 1 ∧
    PerformedAccess 0x1FFFEFF 1 ∧ ¬ PerformedAccess 0x1FFFF00 1 ∧ PerformedAccess 0x2FFFEFF 1 ∧
    ¬ PerformedAccess 0x2FFFF00 1 := by
  refine ⟨?_, ?_, ?_, ?_, ?_, ?_, ?_, ?_, ?_, ?_, ?_, ?_⟩ <;> unfold PerformedAccess <;> omega

/-- After V80's `DECODE` an entry or byte of every buffer holds a value; `OUT_IDX` holds 1 at its second entry. -/
theorem witness_ElementReadDelivers :
    (after (exec .decode decodeState)).map (fun t => (t.busy,
      [t.mem.readHalf (Buffer.base .sel + 2 * 2), t.mem.readHalf (Buffer.base .inIdx + 2 * 0),
        t.mem.readHalf (Buffer.base .outIdx + 2 * 1)],
      [t.mem.read (Buffer.base .mat + 0), t.mem.read (Buffer.base .inData + 11), t.mem.read (Buffer.base .outData + 7)])) =
    some (false, [some 4, some 2, some 1], [some 0x06, some 0x52, some 0x08]) := by decide +kernel

/-- Unwritten elements: the first and last of buffers, and an entry of which only the low byte holds a value. -/
theorem witness_UnwrittenHostReadIsFree :
    State.reset.busy = false ∧ State.reset.mem.read (Buffer.base .outIdx + 2 * 255) = none ∧
    Memory.read [(0x400, 0x07)] (Buffer.base .inIdx + 2 * 0 + 1) = none ∧
    State.reset.mem.read (Buffer.base .mat + 0) = none ∧
    State.reset.mem.read (Buffer.base .outData + (Buffer.size .outData - 1)) = none := by decide

end Sys2Proof.Tests
end

section
/-! PROOF. The step, by the head of the agenda (R14, R62, R76). -/

namespace Sys2Proof.Machine

/-- On a move of the engine, and on an empty agenda, the step is the engine's turn with that move taken. -/
theorem step_of_engineNext {s : State} (h : s.engineNext = true) : step s = s.takeMove.engineTurn := by
  cases ha : s.agenda with
  | nil => rw [step, ha, State.takeMove_of_empty ha]
  | cons e rest =>
    cases e with
    | engine =>
      rw [step, ha]
      rfl
    | host a => simp [State.engineNext, ha] at h
    | reset => simp [State.engineNext, ha] at h

/-- The head of the agenda is taken off and carried out. -/
theorem step_of_agenda {s : State} {e : Event} {rest : List Event} (h : s.agenda = e :: rest) :
    step s = ({ s with agenda := rest } : State).move e := by
  rw [step, h, State.takeMove, h, List.tail_cons]

theorem State.engineTurn_of_idle {s : State} (h : s.busy = false) : s.engineTurn = .next s := by
  rw [State.engineTurn, h, if_neg Bool.false_ne_true]

/-- Settles O5: an idle engine's turn leaves the block alone; the other two heads of the agenda are carried out by
`State.move`. -/
theorem stepFollowsTheAgenda : Obligations.StepFollowsTheAgenda := by
  intro s
  refine ⟨fun hidle hnext => ?_, fun a rest ha => step_of_agenda ha, fun rest ha => step_of_agenda ha⟩
  rw [step_of_engineNext hnext]
  exact State.engineTurn_of_idle (s.takeMove_busy.trans hidle)

end Sys2Proof.Machine
end

section
/-! PROOF. The reduction polynomials (spec/00_scope.md R7, R8): the powers of `0x02` are distinct exactly when the
polynomial is odd and the walk along them does not come back early. -/

namespace Sys2Proof.Machine

/-- The construction loop runs through the iterates of multiplication by `0x02`. -/
theorem powersFrom_eq_iterate (poly : BitVec 9) (n : Nat) (x : Byte) :
    powersFrom poly n x = List.iterate (timesAlpha poly) x n := by
  induction n generalizing x with
  | zero => rfl
  | succ n ih => rw [powersFrom, ih, List.iterate]

/-- Bit `i` of the multiple: the shifted bit, plus the polynomial's bit where bit 7 was shifted out. -/
theorem getLsbD_timesAlpha (poly : BitVec 9) (x : Byte) {i : Nat} (hi : i < 8) :
    (timesAlpha poly x).getLsbD i = ((x.setWidth 9 <<< 1).getLsbD i ^^ (x.getLsbD 7 && poly.getLsbD i)) := by
  have hcarry : (x.setWidth 9 <<< 1).getLsbD 8 = x.getLsbD 7 := by simp
  rw [timesAlpha, hcarry, BitVec.getLsbD_setWidth, decide_eq_true hi, Bool.true_and]
  cases x.getLsbD 7 <;> simp

theorem getLsbD_timesAlpha_zero (poly : BitVec 9) (x : Byte) :
    (timesAlpha poly x).getLsbD 0 = (x.getLsbD 7 && poly.getLsbD 0) := by
  rw [getLsbD_timesAlpha poly x (by decide), BitVec.getLsbD_shiftLeft]
  simp

theorem getLsbD_timesAlpha_succ (poly : BitVec 9) (x : Byte) {i : Nat} (hi : i < 7) :
    (timesAlpha poly x).getLsbD (i + 1) = (x.getLsbD i ^^ (x.getLsbD 7 && poly.getLsbD (i + 1))) := by
  have hshift : (x.setWidth 9 <<< 1).getLsbD (i + 1) = x.getLsbD i := by
    rw [BitVec.getLsbD_shiftLeft, BitVec.getLsbD_setWidth, decide_eq_true (show i + 1 < 9 by omega)]
    simp [show i < 9 by omega]
  rw [getLsbD_timesAlpha poly x (by omega), hshift]

/-- Bit 0 of the multiple tells bit 7 of the byte, and with it every other bit. -/
theorem timesAlpha_injective {poly : BitVec 9} (h0 : poly.getLsbD 0 = true) : Function.Injective (timesAlpha poly) := by
  intro x y hxy
  have h7 : x.getLsbD 7 = y.getLsbD 7 := by
    have h := congrArg (·.getLsbD 0) hxy
    simpa only [getLsbD_timesAlpha_zero, h0, Bool.and_true] using h
  refine BitVec.eq_of_getLsbD_eq fun i hi => ?_
  rcases Nat.lt_or_eq_of_le (Nat.le_of_lt_succ hi) with hi7 | rfl
  · have h := congrArg (·.getLsbD (i + 1)) hxy
    simpa only [getLsbD_timesAlpha_succ poly _ hi7, h7, Bool.xor_right_inj, Bool.xor_left_inj] using h
  · exact h7

/-- With an even polynomial every multiple is even: too few elements for 254 distinct powers. -/
theorem bit_zero_of_nodup {poly : BitVec 9} (h : (powersFrom poly 255 0x01).Nodup) : poly.getLsbD 0 = true := by
  by_contra h0
  rw [Bool.not_eq_true] at h0
  have htail : (powersFrom poly 254 (timesAlpha poly 0x01)).Nodup := (List.nodup_cons.mp h).2
  have heven : (powersFrom poly 254 (timesAlpha poly 0x01)).toFinset ⊆
      Finset.univ.filter (fun x : Byte => x.getLsbD 0 = false) := by
    intro x hx
    rw [List.mem_toFinset, powersFrom_eq_iterate, List.mem_iterate] at hx
    obtain ⟨n, _, rfl⟩ := hx
    rw [← Function.iterate_succ_apply, Function.iterate_succ_apply', Finset.mem_filter]
    exact ⟨Finset.mem_univ _, by rw [getLsbD_timesAlpha_zero, h0, Bool.and_false]⟩
  have hcard := Finset.card_le_card heven
  rw [List.toFinset_card_of_nodup htail, powersFrom_eq_iterate, List.length_iterate] at hcard
  have heighth : (Finset.univ.filter (fun x : Byte => x.getLsbD 0 = false)).card = 128 := by decide +kernel
  omega

/-- Iterates of an injective function that do not come back to the start are distinct. -/
theorem nodup_iterate_of_no_return {α : Type} {f : α → α} (hf : Function.Injective f) {x : α} {n : Nat}
    (h : x ∉ List.iterate f (f x) n) : (List.iterate f x (n + 1)).Nodup := by
  refine List.pairwise_iff_getElem.mpr fun i j hi hj hij heq => h ?_
  rw [List.getElem_iterate, List.getElem_iterate] at heq
  rw [List.length_iterate] at hj
  refine List.mem_iterate.mpr ⟨j - i - 1, by omega, ?_⟩
  rw [← Function.iterate_succ_apply, show (j - i - 1).succ = j - i by omega]
  exact (Function.iterate_cancel hf heq.symm).symm

/-- A polynomial is legal when it is odd, of degree 8, and no power of `0x02` before the 255th is `0x01` (R7). -/
theorem polyLegal_iff (poly : BitVec 9) : polyLegal poly = true ↔
    poly.getLsbD 8 = true ∧ poly.getLsbD 0 = true ∧ 0x01 ∉ powersFrom poly 254 (timesAlpha poly 0x01) := by
  rw [polyLegal, Bool.and_eq_true, decide_eq_true_eq]
  refine and_congr_right fun _ => ⟨fun h => ⟨bit_zero_of_nodup h, (List.nodup_cons.mp h).1⟩, fun ⟨h0, h1⟩ => ?_⟩
  rw [powersFrom_eq_iterate] at h1 ⊢
  exact nodup_iterate_of_no_return (timesAlpha_injective h0) h1

/-! ### The walk on numbers, which the kernel computes fast -/

/-- `timesAlpha` on the numbers of the polynomial and the byte. -/
def timesAlphaNat (poly x : Nat) : Nat := (bif Nat.blt x 128 then 2 * x else (2 * x) ^^^ poly) % 256

theorem toNat_timesAlpha (poly : BitVec 9) (x : Byte) :
    (timesAlpha poly x).toNat = timesAlphaNat poly.toNat x.toNat := by
  have hx : x.toNat < 256 := x.isLt
  have hshift : (x.setWidth 9 <<< 1).toNat = 2 * x.toNat := by
    simp [Nat.shiftLeft_eq]
    omega
  have hcarry : (x.setWidth 9 <<< 1).getLsbD 8 = !Nat.blt x.toNat 128 := by
    have hmsb : (x.setWidth 9 <<< 1).getLsbD 8 = x.msb := by simp [BitVec.msb_eq_getLsbD_last]
    rw [hmsb, BitVec.msb_eq_decide, Bool.eq_iff_iff]
    simp [← Bool.not_eq_true, Nat.blt_eq]
  rw [timesAlpha, hcarry, timesAlphaNat, BitVec.toNat_setWidth]
  cases Nat.blt x.toNat 128 <;> simp [hshift]

/-- Does the walk from `x` meet 1 within `n` values? -/
def meetsOne (poly : Nat) : Nat → Nat → Bool
  | 0, _ => false
  | n + 1, x => Nat.beq x 1 || meetsOne poly n (timesAlphaNat poly x)

theorem one_mem_powersFrom (poly : BitVec 9) (n : Nat) (x : Byte) :
    0x01 ∈ powersFrom poly n x ↔ meetsOne poly.toNat n x.toNat = true := by
  induction n generalizing x with
  | zero => simp [powersFrom, meetsOne]
  | succ n ih =>
    have hone : (0x01 : Byte) = x ↔ Nat.beq x.toNat 1 = true := by
      rw [Nat.beq_eq, BitVec.toNat_eq, eq_comm]
      rfl
    rw [powersFrom, List.mem_cons, ih, toNat_timesAlpha, meetsOne, Bool.or_eq_true, hone]

/-- Settles O13: `polyLegal_iff` leaves one walk along the powers for each odd polynomial, until 1 returns. -/
theorem legalPolynomialsAreTheSixteen : Obligations.LegalPolynomialsAreTheSixteen := by
  intro poly
  rw [polyLegal_iff, one_mem_powersFrom, toNat_timesAlpha,
    ← List.mem_map_of_injective BitVec.toNat_injective]
  simp only [← BitVec.testBit_toNat, List.map_cons, List.map_nil, BitVec.reduceToNat]
  have hlt : poly.toNat < 512 := poly.isLt
  revert hlt
  generalize poly.toNat = p
  revert p
  decide +kernel

end Sys2Proof.Machine
end

section
/-! PROOF. Noninterference (R15, R33): two states that give a command the same inputs get the same outputs from it. -/

namespace Sys2Proof.Machine

/-! ### The same writes on two memories -/

theorem Memory.read_writeBytes_congr {m₁ m₂ : Memory} {a' : Nat} (h : m₂.read a' = m₁.read a') (a : Nat)
    (vs : List Byte) : (m₂.writeBytes a vs).read a' = (m₁.writeBytes a vs).read a' := by
  rw [Memory.read_writeBytes, Memory.read_writeBytes, h]

theorem Memory.read_writeHalves_congr {m₁ m₂ : Memory} {a' : Nat} (h : m₂.read a' = m₁.read a') (a : Nat)
    (vs : List Half) : (m₂.writeHalves a vs).read a' = (m₁.writeHalves a vs).read a' :=
  Memory.read_writeBytes_congr h a _

theorem Memory.read_writeRows_congr {m₁ m₂ : Memory} {a' : Nat} (h : m₂.read a' = m₁.read a') (a stride : Nat)
    (rows : List (List Byte)) : (m₂.writeRows a stride rows).read a' = (m₁.writeRows a stride rows).read a' := by
  induction rows generalizing m₁ m₂ a with
  | nil => exact h
  | cons row rows ih => exact ih (Memory.read_writeBytes_congr h a row) (a + stride)

/-- Rows as long as their stride fill their range, so a read there does not see the memory before. -/
theorem Memory.read_writeRows_filled (m₁ m₂ : Memory) (a stride : Nat) {rows : List (List Byte)}
    (hrow : ∀ row ∈ rows, row.length = stride) {d : Nat} (hd : d < rows.length * stride) :
    (m₂.writeRows a stride rows).read (a + d) = (m₁.writeRows a stride rows).read (a + d) := by
  have hi : d / stride < rows.length := Nat.div_lt_of_lt_mul (Nat.mul_comm _ _ ▸ hd)
  have hj : d % stride < rows[d / stride].length := by
    rw [hrow _ (List.getElem_mem hi)]
    exact Nat.mod_lt _ (Nat.pos_of_ne_zero fun h => by simp [h] at hd)
  have hle : ∀ row ∈ rows, row.length ≤ stride := fun row hr => (hrow row hr).le
  rw [← Nat.div_add_mod d stride, ← Nat.add_assoc, Memory.read_writeRows_inside _ _ _ _ hle hi hj,
    Memory.read_writeRows_inside _ _ _ _ hle hi hj]

/-- Stored 16-bit entries fill their range likewise. -/
theorem Memory.read_writeHalves_filled (m₁ m₂ : Memory) (a : Nat) {vs : List Half} {a' : Nat} (hlo : a ≤ a')
    (hhi : a' < a + 2 * vs.length) : (m₂.writeHalves a vs).read a' = (m₁.writeHalves a vs).read a' := by
  have hin : a ≤ a' ∧ a' < a + (vs.flatMap halfBytes).length := by rw [halves_length]; exact ⟨hlo, hhi⟩
  rw [Memory.writeHalves, Memory.writeHalves, Memory.read_writeBytes, Memory.read_writeBytes, if_pos hin, if_pos hin]

theorem outDataAt_zero (l : Nat) : outDataAt l 0 0 = Buffer.base .outData := by
  simp [outDataAt]

/-- The output shards of a command, `L` bytes each, read alike whatever `OUT_DATA` held before. -/
theorem Memory.read_outShards (m₁ m₂ : Memory) {l : Nat} {shards : List (List Byte)}
    (hrow : ∀ shard ∈ shards, shard.length = l) {a : Nat} (ha : a < shards.length * l) :
    (m₂.writeRows (outDataAt l 0 0) l shards).read (Buffer.base .outData + a) =
      (m₁.writeRows (outDataAt l 0 0) l shards).read (Buffer.base .outData + a) := by
  rw [outDataAt_zero]
  exact Memory.read_writeRows_filled m₁ m₂ _ _ hrow ha

theorem Memory.readHalf_congr {m₁ m₂ : Memory} {a : Nat} (h0 : m₂.read a = m₁.read a)
    (h1 : m₂.read (a + 1) = m₁.read (a + 1)) : m₂.readHalf a = m₁.readHalf a := by
  rw [Memory.readHalf, Memory.readHalf, h0, h1]

/-! ### What the two states share -/

/-- What R15 fixes of a command's outcome: the result registers, the output valid region (R33) and, for `MATINV`, the corner
of `MAT`. -/
structure SameOutput (i : Instr) (k : Nat) (u₁ u₂ : State) : Prop where
  res : u₂.res = u₁.res
  outLen : u₂.outLen = u₁.outLen
  outCount : u₂.outCount = u₁.outCount
  outMode : u₂.outMode = u₁.outMode
  outData : ∀ a, a < u₁.outCount.toNat * u₁.outLen.toNat →
    u₂.mem.read (Buffer.base .outData + a) = u₁.mem.read (Buffer.base .outData + a)
  outIdx : u₁.outMode = 1 → ∀ a, outIdxAt 0 ≤ a → a < outIdxAt u₁.outCount.toNat → u₂.mem.read a = u₁.mem.read a
  corner : i = .matinv → ∀ a, matCornerRegion k a → u₂.mem.read a = u₁.mem.read a

theorem SameOutput.readHalf_outIdx {i : Instr} {k : Nat} {u₁ u₂ : State} (ho : SameOutput i k u₁ u₂)
    (hmode : u₁.outMode = 1) {q : Nat} (hq : q < u₁.outCount.toNat) :
    u₂.mem.readHalf (outIdxAt q) = u₁.mem.readHalf (outIdxAt q) := by
  refine Memory.readHalf_congr (ho.outIdx hmode _ ?_ ?_) (ho.outIdx hmode _ ?_ ?_) <;> unfold outIdxAt <;> omega

/-- Writing one value to `RES` of both states keeps their outputs alike; so does writing one word to `STATUS`. -/
theorem SameOutput.setRes {i : Instr} {k : Nat} {u₁ u₂ : State} (ho : SameOutput i k u₁ u₂) (v : Byte) :
    SameOutput i k { u₁ with res := v } { u₂ with res := v } :=
  ⟨rfl, ho.outLen, ho.outCount, ho.outMode, ho.outData, ho.outIdx, ho.corner⟩

theorem SameOutput.setStatus {i : Instr} {k : Nat} {u₁ u₂ : State} (ho : SameOutput i k u₁ u₂) (w : Word) :
    SameOutput i k { u₁ with status := w } { u₂ with status := w } :=
  ⟨ho.res, ho.outLen, ho.outCount, ho.outMode, ho.outData, ho.outIdx, ho.corner⟩

/-- Two rules end alike: both succeed, in related states, or both stop for the same reason. -/
def EndsAlike (R : State → State → Prop) : Except Stop State → Except Stop State → Prop
  | .ok u₁, .ok u₂ => R u₁ u₂
  | .error x, .error y => y = x
  | _, _ => False

section EndsAlike

variable {R : State → State → Prop}

/-- Equal first parts end alike if what follows a success does. -/
theorem EndsAlike.bind {α : Type} {x y : Except Stop α} {f g : α → Except Stop State} (hxy : y = x)
    (hfg : ∀ a, x = .ok a → EndsAlike R (f a) (g a)) : EndsAlike R (x >>= f) (y >>= g) := by
  subst hxy
  cases y with
  | error e => exact rfl
  | ok a => exact hfg a rfl

theorem EndsAlike.of_ok {x y : Except Stop State} {u₁ : State} (h : EndsAlike R x y) (hx : x = .ok u₁) :
    ∃ u₂, y = .ok u₂ ∧ R u₁ u₂ := by
  subst hx
  cases y with
  | error e => exact h.elim
  | ok u₂ => exact ⟨u₂, rfl, h⟩

theorem EndsAlike.of_error {x y : Except Stop State} {e : Stop} (h : EndsAlike R x y) (hx : x = .error e) :
    y = .error e := by
  subst hx
  cases y with
  | error e' => exact congrArg _ h
  | ok u₂ => exact h.elim

end EndsAlike

/-! ### What a rule computes from its inputs -/

theorem State.engineByte_congr {s t : State} {a : Nat} (h : t.mem.read a = s.mem.read a) :
    t.engineByte a = s.engineByte a := by
  rw [State.engineByte, State.engineByte, h]

theorem State.engineHalf_congr {s t : State} {a : Nat} (h : t.mem.readHalf a = s.mem.readHalf a) :
    t.engineHalf a = s.engineHalf a := by
  rw [State.engineHalf, State.engineHalf, h]

section SameInputs

variable {i : Instr} {s t : State} (h : SameInputs i s t)
include h

theorem SameInputs.params : s.SameParams t := h.1

theorem SameInputs.kNat : t.kNat = s.kNat := by
  obtain ⟨hk, -⟩ := h.params
  exact congrArg BitVec.toNat hk

theorem SameInputs.mNat : t.mNat = s.mNat := by
  obtain ⟨-, hm, -⟩ := h.params
  exact congrArg BitVec.toNat hm

theorem SameInputs.l : t.l = s.l := by
  obtain ⟨-, -, hl, -⟩ := h.params
  exact hl

theorem SameInputs.lNat : t.lNat = s.lNat := congrArg BitVec.toNat h.l

theorem SameInputs.countNat : t.countNat = s.countNat := by
  obtain ⟨-, -, -, -, hc, -⟩ := h.params
  exact congrArg BitVec.toNat hc

theorem SameInputs.encodeCheck_eq : encodeCheck t = encodeCheck s := by
  obtain ⟨-, -, hl, hlen, -⟩ := h.params
  simp only [encodeCheck, h.kNat, h.mNat, h.lNat, h.countNat, hl, hlen]

theorem SameInputs.decodeHeaderCheck_eq : decodeHeaderCheck t = decodeHeaderCheck s := by
  obtain ⟨-, -, hl, hlen, -⟩ := h.params
  simp only [decodeHeaderCheck, h.kNat, h.mNat, h.lNat, h.countNat, hl, hlen]

/-- The bytes of the input shards lie in the input valid region of `IN_DATA`, once `IN_LEN = L` is checked (R33, R60). -/
theorem SameInputs.read_inData (hlen : s.inLen = s.l) (hcount : s.countNat ≤ 256) {p b : Nat} (hp : p < s.countNat)
    (hb : b < s.lNat) : t.mem.read (inDataAt s.lNat p b) = s.mem.read (inDataAt s.lNat p b) := by
  have hshard : p * s.lNat + b < s.countNat * s.lNat :=
    calc p * s.lNat + b < (p + 1) * s.lNat := by rw [Nat.succ_mul]; omega
      _ ≤ s.countNat * s.lNat := Nat.mul_le_mul_right _ hp
  have hsize : s.countNat * s.lNat ≤ Buffer.size .inData :=
    calc s.countNat * s.lNat ≤ 256 * 65535 := Nat.mul_le_mul hcount s.lNat_le
      _ = Buffer.size .inData := rfl
  have hvalid : s.inDataValid (inDataAt s.lNat p b) := by
    rw [State.inDataValid, hlen]
    show Buffer.region .inData 0 (min (s.countNat * s.lNat) _) _
    rw [Nat.min_eq_left hsize, Buffer.region, inDataAt]
    omega
  obtain ⟨-, hmem, -⟩ := h
  exact hmem _ (.inl hvalid)

/-- The entries of the input indices lie in the input valid region of `IN_IDX` (R33). -/
theorem SameInputs.readHalf_inIdx (hmode : s.inMode = 1) (hcount : s.countNat ≤ 256) {p : Nat} (hp : p < s.countNat) :
    t.mem.readHalf (inIdxAt p) = s.mem.readHalf (inIdxAt p) := by
  have hvalid : ∀ d, d < 2 → s.inIdxValid (inIdxAt p + d) := fun d hd => by
    have hsize : 2 * s.countNat ≤ Buffer.size .inIdx :=
      calc 2 * s.countNat ≤ 2 * 256 := Nat.mul_le_mul_left 2 hcount
        _ = Buffer.size .inIdx := rfl
    refine ⟨hmode, ?_⟩
    show Buffer.region .inIdx 0 (min (2 * s.countNat) _) _
    rw [Nat.min_eq_left hsize, Buffer.region, inIdxAt]
    omega
  obtain ⟨-, hmem, -⟩ := h
  exact Memory.readHalf_congr (hmem _ (.inr (hvalid 0 (by omega)))) (hmem _ (.inr (hvalid 1 (by omega))))

theorem SameInputs.combineShards_eq (hlen : s.inLen = s.l) (hcount : s.countNat ≤ 256) {ps : List Nat}
    (hps : ∀ p ∈ ps, p < s.countNat) (row : List Byte) : t.combineShards row ps = s.combineShards row ps := by
  rw [State.combineShards, State.combineShards, h.lNat]
  refine collect_congr fun b hb => ?_
  have hcol : t.inColumn ps b = s.inColumn ps b := collect_congr fun p hp => by
    rw [h.lNat]
    exact State.engineByte_congr (h.read_inData hlen hcount (hps p hp) (List.mem_range.mp hb))
  rw [hcol]

theorem SameInputs.presentIndices_eq (hcount : s.countNat ≤ 256) : t.presentIndices = s.presentIndices := by
  obtain ⟨-, -, -, -, -, hmode⟩ := h.params
  rw [State.presentIndices, State.presentIndices, hmode, h.countNat]
  split
  · rename_i hsparse
    refine collect_congr fun p hp => ?_
    rw [State.engineHalf_congr (h.readHalf_inIdx hsparse hcount (List.mem_range.mp hp))]
  · rfl

end SameInputs

theorem SameInputs.matCorner_eq {s t : State} (h : SameInputs .matinv s t) : t.matCorner s.kNat = s.matCorner s.kNat := by
  obtain ⟨-, -, hcorner⟩ := h
  exact collect_congr fun i hi => collect_congr fun j hj =>
    State.engineByte_congr (hcorner rfl _ ⟨i, j, List.mem_range.mp hi, List.mem_range.mp hj, rfl⟩)

theorem State.presentIndices_length {s : State} {idx : List Nat} (h : s.presentIndices = .ok idx) :
    idx.length = s.countNat := by
  unfold State.presentIndices at h
  split at h
  · rw [collect_length h, List.length_range]
  · cases h
    exact List.length_range

theorem mem_of_mem_selectShards {k m : Nat} {idx : List Nat} {g : Nat} (h : g ∈ selectShards k m idx) : g ∈ idx := by
  rcases List.mem_append.mp h with h | h
  · exact List.contains_iff_mem.mp (List.mem_filter.mp h).2
  · exact List.contains_iff_mem.mp (List.mem_filter.mp (List.mem_of_mem_take h)).2

/-- The selected positions are positions of the input set (R147). -/
theorem selectedPositions_lt {k m : Nat} {idx : List Nat} {p : Nat}
    (h : p ∈ selectedPositions idx (selectShards k m idx)) : p < idx.length := by
  obtain ⟨g, hg, rfl⟩ := List.mem_map.mp h
  exact List.idxOf_lt_length_of_mem (mem_of_mem_selectShards hg)

/-! ### The rules, one by one -/

section Rules

variable {s t : State}

theorem ruleGenq_endsAlike {r c : Byte} (h : SameInputs (.genq r c) s t) (ho : SameOutput (.genq r c) s.kNat s t) :
    EndsAlike (SameOutput (.genq r c) s.kNat) (ruleGenq r c s) (ruleGenq r c t) :=
  EndsAlike.bind (by rw [h.kNat, h.mNat]) fun _ _ =>
    EndsAlike.bind (by rw [h.kNat, h.mNat]) fun g _ => ho.setRes g

theorem ruleEncode_endsAlike (h : SameInputs .encode s t) (ho : SameOutput .encode s.kNat s t) :
    EndsAlike (SameOutput .encode s.kNat) (ruleEncode s) (ruleEncode t) := by
  refine EndsAlike.bind (by rw [h.encodeCheck_eq]) fun _ hcheck => ?_
  obtain ⟨hkm, hcount, hlen⟩ := encodeCheck_none (raiseIf_ok hcheck)
  have hk : s.kNat + s.mNat ≤ 256 := (validKm_bounds hkm).2
  have hshard : t.recoveryShard = s.recoveryShard := funext fun j => by
    have hcombine := h.combineShards_eq hlen (by omega) (ps := List.range s.kNat)
      fun p hp => hcount ▸ List.mem_range.mp hp
    simp only [State.recoveryShard, h.kNat, h.mNat, hcombine]
  refine EndsAlike.bind (by rw [hshard, h.mNat]) fun shards hshards => ?_
  obtain ⟨hrows, hrow⟩ := recoveryShards_size hshards
  refine ⟨ho.res, h.l, ?_, rfl, fun a ha => ?_, fun hmode => ?_, nofun⟩
  · obtain ⟨-, hm, -⟩ := h.params
    exact congrArg (BitVec.setWidth 32) hm
  · have ha' : a < shards.length * s.lNat := by
      have hm : (s.m.setWidth 32).toNat = shards.length := by
        rw [hrows, BitVec.toNat_setWidth_of_le (by decide), State.mNat]
      exact hm ▸ ha
    show (t.mem.writeRows (outDataAt t.lNat 0 0) t.lNat shards).read _ = _
    rw [h.lNat]
    exact Memory.read_outShards _ _ hrow ha'
  · exact absurd hmode (by simp)

theorem ruleMatinv_endsAlike (h : SameInputs .matinv s t) (ho : SameOutput .matinv s.kNat s t) :
    EndsAlike (SameOutput .matinv s.kNat) (ruleMatinv s) (ruleMatinv t) := by
  refine EndsAlike.bind (by rw [h.kNat]) fun _ _ => EndsAlike.bind (by rw [h.kNat, h.matCorner_eq]) fun mat _ =>
    EndsAlike.bind (by rw [h.kNat]) fun inv _ => ?_
  exact ⟨ho.res, ho.outLen, ho.outCount, ho.outMode, fun a ha => Memory.read_writeRows_congr (ho.outData a ha) _ _ _,
    fun hmode a hlo hhi => Memory.read_writeRows_congr (ho.outIdx hmode a hlo hhi) _ _ _,
    fun hi a ha => Memory.read_writeRows_congr (ho.corner hi a ha) _ _ _⟩

/-- The stored shards and indices fill the output valid region; the inverse and the selection, stored after them, are the
same in both states. -/
theorem writeRecovered_sameOutput (h : SameInputs .decode s t) (ho : SameOutput .decode s.kNat s t)
    {missing sel : List Nat} {inv shards : List (List Byte)} (hrows : shards.length = missing.length)
    (hrow : ∀ shard ∈ shards, shard.length = s.lNat) :
    SameOutput .decode s.kNat (s.writeRecovered missing sel inv shards) (t.writeRecovered missing sel inv shards) := by
  have hcount : (BitVec.ofNat 32 missing.length).toNat ≤ missing.length := by
    rw [BitVec.toNat_ofNat]
    exact Nat.mod_le _ _
  have hlater {m₁ m₂ : Memory} {a : Nat} (hread : m₂.read a = m₁.read a) :
      ((m₂.writeRows (matAt 0 0) 256 inv).writeHalves (selAt 0) (sel.map (BitVec.ofNat 16))).read a =
        ((m₁.writeRows (matAt 0 0) 256 inv).writeHalves (selAt 0) (sel.map (BitVec.ofNat 16))).read a :=
    Memory.read_writeHalves_congr (Memory.read_writeRows_congr hread _ _ _) _ _
  refine ⟨ho.res, h.l, rfl, rfl, fun a ha => hlater (Memory.read_writeHalves_congr ?_ _ _),
    fun _ a hlo hhi => hlater ?_, nofun⟩
  · rw [h.lNat]
    exact Memory.read_outShards _ _ hrow (hrows ▸ Nat.lt_of_lt_of_le ha (Nat.mul_le_mul_right _ hcount))
  · have hhi' : a < outIdxAt missing.length :=
      Nat.lt_of_lt_of_le hhi (Nat.add_le_add_left (Nat.mul_le_mul_left 2 hcount) _)
    rw [← List.length_map (f := BitVec.ofNat 16)] at hhi'
    exact Memory.read_writeHalves_filled _ _ _ hlo hhi'

theorem ruleReconstruct_endsAlike (h : SameInputs .decode s t) (ho : SameOutput .decode s.kNat s t)
    (hlen : s.inLen = s.l) (hcount : s.countNat ≤ 256) {idx : List Nat} (hidx : idx.length = s.countNat) :
    EndsAlike (SameOutput .decode s.kNat) (ruleReconstruct idx s) (ruleReconstruct idx t) := by
  refine EndsAlike.bind (by rw [h.kNat, h.mNat]) fun sub _ => EndsAlike.bind (by rw [h.kNat]) fun inv _ =>
    EndsAlike.bind ?_ fun shards hshards => ?_
  · rw [h.kNat, h.mNat]
    exact collect_congr fun g _ => h.combineShards_eq hlen hcount (fun p hp => hidx ▸ selectedPositions_lt hp) _
  · obtain ⟨hrows, hrow⟩ := recoveredShards_size hshards
    rw [h.kNat, h.mNat]
    exact writeRecovered_sameOutput h ho hrows hrow

theorem ruleDecode_endsAlike (h : SameInputs .decode s t) (ho : SameOutput .decode s.kNat s t) :
    EndsAlike (SameOutput .decode s.kNat) (ruleDecode s) (ruleDecode t) := by
  refine EndsAlike.bind (by rw [h.decodeHeaderCheck_eq]) fun _ hcheck => ?_
  obtain ⟨-, hlen, hcount⟩ := decodeHeaderCheck_none (raiseIf_ok hcheck)
  refine EndsAlike.bind (h.presentIndices_eq hcount) fun idx hidx =>
    EndsAlike.bind (by rw [h.kNat, h.mNat]) fun _ _ => ?_
  rw [h.kNat]
  split
  · refine ⟨ho.res, h.l, rfl, rfl, fun a ha => absurd ha (by simp), fun _ a hlo hhi => ?_, nofun⟩
    exact absurd (Nat.lt_of_le_of_lt hlo hhi) (by simp)
  · exact ruleReconstruct_endsAlike h ho hlen hcount (State.presentIndices_length hidx)

theorem ruleOf_endsAlike {i : Instr} (h : SameInputs i s t) (ho : SameOutput i s.kNat s t) :
    EndsAlike (SameOutput i s.kNat) (ruleOf i s) (ruleOf i t) := by
  cases i with
  | gfadd a b => exact ho.setRes (gfAdd a b)
  | gfmul a b => exact ho.setRes (gfMul a b)
  | gfdiv a b => exact EndsAlike.bind rfl fun q _ => ho.setRes q
  | genq r c => exact ruleGenq_endsAlike h ho
  | encode => exact ruleEncode_endsAlike h ho
  | matinv => exact ruleMatinv_endsAlike h ho
  | decode => exact ruleDecode_endsAlike h ho

/-- With the results cleared no output is declared valid, so only the corner of `MAT` is left to agree on. -/
theorem clearResults_sameOutput {i : Instr} (h : SameInputs i s t) :
    SameOutput i s.kNat s.clearResults t.clearResults := by
  obtain ⟨-, -, hcorner⟩ := h
  exact ⟨rfl, rfl, rfl, rfl, fun a ha => absurd ha (by simp), fun hmode => absurd hmode (by simp), hcorner⟩

end Rules

/-- A command that answers a next state in one of the two answers one in the other, with the same outputs: the rules end
alike on the cleared states, in success or with one error. -/
theorem exec_sameOutput {i : Instr} {s t s' : State} (h : SameInputs i s t) (hexec : exec i s = .next s') :
    ∃ t', exec i t = .next t' ∧ t'.status = s'.status ∧ SameOutput i s.kNat s' t' := by
  have hclear := clearResults_sameOutput h
  have hends : EndsAlike (SameOutput i s.kNat) (ruleOf i s.clearResults) (ruleOf i t.clearResults) :=
    ruleOf_endsAlike (s := s.clearResults) (t := t.clearResults) h hclear
  rw [exec_eq_complete i t]
  rcases exec_next hexec with ⟨u, hu, rfl⟩ | ⟨e, he, rfl⟩
  · obtain ⟨u', hu', hout⟩ := hends.of_ok hu
    exact ⟨u'.succeed, State.complete_of_ok hu', rfl, hout.setStatus statusDone⟩
  · exact ⟨t.raised e, State.complete_of_raise (hends.of_error he), rfl, hclear.setStatus (statusError e)⟩

/-- Settles O35, by `exec_sameOutput`: the commands' rules read nothing beyond the input valid regions, and the bytes they
store fill the output valid region. -/
theorem resultsDependOnInputsOnly : Obligations.ResultsDependOnInputsOnly := by
  intro i s₁ s₂ t₁ h hexec
  obtain ⟨t₂, hexec₂, hstatus, hout⟩ := exec_sameOutput h hexec
  exact ⟨t₂, hexec₂, hstatus, hout.res, hout.outLen, hout.outCount, hout.outMode, hout.outData,
    fun hmode _ hq => hout.readHalf_outIdx hmode hq, hout.corner⟩

end Sys2Proof.Machine
end

section
/-! PROOF. Stores of whole elements: what the engine and the host write, and what every such store keeps (R28, R51, R53). -/

namespace Sys2Proof.Machine

/-- The clauses of `State.Inv` that speak of the memory alone. -/
structure Memory.Legal (mem : Memory) : Prop where
  canonical : mem.wf
  mapped : ∀ c ∈ mem, ∃ b ∈ bufferRows, b.holds c.1 1 = true
  entriesWhole : ∀ b ∈ bufferRows, b.elemBytes = 2 → ∀ p, p < 256 →
    ((mem.read (b.base + 2 * p)).isSome ↔ (mem.read (b.base + 2 * p + 1)).isSome)

/-- The second memory is the first after stores of runs of whole elements into buffers that `ok` admits. -/
inductive Memory.Stores (ok : Buffer → Bool) (mem : Memory) : Memory → Prop where
  | refl : Memory.Stores ok mem mem
  | bytes {mem' : Memory} {b : Buffer} {off : Nat} {vs : List Byte} (h : Memory.Stores ok mem mem') (hok : ok b = true)
      (hoff : b.elemBytes ∣ off) (hlen : b.elemBytes ∣ vs.length) (hfit : off + vs.length ≤ b.size) :
      Memory.Stores ok mem (mem'.writeBytes (b.base + off) vs)

/-- May a command store into the buffer (R29)? -/
def Buffer.engineWritable : Buffer → Bool
  | .sel | .outIdx | .mat | .outData => true
  | .inIdx | .inData => false

/-! ### The rows of the map -/

theorem Buffer.elemBytes_cases (b : Buffer) : b.elemBytes = 1 ∨ b.elemBytes = 2 := by
  cases b <;> decide

theorem Buffer.elemBytes_dvd_base (b : Buffer) : b.elemBytes ∣ b.base := by
  cases b <;> decide

/-- A buffer of 16-bit entries has 256 of them, from an even offset and below every buffer of bytes (R51). -/
theorem Buffer.entries_layout {b : Buffer} (h : b.elemBytes = 2) :
    b.size = 512 ∧ b.base % 2 = 0 ∧ b.base + b.size ≤ 0x10000 := by
  cases b with
  | sel | inIdx | outIdx => decide
  | mat | inData | outData => cases h

theorem Buffer.bytes_base {b : Buffer} (h : b.elemBytes = 1) : 0x10000 ≤ b.base := by
  cases b with
  | sel | inIdx | outIdx => cases h
  | mat | inData | outData => decide

/-- Two buffers that share an offset are one (R51). -/
theorem Buffer.region_unique {b b' : Buffer} {a : Nat} (h : b.region 0 b.size a) (h' : b'.region 0 b'.size a) : b' = b := by
  refine Buffer.holds_unique (off := a) (n := 1) Nat.one_pos (Buffer.holds_iff.mpr ?_) (Buffer.holds_iff.mpr ?_)
  · exact h
  · exact h'

/-! ### Written locations stay written -/

theorem Memory.isSome_read_writeBytes {mem : Memory} {a' : Nat} (h : (mem.read a').isSome) (a : Nat) (vs : List Byte) :
    ((mem.writeBytes a vs).read a').isSome := by
  rw [Memory.read_writeBytes]
  split
  · rename_i hin
    rw [List.getElem?_eq_getElem (by omega)]
    rfl
  · exact h

theorem Memory.isSome_readHalf {mem : Memory} {a : Nat} :
    (mem.readHalf a).isSome ↔ (mem.read a).isSome ∧ (mem.read (a + 1)).isSome := by
  unfold Memory.readHalf
  cases mem.read a <;> cases mem.read (a + 1) <;> simp

/-! ### What a store of whole elements keeps -/

theorem Memory.Legal.writeBytes {mem : Memory} (h : mem.Legal) {b : Buffer} {off : Nat} {vs : List Byte}
    (hoff : b.elemBytes ∣ off) (hlen : b.elemBytes ∣ vs.length) (hfit : off + vs.length ≤ b.size) :
    (mem.writeBytes (b.base + off) vs).Legal := by
  refine ⟨Memory.wf_writeBytes h.canonical _ _, fun c hc => ?_, fun b' hb' h2' p hp => ?_⟩
  · rcases Memory.mem_writeBytes hc with hin | hc
    · exact ⟨b, b.mem_bufferRows, Buffer.holds_iff.mpr (by omega)⟩
    · exact h.mapped c hc
  · have hold := h.entriesWhole b' hb' h2' p hp
    obtain ⟨hsize', heven', hend'⟩ := Buffer.entries_layout h2'
    have hboth : b.base + off ≤ b'.base + 2 * p ∧ b'.base + 2 * p < b.base + off + vs.length ↔
        b.base + off ≤ b'.base + 2 * p + 1 ∧ b'.base + 2 * p + 1 < b.base + off + vs.length := by
      rcases b.elemBytes_cases with h1 | h2
      · have := Buffer.bytes_base h1
        omega
      · obtain ⟨-, heven, -⟩ := Buffer.entries_layout h2
        rw [h2] at hoff hlen
        omega
    rw [Memory.read_writeBytes, Memory.read_writeBytes]
    by_cases hin : b.base + off ≤ b'.base + 2 * p ∧ b'.base + 2 * p < b.base + off + vs.length
    · have hin' := hboth.mp hin
      rw [if_pos hin, if_pos hin', List.getElem?_eq_getElem (by omega), List.getElem?_eq_getElem (by omega)]
      exact Iff.rfl
    · rw [if_neg hin, if_neg (fun h' => hin (hboth.mpr h'))]
      exact hold

section Stores

variable {ok : Buffer → Bool} {mem mem' : Memory}

theorem Memory.Stores.legal (h : Memory.Stores ok mem mem') (hl : mem.Legal) : mem'.Legal := by
  induction h with
  | refl => exact hl
  | bytes _ _ hoff hlen hfit ih => exact ih.writeBytes hoff hlen hfit

theorem Memory.Stores.isSome_read (h : Memory.Stores ok mem mem') {a : Nat} (ha : (mem.read a).isSome) :
    (mem'.read a).isSome := by
  induction h with
  | refl => exact ha
  | bytes _ _ _ _ _ ih => exact Memory.isSome_read_writeBytes ih _ _

theorem Memory.Stores.isSome_readHalf (h : Memory.Stores ok mem mem') {a : Nat} (ha : (mem.readHalf a).isSome) :
    (mem'.readHalf a).isSome := by
  obtain ⟨hlo, hhi⟩ := Memory.isSome_readHalf.mp ha
  exact Memory.isSome_readHalf.mpr ⟨h.isSome_read hlo, h.isSome_read hhi⟩

/-- A buffer that is not admitted keeps its content. -/
theorem Memory.Stores.read_eq (h : Memory.Stores ok mem mem') {b : Buffer} (hb : ok b = false) {a : Nat}
    (ha : b.region 0 b.size a) : mem'.read a = mem.read a := by
  induction h with
  | refl => rfl
  | @bytes mem' b' off vs _ hok _ _ hfit ih =>
    rw [Memory.read_writeBytes_outside, ih]
    by_contra hin
    have hsame : b' = b := Buffer.region_unique ha ⟨by omega, by omega⟩
    rw [hsame, hb] at hok
    cases hok

/-- A store of one byte of a byte buffer. -/
theorem Memory.Stores.byte (h : Memory.Stores ok mem mem') {b : Buffer} (hok : ok b = true) (h1 : b.elemBytes = 1)
    {off : Nat} (hfit : off < b.size) (v : Byte) : Memory.Stores ok mem (mem'.write (b.base + off) v) :=
  h.bytes (vs := [v]) hok (h1 ▸ Nat.one_dvd _) (h1 ▸ Nat.one_dvd _) hfit

/-- A store of 16-bit entries one after the other. -/
theorem Memory.Stores.halves (h : Memory.Stores ok mem mem') {b : Buffer} (hok : ok b = true) (h2 : b.elemBytes = 2)
    {p : Nat} {vs : List Half} (hfit : p + vs.length ≤ 256) :
    Memory.Stores ok mem (mem'.writeHalves (b.base + 2 * p) vs) := by
  have hsize := (Buffer.entries_layout h2).1
  refine h.bytes hok (h2 ▸ Nat.dvd_mul_right 2 p) ?_ ?_
  · rw [h2, halves_length]
    exact Nat.dvd_mul_right 2 _
  · rw [hsize, halves_length]
    omega

/-- A store of rows of bytes no longer than their stride. -/
theorem Memory.Stores.rows (h : Memory.Stores ok mem mem') {b : Buffer} (hok : ok b = true) (h1 : b.elemBytes = 1)
    {off stride : Nat} {rows : List (List Byte)} (hrow : ∀ row ∈ rows, row.length ≤ stride)
    (hfit : off + stride * rows.length ≤ b.size) :
    Memory.Stores ok mem (mem'.writeRows (b.base + off) stride rows) := by
  induction rows generalizing mem' off with
  | nil => exact h
  | cons row rows ih =>
    rw [List.length_cons, Nat.mul_succ] at hfit
    have hlen := hrow row List.mem_cons_self
    have hstored : Memory.Stores ok mem (mem'.writeBytes (b.base + off) row) :=
      h.bytes hok (h1 ▸ Nat.one_dvd _) (h1 ▸ Nat.one_dvd _) (by omega)
    rw [Memory.writeRows, Nat.add_assoc]
    exact ih hstored (fun r hr => hrow r (List.mem_cons_of_mem _ hr)) (by omega)

end Stores

end Sys2Proof.Machine
end

section
/-! PROOF. What a command that succeeds stores, and what it leaves alone (R29, R33). -/

namespace Sys2Proof.Machine

/-! ### The selection of a valid input -/

theorem decodeIndexCheck_none {k m : Nat} {idx : List Nat} (h : decodeIndexCheck k m idx = none) :
    (∀ g ∈ idx, g < k + m) ∧ idx.Nodup ∧ k ≤ idx.length := by
  unfold decodeIndexCheck at h
  split at h
  · cases h
  · rename_i hrange
    split at h
    · cases h
    · rename_i hdup
      split at h
      · cases h
      · rename_i hfew
        refine ⟨fun g hg => ?_, by simpa using hdup, by omega⟩
        by_contra hge
        exact hrange (List.any_eq_true.mpr ⟨g, hg, by simpa using hge⟩)

/-- The present indices below `k + m` are the present originals and the present recovery indices. -/
theorem haveOriginal_haveRecovery_length {k m : Nat} {idx : List Nat} (hr : ∀ g ∈ idx, g < k + m) (hd : idx.Nodup) :
    (haveOriginal k idx).length + (haveRecovery k m idx).length = idx.length := by
  have hdisjoint : (haveOriginal k idx ++ haveRecovery k m idx).Nodup := by
    refine List.nodup_append.mpr ⟨List.nodup_range.filter _, (List.nodup_range' ..).filter _, fun a ha b hb => ?_⟩
    have h1 := List.mem_range.mp (List.mem_filter.mp ha).1
    have h2 := List.mem_range'_1.mp (List.mem_filter.mp hb).1
    omega
  rw [← List.length_append]
  refine List.Perm.length_eq ((List.perm_ext_iff_of_nodup hdisjoint hd).mpr fun g => ?_)
  simp only [haveOriginal, haveRecovery, List.mem_append, List.mem_filter, List.mem_range, List.mem_range'_1,
    List.contains_iff_mem]
  constructor
  · rintro (⟨-, hg⟩ | ⟨-, hg⟩) <;> exact hg
  · intro hg
    have := hr g hg
    by_cases hk : g < k
    · exact .inl ⟨hk, hg⟩
    · exact .inr ⟨by omega, hg⟩

/-- From `k` or more distinct shards `k` are selected (R147). -/
theorem selectShards_length {k m : Nat} {idx : List Nat} (hr : ∀ g ∈ idx, g < k + m) (hd : idx.Nodup)
    (hk : k ≤ idx.length) : (selectShards k m idx).length = k := by
  have hpresent := haveOriginal_haveRecovery_length hr hd
  have hsplit := haveOriginal_length k idx
  rw [selectShards, List.length_append, List.length_take]
  omega

/-! ### What the rules store -/

/-- The sizes of what a reconstruction stores (R140, R150, R152). -/
structure RecoverySizes (s : State) (missing sel : List Nat) (inv shards : List (List Byte)) : Prop where
  valid : s.kNat ≤ 256
  some_missing : missing ≠ []
  missing_le : missing.length ≤ s.kNat
  sel_length : sel.length = s.kNat
  inverse : inv.length = s.kNat ∧ ∀ row ∈ inv, row.length = s.kNat
  shards : shards.length = missing.length ∧ ∀ shard ∈ shards, shard.length = s.lNat

/-- Everything a successful `DECODE` can have done. -/
theorem ruleDecode_stored {s u : State} (h : ruleDecode s = .ok u) :
    u = s.nothingMissing ∨
    ∃ missing sel inv shards, RecoverySizes s missing sel inv shards ∧ u = s.writeRecovered missing sel inv shards := by
  obtain ⟨hheader, idx, -, hidx, ⟨-, hu⟩ | ⟨hmissing, hu⟩⟩ := ruleDecode_ok h
  · exact .inl hu
  · obtain ⟨sub, inv, shards, hsub, hinv, hshards, hu⟩ := ruleReconstruct_ok hu
    obtain ⟨hr, hd, hk⟩ := decodeIndexCheck_none hidx
    have hsel := selectShards_length hr hd hk
    have hkm := (validKm_bounds (decodeHeaderCheck_none hheader).1).2
    exact .inr ⟨_, _, inv, shards,
      { valid := by omega
        some_missing := hmissing
        missing_le := missingOriginals_length_le _ _
        sel_length := hsel
        inverse := gfMatinv_size ((submatrix_length hsub).trans hsel) hinv
        shards := recoveredShards_size hshards }, hu⟩

theorem matinvCheck_none {n : Nat} (h : matinvCheck n = none) : n ≤ 256 := by
  rw [matinvCheck_eq] at h
  split at h
  · cases h
  · omega

/-- Everything a command's rule that succeeds can have done to the state, with the sizes of what it stored. -/
inductive State.Effect (s : State) : State → Prop where
  | result (v : Byte) : s.Effect { s with res := v }
  | encoded (shards : List (List Byte)) (hkm : s.kNat + s.mNat ≤ 256)
      (hsize : shards.length = s.mNat ∧ ∀ shard ∈ shards, shard.length = s.lNat) :
      s.Effect { s with mem := s.mem.writeRows (outDataAt s.lNat 0 0) s.lNat shards
                        outLen := s.l, outCount := s.m.setWidth 32, outMode := 0 }
  | inverted (inv : List (List Byte)) (hk : s.kNat ≤ 256)
      (hsize : inv.length = s.kNat ∧ ∀ row ∈ inv, row.length = s.kNat) :
      s.Effect { s with mem := s.mem.writeRows (matAt 0 0) 256 inv }
  | complete : s.Effect s.nothingMissing
  | recovered (missing sel : List Nat) (inv shards : List (List Byte)) (hsize : RecoverySizes s missing sel inv shards) :
      s.Effect (s.writeRecovered missing sel inv shards)

theorem ruleOf_effect {i : Instr} {s u : State} (h : ruleOf i s = .ok u) : s.Effect u := by
  cases i with
  | gfadd a b =>
    cases h
    exact .result _
  | gfmul a b =>
    cases h
    exact .result _
  | gfdiv a b =>
    obtain ⟨-, rfl⟩ := ruleGfdiv_ok h
    exact .result _
  | genq r c =>
    obtain ⟨-, g, -, rfl⟩ := ruleGenq_ok h
    exact .result g
  | encode =>
    obtain ⟨hcheck, shards, hshards, rfl⟩ := ruleEncode_ok h
    exact .encoded shards (validKm_bounds (encodeCheck_none hcheck).1).2 (recoveryShards_size hshards)
  | matinv =>
    obtain ⟨hcheck, mat, inv, hmat, hinv, rfl⟩ := ruleMatinv_ok h
    exact .inverted inv (matinvCheck_none hcheck) (gfMatinv_size (State.matCorner_length hmat) hinv)
  | decode =>
    rcases ruleDecode_stored h with rfl | ⟨missing, sel, inv, shards, hsize, rfl⟩
    · exact .complete
    · exact .recovered missing sel inv shards hsize

/-- A successful rule changes `RES`, `OUT_LEN`, `OUT_COUNT`, `OUT_MODE` and the buffers only. -/
theorem State.Effect.sameBesidesResults {s u : State} (h : s.Effect u) : s.SameBesidesResults u := by
  cases h <;> exact ⟨⟨rfl, rfl, rfl, rfl, rfl, rfl⟩, rfl, rfl, rfl, rfl⟩

/-! ### Which buffers a command stores into -/

section Stores

variable {s : State} {mem₀ mem : Memory}

/-- Up to 256 shards fit `OUT_DATA` (R28). -/
theorem Memory.Stores.shards (h : Memory.Stores Buffer.engineWritable mem₀ mem) {shards : List (List Byte)}
    (hn : shards.length ≤ 256) (hrow : ∀ shard ∈ shards, shard.length = s.lNat) :
    Memory.Stores Buffer.engineWritable mem₀ (mem.writeRows (outDataAt s.lNat 0 0) s.lNat shards) := by
  rw [outDataAt_zero]
  refine h.rows (b := .outData) (off := 0) rfl rfl (fun shard hs => (hrow shard hs).le) ?_
  calc 0 + s.lNat * shards.length ≤ 65535 * 256 := by
        rw [Nat.zero_add]
        exact Nat.mul_le_mul s.lNat_le hn
    _ = Buffer.size .outData := rfl

theorem Memory.Stores.corner (h : Memory.Stores Buffer.engineWritable mem₀ mem) {n : Nat} (hn : n ≤ 256)
    {rows : List (List Byte)} (hrows : rows.length = n ∧ ∀ row ∈ rows, row.length = n) :
    Memory.Stores Buffer.engineWritable mem₀ (mem.writeRows (matAt 0 0) 256 rows) := by
  obtain ⟨hlen, hrow⟩ := hrows
  refine h.rows (b := .mat) (off := 0) rfl rfl (fun row hr => (hrow row hr).trans_le hn) ?_
  show 0 + 256 * rows.length ≤ 65536
  omega

/-- A list of up to 256 indices fits a buffer of entries (R28). -/
theorem Memory.Stores.indices (h : Memory.Stores Buffer.engineWritable mem₀ mem) {b : Buffer}
    (hok : b.engineWritable = true) (h2 : b.elemBytes = 2) {idx : List Nat} (hn : idx.length ≤ 256) :
    Memory.Stores Buffer.engineWritable mem₀ (mem.writeHalves b.base (idx.map (BitVec.ofNat 16))) :=
  h.halves (p := 0) hok h2 (by rw [List.length_map]; omega)

variable {missing sel : List Nat} {inv shards : List (List Byte)}

/-- A reconstruction's stores behind the recovered shards: their indices. -/
theorem RecoverySizes.stores_indices (hsize : RecoverySizes s missing sel inv shards)
    (h : Memory.Stores Buffer.engineWritable mem₀ mem) :
    Memory.Stores Buffer.engineWritable mem₀ (mem.writeHalves (outIdxAt 0) (missing.map (BitVec.ofNat 16))) :=
  h.indices (b := .outIdx) rfl rfl (hsize.missing_le.trans hsize.valid)

/-- A reconstruction's last stores: the inverse and the selection. -/
theorem RecoverySizes.stores_inverse (hsize : RecoverySizes s missing sel inv shards)
    (h : Memory.Stores Buffer.engineWritable mem₀ mem) :
    Memory.Stores Buffer.engineWritable mem₀
      ((mem.writeRows (matAt 0 0) 256 inv).writeHalves (selAt 0) (sel.map (BitVec.ofNat 16))) :=
  (h.corner hsize.valid hsize.inverse).indices (b := .sel) rfl rfl (hsize.sel_length.trans_le hsize.valid)

theorem RecoverySizes.stores (hsize : RecoverySizes s missing sel inv shards) :
    Memory.Stores Buffer.engineWritable s.mem (s.writeRecovered missing sel inv shards).mem := by
  obtain ⟨hlen, hrow⟩ := hsize.shards
  have hn : shards.length ≤ 256 := hlen.trans_le (hsize.missing_le.trans hsize.valid)
  exact hsize.stores_inverse (hsize.stores_indices (Memory.Stores.refl.shards hn hrow))

end Stores

/-- A successful rule has stored whole elements of the buffers the engine may write, and no others (R29). -/
theorem State.Effect.stores {s u : State} (h : s.Effect u) : Memory.Stores Buffer.engineWritable s.mem u.mem := by
  cases h with
  | result v => exact .refl
  | encoded shards hkm hsize =>
    obtain ⟨hlen, hrow⟩ := hsize
    exact Memory.Stores.refl.shards (by omega) hrow
  | inverted inv hk hsize => exact Memory.Stores.refl.corner hk hsize
  | complete => exact .refl
  | recovered missing sel inv shards hsize => exact hsize.stores

/-! ### A command that answers a next state -/

/-- A command that answers a next state has had an effect, or it has failed. -/
theorem exec_effect {i : Instr} {s t : State} (h : exec i s = .next t) :
    (∃ u, s.clearResults.Effect u ∧ t = u.succeed) ∨ ∃ e, t = s.raised e := by
  rcases exec_next h with ⟨u, hu, rfl⟩ | ⟨e, -, rfl⟩
  · exact .inl ⟨u, ruleOf_effect hu, rfl⟩
  · exact .inr ⟨e, rfl⟩

theorem exec_sameBesidesResults {i : Instr} {s t : State} (h : exec i s = .next t) : s.SameBesidesResults t := by
  rcases exec_effect h with ⟨u, hu, rfl⟩ | ⟨e, rfl⟩
  · exact hu.sameBesidesResults
  · exact ⟨⟨rfl, rfl, rfl, rfl, rfl, rfl⟩, rfl, rfl, rfl, rfl⟩

theorem exec_stores {i : Instr} {s t : State} (h : exec i s = .next t) :
    Memory.Stores Buffer.engineWritable s.mem t.mem := by
  rcases exec_effect h with ⟨u, hu, rfl⟩ | ⟨e, rfl⟩
  · exact hu.stores
  · exact .refl

/-- Settles O34: the engine stores into `SEL`, `OUT_IDX`, `MAT` and `OUT_DATA` only (`exec_stores`). -/
theorem commandsNeverWriteTheirInputs : Obligations.CommandsNeverWriteTheirInputs := by
  intro i s t h
  refine ⟨(exec_sameBesidesResults h).1, fun a ha => ?_⟩
  rcases ha with ha | ha
  · exact (exec_stores h).read_eq (b := .inData) rfl ha
  · exact (exec_stores h).read_eq (b := .inIdx) rfl ha

end Sys2Proof.Machine
end

section
/-! PROOF. The invariant of every step (R22, R23, R33, R51, R160): it speaks of `STATUS`, of the memory and of the output
the result registers declare, and each move is followed on these three. -/

namespace Sys2Proof.Machine

/-- The output valid region holds values (R33). -/
def State.OutputWritten (s : State) : Prop :=
  (∀ a, a < s.outCount.toNat * s.outLen.toNat → (s.mem.read (Buffer.base .outData + a)).isSome) ∧
  (s.outMode = 1 → ∀ q, q < s.outCount.toNat → (s.mem.readHalf (outIdxAt q)).isSome)

/-- The clause of the invariant that ties the result registers to `STATUS` (R22, R37, R165). -/
def State.NoStaleResults (s : State) : Prop :=
  s.status = 0x00000000 ∨ errField s.status ≠ 0x00 → s.res = 0 ∧ s.outLen = 0 ∧ s.outCount = 0 ∧ s.outMode = 0

theorem State.inv_iff {s : State} :
    s.Inv ↔ LegalStatus s.status ∧ s.mem.Legal ∧ s.NoStaleResults ∧ s.OutputWritten :=
  ⟨fun ⟨hstatus, hwf, hmapped, hwhole, hresults, hbytes, hindices⟩ =>
      ⟨hstatus, ⟨hwf, hmapped, hwhole⟩, hresults, ⟨hbytes, hindices⟩⟩,
    fun ⟨hstatus, ⟨hwf, hmapped, hwhole⟩, hresults, ⟨hbytes, hindices⟩⟩ =>
      ⟨hstatus, hwf, hmapped, hwhole, hresults, hbytes, hindices⟩⟩

/-! ### Outputs -/

/-- With `OUT_COUNT` 0 nothing is declared valid. -/
theorem State.outputWritten_of_empty {s : State} (h : s.outCount = 0) : s.OutputWritten := by
  refine ⟨fun a ha => ?_, fun _ q hq => ?_⟩
  · simp [h] at ha
  · simp [h] at hq

/-- Stores do not unwrite an output. -/
theorem State.OutputWritten.of_stores {s : State} (h : s.OutputWritten) {ok : Buffer → Bool} {mem : Memory}
    (hs : Memory.Stores ok s.mem mem) : State.OutputWritten { s with mem := mem } := by
  obtain ⟨hbytes, hindices⟩ := h
  exact ⟨fun a ha => hs.isSome_read (hbytes a ha), fun hmode q hq => hs.isSome_readHalf (hindices hmode q hq)⟩

/-- Every byte of the stored shards holds a value. -/
theorem Memory.isSome_read_shards (mem : Memory) {l : Nat} {shards : List (List Byte)}
    (hrow : ∀ shard ∈ shards, shard.length = l) {a : Nat} (ha : a < shards.length * l) :
    ((mem.writeRows (outDataAt l 0 0) l shards).read (Buffer.base .outData + a)).isSome := by
  have hq : a / l < shards.length := Nat.div_lt_of_lt_mul (Nat.mul_comm _ _ ▸ ha)
  have hb : a % l < shards[a / l].length := by
    rw [hrow _ (List.getElem_mem hq)]
    exact Nat.mod_lt _ (Nat.pos_of_ne_zero fun h => by simp [h] at ha)
  have hread := Memory.read_writeRows_inside mem (outDataAt l 0 0) l shards (fun row hr => (hrow row hr).le) hq hb
  rw [outDataAt_zero, Nat.add_assoc, Nat.div_add_mod] at hread
  rw [outDataAt_zero, hread]
  rfl

/-- The recovered shards and their indices are stored, and the stores after them unwrite nothing. -/
theorem RecoverySizes.outputWritten {s : State} {missing sel : List Nat} {inv shards : List (List Byte)}
    (h : RecoverySizes s missing sel inv shards) : (s.writeRecovered missing sel inv shards).OutputWritten := by
  obtain ⟨hlen, hrow⟩ := h.shards
  have hcount : (s.writeRecovered missing sel inv shards).outCount.toNat ≤ missing.length :=
    (BitVec.toNat_ofNat ..).trans_le (Nat.mod_le _ _)
  refine ⟨fun a ha => ?_, fun _ q hq => ?_⟩
  · have hbytes : a < shards.length * s.lNat :=
      Nat.lt_of_lt_of_le ha (hlen ▸ Nat.mul_le_mul_right _ hcount)
    exact (h.stores_inverse (h.stores_indices .refl)).isSome_read (Memory.isSome_read_shards s.mem hrow hbytes)
  · have hidx : q < (missing.map (BitVec.ofNat 16)).length := by
      rw [List.length_map]
      exact Nat.lt_of_lt_of_le hq hcount
    refine (h.stores_inverse .refl).isSome_readHalf ?_
    rw [show outIdxAt q = outIdxAt 0 + 2 * q from rfl, Memory.readHalf_writeHalves_inside _ _ _ hidx]
    rfl

theorem State.Effect.outputWritten {s u : State} (h : s.Effect u) (hs : s.outCount = 0) : u.OutputWritten := by
  cases h with
  | result v => exact State.outputWritten_of_empty hs
  | encoded shards hkm hsize =>
    obtain ⟨hlen, hrow⟩ := hsize
    have hm : (s.m.setWidth 32).toNat = shards.length := (BitVec.toNat_setWidth_of_le (by decide)).trans hlen.symm
    exact ⟨fun a ha => Memory.isSome_read_shards _ hrow (hm ▸ ha), nofun⟩
  | inverted inv hk hsize => exact State.outputWritten_of_empty hs
  | complete => exact State.outputWritten_of_empty rfl
  | recovered missing sel inv shards hsize => exact hsize.outputWritten

/-! ### The moves, one by one -/

section Moves

variable {s : State}

theorem State.Inv.legal (h : s.Inv) : s.mem.Legal := ⟨h.canonical, h.mapped, h.entriesWhole⟩

theorem State.Inv.output (h : s.Inv) : s.OutputWritten := ⟨h.outputWritten, h.indicesWritten⟩

/-- The host's side plays no part in the invariant. -/
theorem State.Inv.withHost (h : s.Inv) (agenda : List Event) (replies : List Word) (draws : Nat) :
    State.Inv { s with agenda := agenda, replies := replies, draws := draws } :=
  ⟨h.status, h.canonical, h.mapped, h.entriesWhole, h.noResults, h.outputWritten, h.indicesWritten⟩

theorem State.Inv.takeMove (h : s.Inv) : s.takeMove.Inv := h.withHost _ _ _

theorem legalStatus_error (e : ErrorName) : LegalStatus (statusError e) :=
  .inr (.inr ⟨e.code.toNat, by cases e <;> decide, by cases e <;> rfl⟩)

theorem State.Inv.raised (h : s.Inv) (e : ErrorName) : (s.raised e).Inv :=
  State.inv_iff.mpr ⟨legalStatus_error e, h.legal, fun _ => ⟨rfl, rfl, rfl, rfl⟩, State.outputWritten_of_empty rfl⟩

/-- Busy, or done without an error, a block may hold any results. -/
theorem State.noStaleResults_of_noError (hstarted : s.status ≠ 0x00000000) (hok : errField s.status = 0x00) :
    s.NoStaleResults :=
  fun hs => absurd hs (not_or.mpr ⟨hstarted, not_not.mpr hok⟩)

theorem State.Inv.exec (h : s.Inv) {i : Instr} {t : State} (ht : exec i s = .next t) : t.Inv := by
  rcases exec_effect ht with ⟨u, hu, rfl⟩ | ⟨e, rfl⟩
  · have hdone : u.succeed.NoStaleResults :=
      State.noStaleResults_of_noError (show statusDone ≠ 0x00000000 by decide) (show errField statusDone = 0x00 by decide)
    exact State.inv_iff.mpr ⟨.inr (.inr ⟨0, by decide, rfl⟩), hu.stores.legal h.legal, hdone, hu.outputWritten rfl⟩
  · exact h.raised e

theorem State.Inv.engineTurn (h : s.Inv) {t : State} (ht : s.engineTurn = .next t) : t.Inv := by
  rcases State.engineTurn_next ht with ⟨-, rfl⟩ | ⟨-, i, -, hexec⟩ | ⟨-, -, rfl⟩
  · exact h
  · exact h.exec hexec
  · exact h.raised _

theorem State.Inv.start (h : s.Inv) (w : Word) : (s.start w).Inv :=
  have hbusy : (s.start w).NoStaleResults := State.noStaleResults_of_noError (show statusStarted ≠ 0x00000000 by decide)
    (show errField statusStarted = 0x00 by decide)
  State.inv_iff.mpr ⟨.inr (.inl rfl), h.legal, hbusy, h.output⟩

/-- A write of `CMD` is `START`; every other register the invariant speaks of is read-only (R20). -/
theorem State.Inv.writeReg (h : s.Inv) (r : Reg) (v : Word) : (s.writeReg r v).Inv := by
  cases r with
  | cmd => exact h.start v
  | status | outLen | outCount | outMode | res => exact h
  | k | m | l | inLen | inCount | inMode =>
    exact ⟨h.status, h.canonical, h.mapped, h.entriesWhole, h.noResults, h.outputWritten, h.indicesWritten⟩

/-- A host write of an element stores it, where the buffer is the host's to write (R30, R53). -/
theorem State.writeElement_stores {off n : Nat} {b : Buffer} (hr : resolve off n = some (.elem b off)) (v : Word) :
    ∃ mem, s.writeElement b off v = { s with mem := mem } ∧ Memory.Stores Buffer.hostWritable s.mem mem := by
  obtain ⟨-, rfl, halign, hbase, hend⟩ := resolve_elem hr
  obtain ⟨d, rfl⟩ := Nat.exists_eq_add_of_le hbase
  have hd : b.elemBytes ∣ d := (Nat.dvd_add_right b.elemBytes_dvd_base).mp (Nat.dvd_of_mod_eq_zero halign)
  unfold State.writeElement
  split
  · rename_i hok
    split
    · rename_i h2
      exact ⟨_, rfl, Memory.Stores.refl.bytes hok hd (h2 ▸ Nat.dvd_refl 2) (by rw [halfBytes_length]; omega)⟩
    · rename_i h2
      have h1 := b.elemBytes_cases.resolve_right h2
      exact ⟨_, rfl, Memory.Stores.refl.byte hok h1 (by omega) _⟩
  · exact ⟨s.mem, rfl, .refl⟩

theorem State.Inv.hostAccess (h : s.Inv) {a : HostAccess} {t : State} (ht : s.hostAccess a = .next t) : t.Inv := by
  rcases State.hostAccess_next ht with ⟨off, n, r, -, -, -, rfl⟩ | ⟨off, n, b, -, -, -, rfl⟩ |
    ⟨off, n, v, r, -, -, -, rfl⟩ | ⟨off, n, v, b, -, hr, -, rfl⟩
  · exact h.withHost _ _ _
  · obtain ⟨v, d, heq⟩ := s.readElement_block b off
    exact heq ▸ h.withHost _ _ _
  · exact h.writeReg r v
  · obtain ⟨mem, heq, hs⟩ := State.writeElement_stores (s := s) hr v
    rw [heq]
    exact State.inv_iff.mpr ⟨h.status, hs.legal h.legal, h.noResults, h.output.of_stores hs⟩

end Moves

/-- Settles O39: after reset the registers are 0 and no location is written. -/
theorem resetMeetsInv : Obligations.ResetMeetsInv :=
  State.inv_iff.mpr ⟨.inl rfl, ⟨Memory.wf_nil, nofun, fun _ _ _ _ _ => Iff.rfl⟩, fun _ => ⟨rfl, rfl, rfl, rfl⟩,
    State.outputWritten_of_empty rfl⟩

/-- Settles O38: each of the three kinds of move keeps the invariant (`step_next`). -/
theorem stepKeepsInv : Obligations.StepKeepsInv := by
  intro s t h hstep
  rcases step_next hstep with hturn | ⟨a, haccess⟩ | rfl
  · exact h.takeMove.engineTurn hturn
  · exact h.takeMove.hostAccess haccess
  · exact State.Inv.withHost resetMeetsInv _ _ _

end Sys2Proof.Machine
end

section
/-! PROOF. The frames of `ENCODE`, `MATINV` and `DECODE` (R29, R31, R33, R120, R135, R140): a stored row or entry touches
its own offsets only, and a command that fails touches none. -/

namespace Sys2Proof.Machine

/-! ### Reads off the stored bytes -/

/-- Off every byte of every row a read is as before. -/
theorem Memory.read_writeRows_of_ne (mem : Memory) (a stride : Nat) (rows : List (List Byte)) {a' : Nat}
    (h : ∀ i j, (hi : i < rows.length) → j < rows[i].length → a' ≠ a + stride * i + j) :
    (mem.writeRows a stride rows).read a' = mem.read a' := by
  refine Memory.read_writeRows_outside mem a stride rows fun i hi => ?_
  by_contra hin
  exact h i (a' - (a + stride * i)) hi (by omega) (by omega)

/-- Off both bytes of every entry a read is as before. -/
theorem Memory.read_writeHalves_of_ne (mem : Memory) (a : Nat) (vs : List Half) {a' : Nat}
    (h : ∀ i, i < vs.length → a' ≠ a + 2 * i ∧ a' ≠ a + 2 * i + 1) :
    (mem.writeHalves a vs).read a' = mem.read a' := by
  refine Memory.read_writeHalves_outside mem a vs ?_
  by_contra hin
  have hi := h ((a' - a) / 2) (by omega)
  omega

theorem outDataAt_eq (l q b : Nat) : outDataAt l q b = outDataAt l 0 0 + l * q + b := by
  simp only [outDataAt, Nat.zero_mul, Nat.mul_comm l q]
  omega

theorem Memory.read_writeShards_of_ne (mem : Memory) {l : Nat} {shards : List (List Byte)}
    (hrow : ∀ shard ∈ shards, shard.length = l) {a : Nat}
    (h : ¬ ∃ q b, q < shards.length ∧ b < l ∧ a = outDataAt l q b) :
    (mem.writeRows (outDataAt l 0 0) l shards).read a = mem.read a := by
  refine Memory.read_writeRows_of_ne mem _ _ _ fun q b hq hb heq => h ⟨q, b, hq, ?_, ?_⟩
  · exact hrow _ (List.getElem_mem hq) ▸ hb
  · rw [outDataAt_eq]
    exact heq

theorem Memory.read_writeCorner_of_ne (mem : Memory) {n : Nat} {rows : List (List Byte)}
    (hrows : rows.length = n ∧ ∀ row ∈ rows, row.length = n) {a : Nat} (h : ¬ matCornerRegion n a) :
    (mem.writeRows (matAt 0 0) 256 rows).read a = mem.read a := by
  obtain ⟨hlen, hrow⟩ := hrows
  refine Memory.read_writeRows_of_ne mem _ _ _ fun i j hi hj heq => h ⟨i, j, hlen ▸ hi, ?_, ?_⟩
  · exact hrow _ (List.getElem_mem hi) ▸ hj
  · rw [heq, matAt, matAt]
    omega

/-! ### The frames -/

/-- A command that does not end in success changes no buffer. -/
theorem exec_mem_of_not_done {i : Instr} {s t : State} (h : exec i s = .next t) (hs : t.status ≠ 0x00000002) :
    t.mem = s.mem := by
  rcases exec_next h with ⟨u, -, rfl⟩ | ⟨e, -, rfl⟩
  · exact absurd rfl hs
  · rfl

/-- Settles O20: the recovery shards are stored at their own addresses. -/
theorem encodeFrame : Obligations.EncodeFrame := by
  intro s t h
  refine ⟨exec_sameBesidesResults h, ?_⟩
  rcases exec_next h with ⟨u, hu, rfl⟩ | ⟨e, -, rfl⟩
  · obtain ⟨-, shards, hshards, rfl⟩ := ruleEncode_ok hu
    obtain ⟨hlen, hrow⟩ := recoveryShards_size hshards
    refine ⟨rfl, exec_mem_of_not_done h, fun a ha => Memory.read_writeShards_of_ne s.mem hrow ?_⟩
    rw [hlen]
    exact ha
  · exact ⟨rfl, fun _ => rfl, fun a _ => rfl⟩

/-- Settles O24: the inverse is stored on the corner it was read from. -/
theorem matinvFrame : Obligations.MatinvFrame := by
  intro s t h
  refine ⟨exec_sameBesidesResults h, ?_⟩
  rcases exec_next h with ⟨u, hu, rfl⟩ | ⟨e, -, rfl⟩
  · obtain ⟨-, mat, inv, hmat, hinv, rfl⟩ := ruleMatinv_ok hu
    have hsize := gfMatinv_size (State.matCorner_length hmat) hinv
    exact ⟨rfl, rfl, rfl, rfl, exec_mem_of_not_done h, fun a ha => Memory.read_writeCorner_of_ne s.mem hsize ha⟩
  · exact ⟨rfl, rfl, rfl, rfl, fun _ => rfl, fun a _ => rfl⟩

theorem RecoverySizes.outCount_toNat {s : State} {missing sel : List Nat} {inv shards : List (List Byte)}
    (h : RecoverySizes s missing sel inv shards) :
    (s.writeRecovered missing sel inv shards).outCount.toNat = missing.length := by
  have hk := h.missing_le.trans h.valid
  show (BitVec.ofNat 32 missing.length).toNat = _
  rw [BitVec.toNat_ofNat]
  omega

/-- What a reconstruction stores, by the number of shards it returns. -/
theorem RecoverySizes.frame {s : State} {missing sel : List Nat} {inv shards : List (List Byte)}
    (h : RecoverySizes s missing sel inv shards) {a : Nat}
    (hdata : ¬ ∃ q b, q < missing.length ∧ b < s.lNat ∧ a = outDataAt s.lNat q b)
    (hidx : ¬ ∃ q, q < missing.length ∧ (a = outIdxAt q ∨ a = outIdxAt q + 1))
    (hcorner : ¬ matCornerRegion s.kNat a)
    (hsel : ¬ ∃ i, i < s.kNat ∧ (a = selAt i ∨ a = selAt i + 1)) :
    (s.writeRecovered missing sel inv shards).mem.read a = s.mem.read a := by
  obtain ⟨hlen, hrow⟩ := h.shards
  show (((_ : Memory).writeRows _ _ inv).writeHalves _ _).read a = _
  rw [Memory.read_writeHalves_of_ne, Memory.read_writeCorner_of_ne _ h.inverse hcorner, Memory.read_writeHalves_of_ne,
    Memory.read_writeShards_of_ne _ hrow (hlen ▸ hdata)]
  · intro q hq
    rw [List.length_map] at hq
    exact not_or.mp fun heq => hidx ⟨q, hq, heq⟩
  · intro i hi
    rw [List.length_map, h.sel_length] at hi
    exact not_or.mp fun heq => hsel ⟨i, hi, heq⟩

/-- Settles O31: the shards, indices, inverse and selection of a reconstruction are stored at their own addresses, and one
that returns no shard is none (R146). -/
theorem decodeFrame : Obligations.DecodeFrame := by
  intro s t h
  refine ⟨exec_sameBesidesResults h, ?_⟩
  rcases exec_next h with ⟨u, hu, rfl⟩ | ⟨e, -, rfl⟩
  · rcases ruleDecode_stored hu with rfl | ⟨missing, sel, inv, shards, hsize, rfl⟩
    · exact ⟨rfl, fun _ => rfl, fun a _ => rfl⟩
    · have hcount := hsize.outCount_toNat
      refine ⟨rfl, fun hzero => ?_, fun a ha => ?_⟩
      · have hnone : missing.length = 0 := hcount.symm.trans (congrArg BitVec.toNat hzero)
        exact absurd (List.length_eq_zero_iff.mp hnone) hsize.some_missing
      · rw [State.succeed_outCount, hcount] at ha
        obtain ⟨hdata, hrest⟩ := not_or.mp ha
        obtain ⟨hidx, hrest⟩ := not_or.mp hrest
        obtain ⟨hcorner, hsel⟩ := not_or.mp hrest
        exact hsize.frame hdata hidx hcorner hsel
  · exact ⟨rfl, fun _ => rfl, fun a _ => rfl⟩

end Sys2Proof.Machine
end

section
/-! PROOF. The idle block's answers to the host (R20, R28, R30, R38, R53, R55): one rule per kind of access. -/

namespace Sys2Proof.Machine

section Idle

variable {s : State} (hidle : s.busy = false)
include hidle

/-! ### Registers -/

theorem State.hostAccess_readReg (r : Reg) : s.hostAccess (.read r.offset 4) = .next (s.deliver (s.readReg r)) := by
  simp [State.hostAccess, State.hostRead, resolve_offset, hidle]

theorem State.hostAccess_writeReg (r : Reg) (v : Word) :
    s.hostAccess (.write r.offset 4 v) = .next (s.writeReg r v) := by
  simp [State.hostAccess, State.hostWrite, resolve_offset, hidle]

/-! ### Buffer elements -/

theorem State.hostAccess_readElement {b : Buffer} {off n : Nat} (hr : resolve off n = some (.elem b off)) :
    s.hostAccess (.read off n) = .next (s.readElement b off) := by
  simp [State.hostAccess, State.hostRead, hr, hidle]

theorem State.hostAccess_writeElement {b : Buffer} {off n : Nat} (hr : resolve off n = some (.elem b off)) (v : Word) :
    s.hostAccess (.write off n v) = .next (s.writeElement b off v) := by
  simp [State.hostAccess, State.hostWrite, hr, hidle]

end Idle

/-- Every entry of a buffer of entries is reached at twice its number. -/
theorem resolve_entry {b : Buffer} (h2 : b.elemBytes = 2) {p : Nat} (hp : p < 256) :
    resolve (b.base + 2 * p) 2 = some (.elem b (b.base + 2 * p)) := by
  obtain ⟨hsize, -, -⟩ := Buffer.entries_layout h2
  have h := resolve_element (b := b) (off := 2 * p) (by rw [h2]; omega) (by omega)
  rwa [h2] at h

/-- Every byte of a buffer of bytes is reached at its number. -/
theorem resolve_byte {b : Buffer} (h1 : b.elemBytes = 1) {off : Nat} (hoff : off < b.size) :
    resolve (b.base + off) 1 = some (.elem b (b.base + off)) := by
  have h := resolve_element (b := b) (off := off) (by rw [h1]; omega) (by omega)
  rwa [h1] at h

theorem State.element_entry {s : State} {b : Buffer} (h2 : b.elemBytes = 2) (off : Nat) :
    s.element b off = (s.mem.readHalf off).map (·.setWidth 32) := if_pos h2

theorem State.element_byte {s : State} {b : Buffer} (h1 : b.elemBytes = 1) (off : Nat) :
    s.element b off = (s.mem.read off).map (·.setWidth 32) := if_neg (by omega)

theorem State.hostAccess_read_written {s : State} (hidle : s.busy = false) {b : Buffer} {off n : Nat}
    (hr : resolve off n = some (.elem b off)) {v : Word} (hv : s.element b off = some v) :
    s.hostAccess (.read off n) = .next { s with replies := v :: s.replies } := by
  rw [State.hostAccess_readElement hidle hr, State.readElement, hv]
  rfl

/-- The same right after a store. -/
theorem State.hostAccess_read_stored {s : State} (hidle : s.busy = false) {mem : Memory} {b : Buffer} {off n : Nat}
    (hr : resolve off n = some (.elem b off)) {v : Word} (hv : State.element { s with mem := mem } b off = some v) :
    State.hostAccess { s with mem := mem } (.read off n) = .next { s with mem := mem, replies := v :: s.replies } :=
  State.hostAccess_read_written (s := { s with mem := mem }) hidle hr hv

theorem State.hostAccess_read_unwritten {s : State} (hidle : s.busy = false) {b : Buffer} {off n : Nat}
    (hr : resolve off n = some (.elem b off)) (hv : s.element b off = none) :
    s.hostAccess (.read off n) = .next { s with replies := s.drawn b :: s.replies, draws := s.draws + 1 } := by
  rw [State.hostAccess_readElement hidle hr, State.readElement, hv]
  rfl

theorem Buffer.entries_of_name {b : Buffer} (h : b = .sel ∨ b = .inIdx ∨ b = .outIdx) : b.elemBytes = 2 := by
  rcases h with rfl | rfl | rfl <;> rfl

theorem Buffer.bytes_of_name {b : Buffer} (h : b = .mat ∨ b = .inData ∨ b = .outData) : b.elemBytes = 1 := by
  rcases h with rfl | rfl | rfl <;> rfl

theorem Memory.readHalf_of_bytes {mem : Memory} {a : Nat} {lo hi : Byte} (hlo : mem.read a = some lo)
    (hhi : mem.read (a + 1) = some hi) : mem.readHalf a = some (hi ++ lo) := by
  rw [Memory.readHalf, hlo, hhi]

theorem Memory.readHalf_of_unwritten {mem : Memory} {a : Nat} (h : mem.read a = none ∨ mem.read (a + 1) = none) :
    mem.readHalf a = none := by
  rw [← Option.not_isSome_iff_eq_none, Memory.isSome_readHalf]
  rintro ⟨hlo, hhi⟩
  rcases h with h | h
  · simp [h] at hlo
  · simp [h] at hhi

/-! ### Storing an element -/

theorem Memory.read_writeHalf_low (mem : Memory) (a : Nat) (v : Half) :
    (mem.writeHalf a v).read a = some (v.extractLsb' 0 8) :=
  Memory.read_writeBytes_inside mem a (halfBytes v) (i := 0) (by simp [halfBytes_length])

theorem Memory.read_writeHalf_high (mem : Memory) (a : Nat) (v : Half) :
    (mem.writeHalf a v).read (a + 1) = some (v.extractLsb' 8 8) :=
  Memory.read_writeBytes_inside mem a (halfBytes v) (i := 1) (by simp [halfBytes_length])

theorem Memory.read_writeHalf_other (mem : Memory) {a a' : Nat} (v : Half) (h0 : a' ≠ a) (h1 : a' ≠ a + 1) :
    (mem.writeHalf a v).read a' = mem.read a' :=
  Memory.read_writeBytes_outside mem a (halfBytes v) (by rw [halfBytes_length]; omega)

section Write

variable {s : State} {b : Buffer} (hw : b.hostWritable = true)
include hw

theorem State.writeElement_entry (h2 : b.elemBytes = 2) (off : Nat) (v : Word) :
    s.writeElement b off v = { s with mem := s.mem.writeHalf off (v.setWidth 16) } := by
  rw [State.writeElement, if_pos hw, if_pos h2]

theorem State.writeElement_byte (h1 : b.elemBytes = 1) (off : Nat) (v : Word) :
    s.writeElement b off v = { s with mem := s.mem.write off (v.setWidth 8) } := by
  rw [State.writeElement, if_pos hw, if_neg (by omega)]

/-- A byte the host writes into a buffer of bytes is stored and reads back. -/
theorem State.hostAccess_write_read_byte (hidle : s.busy = false) (h1 : b.elemBytes = 1) {off : Nat}
    (hoff : off < b.size) (v : Word) :
    ∃ t, s.hostAccess (.write (b.base + off) 1 v) = .next t ∧ t = { s with mem := t.mem } ∧
      t.mem.read (b.base + off) = some (v.extractLsb' 0 8) ∧
      (∀ a, a ≠ b.base + off → t.mem.read a = s.mem.read a) ∧
      t.hostAccess (.read (b.base + off) 1) = .next { t with replies := (v.extractLsb' 0 8).setWidth 32 :: t.replies } := by
  have hr := resolve_byte h1 hoff
  rw [State.hostAccess_writeElement hidle hr, State.writeElement_byte hw h1,
    BitVec.setWidth_eq_extractLsb' (x := v) (w := 8) (by decide)]
  refine ⟨_, rfl, rfl, Memory.read_write_same _ _ _, fun a ha => Memory.read_write_other _ _ ha, ?_⟩
  refine State.hostAccess_read_stored hidle hr ?_
  rw [State.element_byte h1, Memory.read_write_same]
  rfl

end Write

/-- Settles O40: the registers are 0 one by one, and an empty memory lists no location. -/
theorem resetRegistersAreZero : Obligations.ResetRegistersAreZero :=
  ⟨fun r => by cases r <;> rfl, rfl, rfl, fun _ => rfl⟩

/-- Settles O43: each offset is its register's (R20), whose value is delivered. -/
theorem registerReadsDeliver : Obligations.RegisterReadsDeliver := by
  intro s hidle
  have hread := State.hostAccess_readReg hidle
  exact ⟨hread .cmd, hread .status, hread .k, hread .m, hread .l, hread .inLen, hread .inCount, hread .inMode,
    hread .outLen, hread .outCount, hread .outMode, hread .res⟩

/-- Settles O44: each offset is its register's (R20), which keeps the low bits of its width. -/
theorem registerWritesKeepTheirWidth : Obligations.RegisterWritesKeepTheirWidth := by
  intro s v hidle
  have hwrite := fun r => State.hostAccess_writeReg hidle r v
  rw [← BitVec.setWidth_eq_extractLsb' (x := v) (w := 16) (by decide),
    ← BitVec.setWidth_eq_extractLsb' (x := v) (w := 1) (by decide)]
  exact ⟨hwrite .status, hwrite .k, hwrite .m, hwrite .l, hwrite .inLen, hwrite .inCount, hwrite .inMode,
    hwrite .outLen, hwrite .outCount, hwrite .outMode, hwrite .res⟩

/-- Settles O48: the three buffers are not the host's to write. -/
theorem readOnlyBuffersKeepTheirContent : Obligations.ReadOnlyBuffersKeepTheirContent := by
  intro s v hidle
  refine ⟨fun p hp => ⟨?_, ?_⟩, fun a ha => ?_⟩
  · exact State.hostAccess_writeElement hidle (resolve_entry (b := .sel) rfl hp) v
  · exact State.hostAccess_writeElement hidle (resolve_entry (b := .outIdx) rfl hp) v
  · have hsize : a < Buffer.size .outData := ha.trans_eq (Nat.one_mul _).symm
    exact State.hostAccess_writeElement hidle (resolve_byte (b := .outData) rfl hsize) v

/-- Settles O46: what is stored is at the element's bytes, and a read finds it there. -/
theorem elementWriteReadsBack : Obligations.ElementWriteReadsBack := by
  intro s v hidle
  refine ⟨fun p hp => ?_, fun off hoff => ?_⟩
  · have hr : resolve (inIdxAt p) 2 = some (.elem .inIdx (inIdxAt p)) := resolve_entry (b := .inIdx) rfl hp
    have hlow : (v.setWidth 16).extractLsb' 0 8 = v.extractLsb' 0 8 := BitVec.extractLsb'_setWidth_of_le (by decide)
    have hhigh : (v.setWidth 16).extractLsb' 8 8 = v.extractLsb' 8 8 := BitVec.extractLsb'_setWidth_of_le (by decide)
    rw [State.hostAccess_writeElement hidle hr, State.writeElement_entry rfl rfl,
      ← BitVec.setWidth_eq_extractLsb' (x := v) (w := 16) (by decide), ← hlow, ← hhigh]
    refine ⟨_, rfl, rfl, Memory.read_writeHalf_low _ _ _, Memory.read_writeHalf_high _ _ _,
      fun a h0 h1 => Memory.read_writeHalf_other _ _ h0 h1, ?_⟩
    refine State.hostAccess_read_stored hidle hr ?_
    rw [State.element_entry rfl, Memory.readHalf_writeHalf_same]
    rfl
  · rcases hoff with ⟨hlo, hhi⟩ | ⟨hlo, hhi⟩
    · obtain ⟨d, rfl⟩ := Nat.exists_eq_add_of_le hlo
      have hd : d < Buffer.size .mat := by
        show d < 0x10000
        omega
      exact State.hostAccess_write_read_byte (b := .mat) rfl hidle rfl hd v
    · obtain ⟨d, rfl⟩ := Nat.exists_eq_add_of_le hlo
      have hd : d < Buffer.size .inData := by
        show d < 0xFFFF00
        omega
      exact State.hostAccess_write_read_byte (b := .inData) rfl hidle rfl hd v

/-- Settles O47: the element is found at its offset, holds a value and is delivered. -/
theorem elementReadDelivers : Obligations.ElementReadDelivers := by
  intro s hidle
  refine ⟨fun b p v hb hp hv => ?_, fun b off v hb hoff hv => ?_, fun a lo hi hlo hhi => Memory.readHalf_of_bytes hlo hhi⟩
  · have h2 := Buffer.entries_of_name hb
    exact State.hostAccess_read_written hidle (resolve_entry h2 hp) (by rw [State.element_entry h2, hv]; rfl)
  · have h1 := Buffer.bytes_of_name hb
    exact State.hostAccess_read_written hidle (resolve_byte h1 hoff) (by rw [State.element_byte h1, hv]; rfl)

/-- Settles O49: the element is found at its offset, holds no value, and the next draw is delivered. -/
theorem unwrittenHostReadIsFree : Obligations.UnwrittenHostReadIsFree := by
  intro s hidle
  refine ⟨fun b p hb hp hnone => ?_, fun b off hb hoff hnone => ?_⟩
  · have h2 := Buffer.entries_of_name hb
    have hv : s.element b (b.base + 2 * p) = none := by
      rw [State.element_entry h2, Memory.readHalf_of_unwritten hnone]
      rfl
    rw [State.hostAccess_read_unwritten hidle (resolve_entry h2 hp) hv, State.drawn, if_pos h2]
  · have h1 := Buffer.bytes_of_name hb
    have hv : s.element b (b.base + off) = none := by
      rw [State.element_byte h1, hnone]
      rfl
    rw [State.hostAccess_read_unwritten hidle (resolve_byte h1 hoff) hv, State.drawn, if_neg (by omega)]

end Sys2Proof.Machine
end

section
/-! PROOF. GF(2^8) is a field (spec/40_gf_arith.md R90 to R99): the laws of the product, from the tables, and the embedding
of the byte operations into a field of Mathlib's, in which sums and polynomials can be used. -/

namespace Sys2Proof.Machine

/-! ### The tables -/

theorem expAt_logAt : ∀ a : Byte, a ≠ 0x00 → logAt a < 255 ∧ expAt (logAt a) = a := by decide +kernel

theorem logAt_expAt : ∀ i, i < 255 → expAt i ≠ 0x00 ∧ logAt (expAt i) = i := by decide +kernel

/-- A nonzero element is a power of `ALPHA` (R93). -/
theorem exists_expAt {a : Byte} (ha : a ≠ 0x00) : ∃ i, a = expAt (i % 255) := by
  obtain ⟨hlt, hexp⟩ := expAt_logAt a ha
  exact ⟨logAt a, by rw [Nat.mod_eq_of_lt hlt, hexp]⟩

theorem expAt_ne_zero (i : Nat) : expAt (i % 255) ≠ 0x00 := (logAt_expAt _ (Nat.mod_lt i (by decide))).1

theorem gfMul_expAt (i j : Nat) : gfMul (expAt (i % 255)) (expAt (j % 255)) = expAt ((i + j) % 255) := by
  rw [gfMul, if_neg (not_or.mpr ⟨expAt_ne_zero i, expAt_ne_zero j⟩), (logAt_expAt _ (Nat.mod_lt i (by decide))).2,
    (logAt_expAt _ (Nat.mod_lt j (by decide))).2, ← Nat.add_mod]

/-! ### The sum -/

theorem gfAdd_self (a : Byte) : gfAdd a a = 0x00 := BitVec.xor_self

theorem gfAdd_comm (a b : Byte) : gfAdd a b = gfAdd b a := BitVec.xor_comm a b

theorem gfAdd_zero (a : Byte) : gfAdd a 0x00 = a := BitVec.xor_zero

/-! ### The product -/

theorem gfMul_zero_left (b : Byte) : gfMul 0x00 b = 0x00 := if_pos (.inl rfl)

theorem gfMul_zero_right (a : Byte) : gfMul a 0x00 = 0x00 := if_pos (.inr rfl)

theorem gfMul_comm (a b : Byte) : gfMul a b = gfMul b a := by
  simp only [gfMul, Nat.add_comm (logAt a), or_comm (a := a = 0x00)]

theorem gfMul_assoc (a b c : Byte) : gfMul (gfMul a b) c = gfMul a (gfMul b c) := by
  by_cases ha : a = 0x00
  · rw [ha, gfMul_zero_left, gfMul_zero_left, gfMul_zero_left]
  by_cases hb : b = 0x00
  · rw [hb, gfMul_zero_right, gfMul_zero_left, gfMul_zero_right]
  by_cases hc : c = 0x00
  · rw [hc, gfMul_zero_right, gfMul_zero_right, gfMul_zero_right]
  obtain ⟨i, rfl⟩ := exists_expAt ha
  obtain ⟨j, rfl⟩ := exists_expAt hb
  obtain ⟨k, rfl⟩ := exists_expAt hc
  rw [gfMul_expAt, gfMul_expAt, gfMul_expAt, gfMul_expAt, Nat.add_assoc]

theorem gfMul_one_left : ∀ a : Byte, gfMul 0x01 a = a := by decide +kernel

theorem gfMul_one_right (a : Byte) : gfMul a 0x01 = a := by
  rw [gfMul_comm, gfMul_one_left]

/-- No zero divisors: a product of powers is a power. -/
theorem gfMul_eq_zero {a b : Byte} : gfMul a b = 0x00 ↔ a = 0x00 ∨ b = 0x00 := by
  refine ⟨fun h => ?_, fun h => if_pos h⟩
  by_contra hne
  obtain ⟨ha, hb⟩ := not_or.mp hne
  obtain ⟨i, rfl⟩ := exists_expAt ha
  obtain ⟨j, rfl⟩ := exists_expAt hb
  rw [gfMul_expAt] at h
  exact expAt_ne_zero _ h

theorem gfMul_gfQuot_one : ∀ b : Byte, b ≠ 0x00 → gfMul b (gfQuot 0x01 b) = 0x01 := by decide +kernel

/-! ### Distributivity: the product by `ALPHA` is linear, and every nonzero element is one of its powers -/

theorem gfMul_alpha : ∀ b : Byte, gfMul Config.ALPHA b = timesAlpha Config.POLY b := by decide +kernel

theorem timesAlpha_gfAdd (poly : BitVec 9) (x y : Byte) :
    timesAlpha poly (gfAdd x y) = gfAdd (timesAlpha poly x) (timesAlpha poly y) := by
  refine BitVec.eq_of_getLsbD_eq fun i hi => ?_
  rw [gfAdd, gfAdd, BitVec.getLsbD_xor, getLsbD_timesAlpha _ _ hi, getLsbD_timesAlpha _ _ hi, getLsbD_timesAlpha _ _ hi,
    BitVec.setWidth_xor, BitVec.shiftLeft_xor_distrib, BitVec.getLsbD_xor, BitVec.getLsbD_xor, Bool.and_xor_distrib_right]
  simp only [Bool.xor_assoc, Bool.xor_left_comm]

theorem gfMul_gfAdd (a b c : Byte) : gfMul a (gfAdd b c) = gfAdd (gfMul a b) (gfMul a c) := by
  by_cases ha : a = 0x00
  · rw [ha, gfMul_zero_left, gfMul_zero_left, gfMul_zero_left]
    rfl
  obtain ⟨i, rfl⟩ := exists_expAt ha
  induction i with
  | zero =>
    rw [show expAt (0 % 255) = 0x01 by decide, gfMul_one_left, gfMul_one_left, gfMul_one_left]
  | succ i ih =>
    have hsucc : expAt ((i + 1) % 255) = gfMul Config.ALPHA (expAt (i % 255)) := by
      rw [Nat.add_comm, ← gfMul_expAt]
      rfl
    rw [hsucc, gfMul_assoc, ih (expAt_ne_zero i), gfMul_alpha, timesAlpha_gfAdd, ← gfMul_alpha, ← gfMul_alpha,
      gfMul_assoc, gfMul_assoc]

/-! ### The field -/

/-- The inverse, with 0 for 0 as Mathlib's fields have it. -/
def gfInverse (b : Byte) : Byte := if b = 0x00 then 0x00 else gfQuot 0x01 b

theorem gfMul_gfInverse (b : Byte) (hb : b ≠ 0x00) : gfMul b (gfInverse b) = 0x01 := by
  rw [gfInverse, if_neg hb, gfMul_gfQuot_one b hb]

/-- GF(2^8) with the operations of R91, R92 and R96. -/
@[reducible] def gfField : Field Byte :=
  @Field.ofMinimalAxioms Byte ⟨gfAdd⟩ ⟨gfMul⟩ ⟨id⟩ ⟨gfInverse⟩ ⟨0x00⟩ ⟨0x01⟩ BitVec.xor_assoc
    (fun _ => BitVec.zero_xor) gfAdd_self gfMul_assoc gfMul_comm gfMul_one_left gfMul_gfInverse rfl
    gfMul_gfAdd ⟨0x00, 0x01, (by decide : (0x00 : Byte) ≠ 0x01)⟩

/-- An embedding of the bytes, with `gf_add` and `gf_mul`, into a field. -/
structure GfEmbedding (F : Type) [Field F] where
  toField : Byte → F
  injective : Function.Injective toField
  map_gfAdd : ∀ a b, toField (gfAdd a b) = toField a + toField b
  map_gfMul : ∀ a b, toField (gfMul a b) = toField a * toField b

theorem exists_gfEmbedding : ∃ (F : Type) (_ : Field F), Nonempty (GfEmbedding F) :=
  ⟨Byte, gfField, ⟨@GfEmbedding.mk Byte gfField id Function.injective_id (fun _ _ => rfl) fun _ _ => rfl⟩⟩

section Embedding

variable {F : Type} [Field F] (φ : GfEmbedding F)

@[simp] theorem GfEmbedding.map_zero : φ.toField 0x00 = 0 := by
  have h := φ.map_gfAdd 0x00 0x00
  rwa [show gfAdd 0x00 0x00 = 0x00 from rfl, left_eq_add] at h

theorem GfEmbedding.eq_zero_iff {a : Byte} : φ.toField a = 0 ↔ a = 0x00 := by
  rw [← φ.map_zero, φ.injective.eq_iff]

@[simp] theorem GfEmbedding.map_one : φ.toField 0x01 = 1 := by
  have h := φ.map_gfMul 0x01 0x01
  have hne : φ.toField 0x01 ≠ 0 := fun h0 => absurd (φ.eq_zero_iff.mp h0) (by decide)
  rw [gfMul_one_left] at h
  exact (mul_eq_left₀ hne).mp h.symm

/-- Each element is its own opposite (R91), so a sum is a difference. -/
theorem GfEmbedding.map_gfAdd_sub (a b : Byte) : φ.toField (gfAdd a b) = φ.toField a - φ.toField b := by
  have h := φ.map_gfAdd (gfAdd a b) b
  rw [show gfAdd (gfAdd a b) b = a by simp [gfAdd]] at h
  exact eq_sub_of_add_eq h.symm

theorem GfEmbedding.map_gfQuot_one {b : Byte} (hb : b ≠ 0x00) : φ.toField (gfQuot 0x01 b) = (φ.toField b)⁻¹ := by
  refine eq_inv_of_mul_eq_one_right ?_
  rw [← φ.map_gfMul, gfMul_gfQuot_one b hb, φ.map_one]

theorem GfEmbedding.map_xorAll (xs : List Byte) : φ.toField (xorAll xs) = (xs.map φ.toField).sum := by
  induction xs with
  | nil => exact φ.map_zero
  | cons x xs ih => rw [xorAll, φ.map_gfAdd, ih, List.map_cons, List.sum_cons]

theorem GfEmbedding.map_xorOver (n : Nat) (e : Nat → Byte) :
    φ.toField (xorOver n e) = ∑ i ∈ Finset.range n, φ.toField (e i) := by
  rw [xorOver, φ.map_xorAll, List.map_map, ← List.sum_toFinset, List.toFinset_range]
  · rfl
  · exact List.nodup_range

end Embedding

end Sys2Proof.Machine
end

section
/-! PROOF. The MDS property of the generator matrix (R110, R111, R114): any `k` distinct rows annihilate only the zero
vector. The Cauchy rows give a polynomial with as many roots as rows and a smaller degree. -/

namespace Sys2Proof.Machine

section Cauchy

open Polynomial

variable {F ι κ : Type} [Field F] [DecidableEq ι]

/-- The numerator of `∑ c ∈ M, x c / (X - y c)` over the common denominator. -/
noncomputable def cauchyNumerator (M : Finset ι) (y x : ι → F) : F[X] :=
  ∑ c ∈ M, C (x c) * ∏ d ∈ M.erase c, (X - C (y d))

theorem eval_cauchyNumerator (M : Finset ι) (y x : ι → F) (z : F) :
    (cauchyNumerator M y x).eval z = ∑ c ∈ M, x c * ∏ d ∈ M.erase c, (z - y d) := by
  simp [cauchyNumerator, eval_finsetSum, eval_prod]

theorem degree_cauchyNumerator_lt (M : Finset ι) (y x : ι → F) : (cauchyNumerator M y x).degree < M.card := by
  refine (Polynomial.degree_sum_le _ _).trans_lt ((Finset.sup_lt_iff (WithBot.bot_lt_coe _)).mpr fun c hc => ?_)
  have hcard : (M.erase c).card < M.card := Finset.card_erase_lt_of_mem hc
  calc (C (x c) * ∏ d ∈ M.erase c, (X - C (y d))).degree
      ≤ (C (x c)).degree + (∏ d ∈ M.erase c, (X - C (y d))).degree := Polynomial.degree_mul_le _ _
    _ ≤ 0 + ((M.erase c).card : WithBot ℕ) := add_le_add Polynomial.degree_C_le (by simp [Polynomial.degree_prod])
    _ < (M.card : WithBot ℕ) := by
      rw [zero_add]
      exact_mod_cast hcard

/-- A square Cauchy matrix annihilates only the zero vector. -/
theorem cauchy_injective {M : Finset ι} {R : Finset κ} {r : κ → F} {y x : ι → F} (hr : Set.InjOn r R)
    (hy : Set.InjOn y M) (hne : ∀ g ∈ R, ∀ c ∈ M, r g ≠ y c) (hcard : M.card ≤ R.card)
    (h : ∀ g ∈ R, ∑ c ∈ M, (r g - y c)⁻¹ * x c = 0) {c : ι} (hc : c ∈ M) : x c = 0 := by
  have hroots : ∀ g ∈ R, (cauchyNumerator M y x).eval (r g) = 0 := by
    intro g hg
    have hterm : ∀ d ∈ M, x d * ∏ e ∈ M.erase d, (r g - y e) = (∏ e ∈ M, (r g - y e)) * ((r g - y d)⁻¹ * x d) := by
      intro d hd
      have hd0 : r g - y d ≠ 0 := sub_ne_zero.mpr (hne g hg d hd)
      rw [← Finset.mul_prod_erase M _ hd]
      field_simp
    rw [eval_cauchyNumerator, Finset.sum_congr rfl hterm, ← Finset.mul_sum, h g hg, mul_zero]
  have hzero : cauchyNumerator M y x = 0 :=
    Polynomial.eq_zero_of_degree_lt_of_eval_index_eq_zero R hr
      ((degree_cauchyNumerator_lt M y x).trans_le (by exact_mod_cast hcard)) hroots
  have hother : ∀ d ∈ M, d ≠ c → x d * ∏ e ∈ M.erase d, (y c - y e) = 0 := fun d _ hd => by
    rw [Finset.prod_eq_zero (Finset.mem_erase.mpr ⟨hd.symm, hc⟩) (sub_self _), mul_zero]
  have hprod : ∏ e ∈ M.erase c, (y c - y e) ≠ 0 := Finset.prod_ne_zero_iff.mpr fun e he =>
    sub_ne_zero.mpr fun heq => (Finset.mem_erase.mp he).1 (hy (Finset.mem_erase.mp he).2 hc heq.symm)
  have heval := eval_cauchyNumerator M y x (y c)
  rw [hzero, eval_zero, Finset.sum_eq_single_of_mem c hc hother] at heval
  exact (mul_eq_zero.mp heval.symm).resolve_right hprod

end Cauchy

section Generator

variable {F : Type} [Field F] (φ : GfEmbedding F)

/-- The field element of an index (R111). -/
def GfEmbedding.point (g : Nat) : F := φ.toField (BitVec.ofNat 8 g)

theorem GfEmbedding.point_injective {g h : Nat} (hg : g < 256) (hh : h < 256) (heq : φ.point g = φ.point h) : g = h := by
  have hnat := congrArg BitVec.toNat (φ.injective heq)
  rwa [BitVec.toNat_ofNat, BitVec.toNat_ofNat, Nat.mod_eq_of_lt hg, Nat.mod_eq_of_lt hh] at hnat

/-- A Cauchy entry is the inverse of the difference of its points (R110, R111). -/
theorem GfEmbedding.map_genValue {k g c : Nat} (hk : k ≤ g) (hg : g < 256) (hc : c < k) :
    φ.toField (genValue k g c) = (φ.point g - φ.point c)⁻¹ := by
  have hne : gfAdd (BitVec.ofNat 8 g) (BitVec.ofNat 8 c) ≠ 0x00 := by
    intro h0
    have hpoint := φ.point_injective hg (by omega) (congrArg φ.toField (BitVec.xor_eq_zero_iff.mp h0))
    omega
  rw [genValue, if_neg (by omega)]
  exact (φ.map_gfQuot_one hne).trans (congrArg _ (φ.map_gfAdd_sub _ _))

/-- An identity row picks one entry. -/
theorem xorOver_identityRow {k g : Nat} (hg : g < k) (x : Nat → Byte) :
    xorOver k (fun c => gfMul (genValue k g c) (x c)) = x g := by
  obtain ⟨F, _, ⟨φ⟩⟩ := exists_gfEmbedding
  refine φ.injective ?_
  rw [φ.map_xorOver, Finset.sum_eq_single_of_mem g (Finset.mem_range.mpr hg)]
  · rw [genValue, if_pos hg, if_pos rfl, gfMul_one_left]
  · intro c _ hc
    rw [genValue, if_pos hg, if_neg hc.symm, gfMul_zero_left, φ.map_zero]

/-- As many present recovery indices as missing originals, where `k` distinct indices are present. -/
theorem card_missing_eq_card_recovery {k : Nat} {sel : List Nat} (hlen : sel.length = k) (hd : sel.Nodup) :
    ((Finset.range k).filter (· ∉ sel)).card = (sel.toFinset.filter (¬ · < k)).card := by
  have hpresent : (Finset.range k).filter (· ∈ sel) = sel.toFinset.filter (· < k) := by
    ext g
    simp [and_comm]
  have hrange := Finset.card_filter_add_card_filter_not (s := Finset.range k) (· ∈ sel)
  have hsel := Finset.card_filter_add_card_filter_not (s := sel.toFinset) (· < k)
  rw [List.toFinset_card_of_nodup hd, hlen] at hsel
  rw [Finset.card_range, hpresent] at hrange
  omega

/-- Any `k` distinct rows of the generator matrix annihilate only the zero vector (R114). -/
theorem generatorRows_injective {k m : Nat} {sel : List Nat} (hkm : k + m ≤ 256) (hlen : sel.length = k)
    (hd : sel.Nodup) (hr : ∀ g ∈ sel, g < k + m) {x : Nat → Byte}
    (h : ∀ g ∈ sel, xorOver k (fun c => gfMul (genValue k g c) (x c)) = 0x00) {c : Nat} (hc : c < k) : x c = 0x00 := by
  have hpresent : ∀ c, c < k → c ∈ sel → x c = 0x00 := fun c hc hmem => (xorOver_identityRow hc x) ▸ h c hmem
  by_cases hmem : c ∈ sel
  · exact hpresent c hc hmem
  obtain ⟨F, _, ⟨φ⟩⟩ := exists_gfEmbedding
  have hrecovery : ∀ g ∈ sel.toFinset.filter (¬ · < k), k ≤ g ∧ g < 256 ∧ g ∈ sel := by
    intro g hg
    obtain ⟨hgsel, hgk⟩ := Finset.mem_filter.mp hg
    have hgkm := hr g (List.mem_toFinset.mp hgsel)
    exact ⟨by omega, by omega, List.mem_toFinset.mp hgsel⟩
  have hmissing : ∀ c ∈ (Finset.range k).filter (· ∉ sel), c < k := fun c hc =>
    Finset.mem_range.mp (Finset.mem_filter.mp hc).1
  have hrows : ∀ g ∈ sel.toFinset.filter (¬ · < k),
      ∑ c ∈ (Finset.range k).filter (· ∉ sel), (φ.point g - φ.point c)⁻¹ * φ.toField (x c) = 0 := by
    intro g hg
    obtain ⟨hgk, hg256, hgsel⟩ := hrecovery g hg
    have hrow := congrArg φ.toField (h g hgsel)
    rw [φ.map_xorOver, φ.map_zero] at hrow
    rw [← hrow, Finset.sum_filter]
    refine Finset.sum_congr rfl fun c hc => ?_
    have hck := Finset.mem_range.mp hc
    split
    · rw [φ.map_gfMul, φ.map_genValue hgk hg256 hck]
    · rename_i hcsel
      rw [hpresent c hck (not_not.mp hcsel), gfMul_zero_right, φ.map_zero]
  refine φ.eq_zero_iff.mp (cauchy_injective (r := φ.point) (y := φ.point) (fun g hg g' hg' heq => ?_)
    (fun c hc c' hc' heq => ?_) (fun g hg c hc heq => ?_) (card_missing_eq_card_recovery hlen hd).le hrows
    (Finset.mem_filter.mpr ⟨Finset.mem_range.mpr hc, hmem⟩))
  · obtain ⟨-, hg256, -⟩ := hrecovery g hg
    obtain ⟨-, hg256', -⟩ := hrecovery g' hg'
    exact φ.point_injective hg256 hg256' heq
  · have hck := hmissing c hc
    have hck' := hmissing c' hc'
    exact φ.point_injective (by omega) (by omega) heq
  · obtain ⟨hgk, hg256, -⟩ := hrecovery g hg
    have hck := hmissing c hc
    have hsame := φ.point_injective hg256 (by omega) heq
    omega

end Generator

end Sys2Proof.Machine
end

section
/-! PROOF. Gauss-Jordan elimination (R130 to R132): the row operations keep the solutions of `W x = V y`, and a column
without a pivot has a solution of `W x = 0` that is not zero. So a matrix that annihilates only the zero vector is
inverted. -/

namespace Sys2Proof.Machine

/-! ### A row times a column -/

theorem gfDot_nil_right (row : List Byte) : gfDot row [] = 0x00 := by
  rw [gfDot, List.zipWith_nil_right, xorAll]

theorem gfDot_cons (a b : Byte) (row col : List Byte) :
    gfDot (a :: row) (b :: col) = gfAdd (gfMul a b) (gfDot row col) := rfl

theorem gfDot_map_gfMul (d : Byte) (row col : List Byte) : gfDot (row.map (gfMul d)) col = gfMul d (gfDot row col) := by
  induction row generalizing col with
  | nil => exact (gfMul_zero_right d).symm
  | cons a row ih =>
    cases col with
    | nil => rw [gfDot_nil_right, gfDot_nil_right, gfMul_zero_right]
    | cons b col => rw [List.map_cons, gfDot_cons, gfDot_cons, ih, gfMul_gfAdd, gfMul_assoc]

theorem gfDot_zipWith_addMul (f : Byte) {row p : List Byte} (hlen : row.length = p.length) (col : List Byte) :
    gfDot (List.zipWith (fun x y => gfAdd x (gfMul f y)) row p) col = gfAdd (gfDot row col) (gfMul f (gfDot p col)) := by
  obtain ⟨F, _, ⟨φ⟩⟩ := exists_gfEmbedding
  induction row generalizing p col with
  | nil =>
    cases p with
    | nil =>
      rw [show gfDot [] col = 0x00 from rfl, gfMul_zero_right]
      rfl
    | cons b p => cases hlen
  | cons a row ih =>
    cases p with
    | nil => cases hlen
    | cons b p =>
      cases col with
      | nil =>
        rw [gfDot_nil_right, gfDot_nil_right, gfDot_nil_right, gfMul_zero_right]
        rfl
      | cons c col =>
        rw [List.zipWith_cons_cons, gfDot_cons, gfDot_cons, gfDot_cons, ih (Nat.succ.inj hlen)]
        refine φ.injective ?_
        simp only [φ.map_gfAdd, φ.map_gfMul]
        ring

theorem gfDot_eq_xorOver {n : Nat} {row col : List Byte} (hrow : row.length = n) (hcol : col.length = n) :
    gfDot row col = xorOver n (fun j => gfMul (row.getD j 0x00) (col.getD j 0x00)) := by
  rw [gfDot, xorOver]
  refine congrArg xorAll (List.ext_getElem (by simp [hrow, hcol]) fun j hj _ => ?_)
  rw [List.length_zipWith, hrow, hcol, Nat.min_self] at hj
  simp [hrow, hcol, hj]

/-! ### Rows of the two working matrices -/

/-- Row `r` of the two working matrices. -/
def workRow (rows : List WorkRow) (r : Nat) : WorkRow := rows.getD r ⟨[], []⟩

theorem workEntry_eq (rows : List WorkRow) (r c : Nat) : workEntry rows r c = (workRow rows r).w.getD c 0x00 := rfl

/-- Both working matrices are `n × n`. -/
def WorkSized (n : Nat) (rows : List WorkRow) : Prop :=
  rows.length = n ∧ ∀ r, r < n → (workRow rows r).w.length = n ∧ (workRow rows r).v.length = n

theorem workRow_swapRows {rows : List WorkRow} {i j : Nat} (hi : i < rows.length) (hj : j < rows.length) (r : Nat) :
    workRow (swapRows rows i j) r = workRow rows (Equiv.swap i j r) := by
  simp only [workRow, swapRows, List.getD_eq_getElem?_getD, List.getElem?_set, List.length_set, Equiv.swap_apply_def]
  by_cases hri : r = i
  · subst hri
    by_cases hjr : j = r
    · simp [hjr, hi]
    · simp [hjr, hi]
  · by_cases hrj : r = j
    · subst hrj
      simp [hri, hj]
    · simp [hri, hrj, Ne.symm hri, Ne.symm hrj]

theorem workRow_eliminate {rows : List WorkRow} {r : Nat} (hr : r < rows.length) (c : Nat) (p : WorkRow) :
    workRow (eliminate rows c p) r = if r = c then p else (workRow rows r).addMul (workEntry rows r c) p := by
  simp [workRow, workEntry, eliminate, List.getD_eq_getElem?_getD, hr]

theorem WorkRow.scale_w_getD (row : WorkRow) (d : Byte) (j : Nat) :
    (row.scale d).w.getD j 0x00 = gfMul d (row.w.getD j 0x00) := by
  rw [WorkRow.scale, ← gfMul_zero_right d, List.getD_map, gfMul_zero_right]

theorem WorkRow.addMul_w_getD {row p : WorkRow} (hlen : row.w.length = p.w.length) (f : Byte) (j : Nat) :
    (row.addMul f p).w.getD j 0x00 = gfAdd (row.w.getD j 0x00) (gfMul f (p.w.getD j 0x00)) := by
  by_cases hj : j < p.w.length
  · simp [WorkRow.addMul, hlen, hj]
  · have hadd : (row.addMul f p).w.length ≤ j := by
      rw [WorkRow.addMul, List.length_zipWith]
      omega
    rw [List.getD_eq_default _ _ hadd, List.getD_eq_default row.w _ (by omega), List.getD_eq_default p.w _ (by omega),
      gfMul_zero_right, gfAdd_zero]

/-! ### The solutions of `W x = V y` -/

/-- What the row's equation leaves, zero for a solution. -/
def WorkRow.residue (row : WorkRow) (x y : List Byte) : Byte := gfAdd (gfDot row.w x) (gfDot row.v y)

/-- The vectors solve every row's equation. -/
def Solves (rows : List WorkRow) (x y : List Byte) : Prop :=
  ∀ r, r < rows.length → (workRow rows r).residue x y = 0x00

theorem WorkRow.residue_scale (row : WorkRow) (d : Byte) (x y : List Byte) :
    (row.scale d).residue x y = gfMul d (row.residue x y) := by
  rw [residue, residue, scale, gfDot_map_gfMul, gfDot_map_gfMul, gfMul_gfAdd]

theorem WorkRow.residue_addMul {row p : WorkRow} (hw : row.w.length = p.w.length) (hv : row.v.length = p.v.length)
    (f : Byte) (x y : List Byte) : (row.addMul f p).residue x y = gfAdd (row.residue x y) (gfMul f (p.residue x y)) := by
  obtain ⟨F, _, ⟨φ⟩⟩ := exists_gfEmbedding
  rw [residue, residue, residue, addMul, gfDot_zipWith_addMul f hw, gfDot_zipWith_addMul f hv]
  refine φ.injective ?_
  simp only [φ.map_gfAdd, φ.map_gfMul]
  ring

theorem swap_lt {n i j r : Nat} (hi : i < n) (hj : j < n) (hr : r < n) : Equiv.swap i j r < n := by
  rw [Equiv.swap_apply_def]
  split_ifs <;> assumption

theorem solves_swapRows {rows : List WorkRow} {i j : Nat} (hi : i < rows.length) (hj : j < rows.length)
    (x y : List Byte) : Solves (swapRows rows i j) x y ↔ Solves rows x y := by
  unfold Solves
  rw [swapRows_length]
  constructor
  · intro h r hr
    have := h (Equiv.swap i j r) (swap_lt hi hj hr)
    rwa [workRow_swapRows hi hj, Equiv.swap_apply_self] at this
  · intro h r hr
    rw [workRow_swapRows hi hj]
    exact h _ (swap_lt hi hj hr)

/-- The pivot row scaled by `d ≠ 0` and added to the others: each equation follows from the others' and back. -/
theorem solves_eliminate {n : Nat} {rows : List WorkRow} (hs : WorkSized n rows) {c : Nat} (hc : c < n) {d : Byte}
    (hd : d ≠ 0x00) (x y : List Byte) :
    Solves (eliminate rows c ((workRow rows c).scale d)) x y ↔ Solves rows x y := by
  obtain ⟨hlen, hsize⟩ := hs
  unfold Solves
  rw [eliminate_length, hlen]
  have hpivot : (workRow (eliminate rows c ((workRow rows c).scale d)) c).residue x y =
      gfMul d ((workRow rows c).residue x y) := by
    rw [workRow_eliminate (by omega), if_pos rfl, WorkRow.residue_scale]
  have hother : ∀ r, r < n → r ≠ c → (workRow (eliminate rows c ((workRow rows c).scale d)) r).residue x y =
      gfAdd ((workRow rows r).residue x y)
        (gfMul (workEntry rows r c) (gfMul d ((workRow rows c).residue x y))) := by
    intro r hr hrc
    rw [workRow_eliminate (by omega), if_neg hrc, WorkRow.residue_addMul, WorkRow.residue_scale]
    · rw [WorkRow.scale_w_length, (hsize r hr).1, (hsize c hc).1]
    · rw [WorkRow.scale_v_length, (hsize r hr).2, (hsize c hc).2]
  constructor
  · intro h
    have hzero : (workRow rows c).residue x y = 0x00 := (gfMul_eq_zero.mp (hpivot ▸ h c hc)).resolve_left hd
    intro r hr
    by_cases hrc : r = c
    · rw [hrc, hzero]
    · rw [← h r hr, hother r hr hrc, hzero, gfMul_zero_right, gfMul_zero_right, gfAdd_zero]
  · intro h r hr
    by_cases hrc : r = c
    · rw [hrc, hpivot, h c hc, gfMul_zero_right]
    · rw [hother r hr hrc, h r hr, h c hc, gfMul_zero_right, gfMul_zero_right, gfAdd_zero]

theorem WorkSized.swapRows {n : Nat} {rows : List WorkRow} (hs : WorkSized n rows) {i j : Nat} (hi : i < n) (hj : j < n) :
    WorkSized n (swapRows rows i j) := by
  obtain ⟨hlen, hsize⟩ := hs
  refine ⟨(swapRows_length rows i j).trans hlen, fun r hr => ?_⟩
  rw [workRow_swapRows (by omega) (by omega)]
  exact hsize _ (swap_lt hi hj hr)

theorem WorkSized.eliminate {n : Nat} {rows : List WorkRow} (hs : WorkSized n rows) {c : Nat} (hc : c < n) (d : Byte) :
    WorkSized n (eliminate rows c ((workRow rows c).scale d)) := by
  obtain ⟨hlen, hsize⟩ := hs
  obtain ⟨hw, hv⟩ := hsize c hc
  refine ⟨(eliminate_length rows c _).trans hlen, fun r hr => ?_⟩
  rw [workRow_eliminate (by omega)]
  split
  · exact ⟨(WorkRow.scale_w_length _ _).trans hw, (WorkRow.scale_v_length _ _).trans hv⟩
  · simp [WorkRow.addMul, WorkRow.scale, hsize r hr, hw, hv]

/-! ### One turn of the loop -/

/-- The columns below `c` are those of the identity. -/
def UnitColumns (n c : Nat) (rows : List WorkRow) : Prop :=
  ∀ r j, r < n → j < c → workEntry rows r j = if r = j then 0x01 else 0x00

/-- A found pivot can be divided by. -/
theorem exists_pivotColumn {n : Nat} {rows : List WorkRow} (hs : WorkSized n rows) {c p : Nat} (hc : c < n)
    (hp : findPivot n rows c = some p) : ∃ rows', pivotColumn n rows c = .ok rows' := by
  obtain ⟨hlen, -⟩ := hs
  obtain ⟨hcp, hpn, hne⟩ := findPivot_range hp
  have hentry : workEntry (swapRows rows c p) c c ≠ 0x00 := by
    rw [workEntry_eq, workRow_swapRows (by omega) (by omega), Equiv.swap_apply_left]
    exact hne
  rw [pivotColumn, hp]
  simp only [gfInv, gfDiv, if_neg hentry]
  exact ⟨_, rfl⟩

/-- What a turn of the loop does: it exchanges rows from the diagonal downwards, and divides by a nonzero pivot. -/
theorem pivotColumn_turn {n : Nat} {rows rows' : List WorkRow} {c : Nat} (h : pivotColumn n rows c = .ok rows') :
    ∃ p d, c ≤ p ∧ (c < n → p < n) ∧ gfMul d (workEntry (swapRows rows c p) c c) = 0x01 ∧
      rows' = eliminate (swapRows rows c p) c ((workRow (swapRows rows c p) c).scale d) := by
  obtain ⟨p, d, hp, hd, rfl⟩ := pivotColumn_ok h
  obtain ⟨hcp, hpn, -⟩ := findPivot_range hp
  obtain ⟨hne, rfl⟩ := gfDiv_ok hd
  exact ⟨p, _, hcp, fun _ => by omega, (gfMul_comm _ _).trans (gfMul_gfQuot_one _ hne), rfl⟩

section Turn

variable {n c : Nat} {rows rows' : List WorkRow} (hs : WorkSized n rows) (hc : c < n)
  (h : pivotColumn n rows c = .ok rows')
include hs hc h

theorem pivotColumn_sized : WorkSized n rows' := by
  obtain ⟨p, d, -, hp, -, rfl⟩ := pivotColumn_turn h
  exact (hs.swapRows hc (hp hc)).eliminate hc d

theorem solves_pivotColumn (x y : List Byte) : Solves rows' x y ↔ Solves rows x y := by
  obtain ⟨p, d, -, hp, hd, rfl⟩ := pivotColumn_turn h
  have hpn := hp hc
  have hlen : rows.length = n := hs.1
  have hd0 : d ≠ 0x00 := by
    rintro rfl
    rw [gfMul_zero_left] at hd
    exact absurd hd (by decide)
  rw [solves_eliminate (hs.swapRows hc hpn) hc hd0, solves_swapRows (by omega) (by omega)]

theorem unitColumns_pivotColumn (hu : UnitColumns n c rows) : UnitColumns n (c + 1) rows' := by
  obtain ⟨p, d, hcp, hp, hd, rfl⟩ := pivotColumn_turn h
  have hpn := hp hc
  have hlen : rows.length = n := hs.1
  obtain ⟨hlen', hsize'⟩ := hs.swapRows hc hpn
  have hswapped : UnitColumns n c (swapRows rows c p) := by
    intro r j hr hj
    have hsame : Equiv.swap c p r = j ↔ r = j := by
      rw [Equiv.swap_apply_def]
      split_ifs <;> omega
    rw [workEntry_eq, workRow_swapRows (by omega) (by omega), ← workEntry_eq, hu _ j (swap_lt hc hpn hr) hj]
    simp only [hsame]
  have hpivot : ∀ j, j < c + 1 →
      ((workRow (swapRows rows c p) c).scale d).w.getD j 0x00 = if c = j then 0x01 else 0x00 := by
    intro j hj
    rw [WorkRow.scale_w_getD, ← workEntry_eq]
    by_cases hcj : c = j
    · rw [if_pos hcj, ← hcj, hd]
    · rw [if_neg hcj, hswapped c j hc (by omega), if_neg hcj, gfMul_zero_right]
  intro r j hr hj
  rw [workEntry_eq, workRow_eliminate (by omega)]
  by_cases hrc : r = c
  · rw [if_pos hrc, hpivot j hj, hrc]
  · have hw : (workRow (swapRows rows c p) r).w.length = ((workRow (swapRows rows c p) c).scale d).w.length := by
      rw [WorkRow.scale_w_length, (hsize' r hr).1, (hsize' c hc).1]
    rw [if_neg hrc, WorkRow.addMul_w_getD hw, hpivot j hj, ← workEntry_eq]
    by_cases hcj : c = j
    · rw [if_pos hcj, if_neg (hcj ▸ hrc), ← hcj, gfMul_one_right, gfAdd_self]
    · rw [if_neg hcj, gfMul_zero_right, gfAdd_zero, hswapped r j hr (by omega)]

end Turn

/-! ### A column without a pivot -/

/-- With unit columns below `c` and no pivot in column `c`: a solution of `W x = 0` with `x c = 1`. -/
def kernelVector (n c : Nat) (rows : List WorkRow) : List Byte :=
  (List.range n).map (fun j => if j < c then workEntry rows j c else if j = c then 0x01 else 0x00)

theorem findPivot_none {n : Nat} {rows : List WorkRow} {c : Nat} (h : findPivot n rows c = none) {r : Nat} (hcr : c ≤ r)
    (hr : r < n) : workEntry rows r c = 0x00 := by
  have hzero := List.find?_eq_none.mp h r (List.mem_range'_1.mpr ⟨hcr, by omega⟩)
  simpa using hzero

theorem kernelVector_getD {n c j : Nat} (hj : j < n) (rows : List WorkRow) :
    (kernelVector n c rows).getD j 0x00 = if j < c then workEntry rows j c else if j = c then 0x01 else 0x00 := by
  simp [kernelVector, hj]

/-- Of a row's products with the vector two are left: the one on the diagonal, and the one in column `c`. -/
theorem mul_kernelVector {n c : Nat} {rows : List WorkRow} (hu : UnitColumns n c rows) {r j : Nat} (hr : r < n)
    (hj : j < n) :
    gfMul (workEntry rows r j) ((kernelVector n c rows).getD j 0x00) =
      gfAdd (if j = r then (if r < c then workEntry rows r c else 0x00) else 0x00)
        (if j = c then workEntry rows r c else 0x00) := by
  have hdiagonal : c ≤ j → (if j = r then (if r < c then workEntry rows r c else 0x00) else 0x00) = 0x00 := by
    intro hcj
    split_ifs
    · omega
    · rfl
    · rfl
  rw [kernelVector_getD hj]
  rcases Nat.lt_trichotomy j c with hjc | rfl | hcj
  · rw [if_pos hjc, if_neg hjc.ne, hu r j hr hjc, gfAdd_zero]
    by_cases hrj : r = j
    · subst hrj
      rw [if_pos rfl, if_pos rfl, if_pos hjc, gfMul_one_left]
    · rw [if_neg hrj, if_neg (Ne.symm hrj), gfMul_zero_left]
  · rw [if_neg (Nat.lt_irrefl j), if_pos rfl, if_pos rfl, gfMul_one_right, hdiagonal le_rfl, gfAdd_comm, gfAdd_zero]
  · rw [if_neg (by omega), if_neg (by omega), hdiagonal hcj.le, if_neg (by omega), gfMul_zero_right, gfAdd_zero]

theorem solves_kernelVector {n c : Nat} {rows : List WorkRow} (hs : WorkSized n rows) (hc : c < n)
    (hu : UnitColumns n c rows) (hp : findPivot n rows c = none) : Solves rows (kernelVector n c rows) [] := by
  obtain ⟨hlen, hsize⟩ := hs
  intro r hr
  have hrn : r < n := hlen ▸ hr
  obtain ⟨F, _, ⟨φ⟩⟩ := exists_gfEmbedding
  have hcancel : gfAdd (if r < c then workEntry rows r c else 0x00) (workEntry rows r c) = 0x00 := by
    split
    · exact gfAdd_self _
    · rw [findPivot_none hp (by omega) hrn, gfAdd_zero]
  rw [WorkRow.residue, gfDot_nil_right, gfAdd_zero, gfDot_eq_xorOver (hsize r hrn).1 (by simp [kernelVector])]
  refine φ.injective (Eq.trans ?_ (congrArg φ.toField hcancel))
  rw [φ.map_xorOver, φ.map_gfAdd]
  calc ∑ j ∈ Finset.range n, φ.toField (gfMul (workEntry rows r j) ((kernelVector n c rows).getD j 0x00))
      = ∑ j ∈ Finset.range n, ((if j = r then φ.toField (if r < c then workEntry rows r c else 0x00) else 0) +
          if j = c then φ.toField (workEntry rows r c) else 0) := by
        refine Finset.sum_congr rfl fun j hj => ?_
        rw [mul_kernelVector hu hrn (Finset.mem_range.mp hj), φ.map_gfAdd, apply_ite φ.toField (j = r),
          apply_ite φ.toField (j = c), φ.map_zero]
    _ = _ := by
        rw [Finset.sum_add_distrib, Finset.sum_ite_eq', Finset.sum_ite_eq', if_pos (Finset.mem_range.mpr hrn),
          if_pos (Finset.mem_range.mpr hc)]

theorem exists_pivotColumns {n : Nat} {rows : List WorkRow} {c m : Nat} (hcm : c + m = n) (hs : WorkSized n rows)
    (hu : UnitColumns n c rows) (hx : ∀ x, x.length = n → Solves rows x [] → ∀ b ∈ x, b = 0x00) :
    ∃ rows', pivotColumns n (List.range' c m) rows = .ok rows' := by
  induction m generalizing c rows with
  | zero => exact ⟨rows, rfl⟩
  | succ m ih =>
    have hc : c < n := by omega
    cases hp : findPivot n rows c with
    | none =>
      have hone : (0x01 : Byte) ∈ kernelVector n c rows := List.mem_map.mpr ⟨c, List.mem_range.mpr hc, by simp⟩
      exact absurd (hx _ (by simp [kernelVector]) (solves_kernelVector hs hc hu hp) _ hone) (by decide)
    | some p =>
      obtain ⟨rows₁, h₁⟩ := exists_pivotColumn hs hc hp
      rw [List.range'_succ, pivotColumns, h₁]
      exact ih (by omega) (pivotColumn_sized hs hc h₁) (unitColumns_pivotColumn hs hc h₁ hu)
        fun x hlen hsol => hx x hlen ((solves_pivotColumn hs hc h₁ x []).mp hsol)

theorem workRow_workStart {n : Nat} {mat : List (List Byte)} {r : Nat} (hr : r < mat.length) :
    workRow (workStart n mat) r = ⟨mat[r], identityRow n r⟩ := by
  simp [workRow, workStart, hr]

/-- A matrix that annihilates only the zero vector is inverted (R130, R131). -/
theorem gfMatinv_of_injective {n : Nat} {mat : List (List Byte)} (hlen : mat.length = n)
    (hrow : ∀ row ∈ mat, row.length = n)
    (hx : ∀ x, x.length = n → (∀ row ∈ mat, gfDot row x = 0x00) → ∀ b ∈ x, b = 0x00) :
    ∃ inv, gfMatinv n mat = .ok inv := by
  have hstart : WorkSized n (workStart n mat) := by
    refine ⟨by simp [workStart, hlen], fun r hr => ?_⟩
    rw [workRow_workStart (by omega)]
    exact ⟨hrow _ (List.getElem_mem _), by simp [identityRow]⟩
  have hsolve : ∀ x, Solves (workStart n mat) x [] → ∀ row ∈ mat, gfDot row x = 0x00 := by
    intro x hsol row hmem
    obtain ⟨r, hr, rfl⟩ := List.getElem_of_mem hmem
    have heq := hsol r (by simpa [workStart] using hr)
    rwa [workRow_workStart hr, WorkRow.residue, gfDot_nil_right, gfAdd_zero] at heq
  obtain ⟨rows, hrows⟩ := exists_pivotColumns (Nat.zero_add n) hstart (fun _ j _ hj => absurd hj (Nat.not_lt_zero j))
    fun x hl hsol => hx x hl (hsolve x hsol)
  rw [gfMatinv, List.range_eq_range', hrows]
  exact ⟨_, rfl⟩

end Sys2Proof.Machine
end

section
/-! PROOF. Commands that read a location without a value (R38, R140, R147, R183, U1): the reads are collected, and the
first that stops ends the rule with a refusal. For `DECODE` the inversion before the reads of the shards never stops. -/

namespace Sys2Proof.Machine

/-! ### The submatrix is inverted -/

theorem gfDot_generatorRow {k : Nat} (g : Nat) {x : List Byte} (hx : x.length = k) :
    gfDot ((List.range k).map (genValue k g)) x = xorOver k (fun c => gfMul (genValue k g c) (x.getD c 0x00)) := by
  rw [gfDot_eq_xorOver (by rw [List.length_map, List.length_range]) hx]
  refine congrArg xorAll (List.map_congr_left fun c hc => ?_)
  have hentry : ((List.range k).map (genValue k g)).getD c 0x00 = genValue k g c := by
    simp [List.mem_range.mp hc]
  rw [hentry]

/-- The selected rows of the generator matrix are inverted (R114, R149). -/
theorem exists_gfMatinv_submatrix {k m : Nat} {sel : List Nat} (hv : validKm k m = true) (hlen : sel.length = k)
    (hd : sel.Nodup) (hr : ∀ g ∈ sel, g < k + m) :
    ∃ sub inv, submatrix k m sel = .ok sub ∧ gfMatinv k sub = .ok inv := by
  have hsub : submatrix k m sel = .ok (sel.map fun g => (List.range k).map (genValue k g)) :=
    collect_eq_map fun g hg => genRow_valid hv (hr g hg)
  have hrow : ∀ row ∈ sel.map (fun g => (List.range k).map (genValue k g)), row.length = k := by
    intro row hmem
    obtain ⟨g, -, rfl⟩ := List.mem_map.mp hmem
    rw [List.length_map, List.length_range]
  obtain ⟨inv, hinv⟩ := gfMatinv_of_injective ((List.length_map _).trans hlen) hrow fun x hx hzero b hb => by
    obtain ⟨c, hc, rfl⟩ := List.getElem_of_mem hb
    have hrows : ∀ g ∈ sel, xorOver k (fun c => gfMul (genValue k g c) (x.getD c 0x00)) = 0x00 := fun g hg =>
      (gfDot_generatorRow g hx).symm.trans (hzero _ (List.mem_map.mpr ⟨g, hg, rfl⟩))
    have hxc := generatorRows_injective (validKm_bounds hv).2 hlen hd hr hrows (hx ▸ hc)
    rwa [List.getD_eq_getElem _ _ hc] at hxc
  exact ⟨_, inv, hsub, hinv⟩

/-! ### Collections that stop -/

/-- Where one element stops, the collection stops, and with a stop of one of its elements. -/
theorem collect_stops_with {α β ε : Type} {f : α → Except ε β} {xs : List α} {P : ε → Prop} {x : α} (hx : x ∈ xs)
    {e : ε} (h : f x = .error e) (hP : ∀ y ∈ xs, ∀ e, f y = .error e → P e) : ∃ e, collect f xs = .error e ∧ P e := by
  obtain ⟨e', he'⟩ := collect_stops hx h
  obtain ⟨y, hy, hye⟩ := collect_error he'
  exact ⟨e', he', hP y hy e' hye⟩

/-- The stop is the refusal of a byte that holds no value. -/
def Memory.RefusesByte (mem : Memory) (x : Stop) : Prop := ∃ off, mem.read off = none ∧ x = .refuse (.unwrittenRead off)

theorem error_bind {ε α β : Type} (e : ε) (f : α → Except ε β) : ((.error e : Except ε α) >>= f) = .error e := rfl

theorem ok_bind {ε α β : Type} (a : α) (f : α → Except ε β) : ((.ok a : Except ε α) >>= f) = f a := rfl

section Reads

variable {s : State}

theorem State.engineByte_refuses {off : Nat} {x : Stop} (h : s.engineByte off = .error x) : s.mem.RefusesByte x := by
  obtain ⟨hnone, rfl⟩ := State.engineByte_error.mp h
  exact ⟨off, hnone, rfl⟩

theorem State.engineByte_of_unwritten {off : Nat} (h : s.mem.read off = none) :
    s.engineByte off = .error (.refuse (.unwrittenRead off)) :=
  State.engineByte_error.mpr ⟨h, rfl⟩

theorem State.combineShards_refuses {row : List Byte} {ps : List Nat} {x : Stop} (h : s.combineShards row ps = .error x) :
    s.mem.RefusesByte x := by
  obtain ⟨p, -, b, -, hnone, rfl⟩ := State.combineShards_error h
  exact ⟨_, hnone, rfl⟩

theorem State.combineShards_of_unwritten (row : List Byte) {ps : List Nat} {p b : Nat} (hp : p ∈ ps) (hb : b < s.lNat)
    (hnone : s.mem.read (inDataAt s.lNat p b) = none) : ∃ x, s.combineShards row ps = .error x := by
  obtain ⟨x, hcolumn⟩ : ∃ x, s.inColumn ps b = .error x :=
    collect_stops hp (f := fun p => s.engineByte (inDataAt s.lNat p b)) (State.engineByte_of_unwritten hnone)
  exact collect_stops (List.mem_range.mpr hb) (e := x) (by rw [hcolumn, error_bind])

/-! ### The rules -/

theorem encodeCheck_valid (hk : 1 ≤ s.kNat) (hkm : s.kNat + s.mNat ≤ 256) (hcount : s.countNat = s.kNat)
    (hlen : s.inLen = s.l) : encodeCheck s = none := by
  have hv := validKm_iff.mpr ⟨hk, hkm⟩
  have hl : ¬ Config.LMAX < s.lNat := Nat.not_lt.mpr s.lNat_le
  simp [encodeCheck, hv, hl, hcount, hlen]

theorem ruleEncode_of_unwritten (hk : 1 ≤ s.kNat) (hkm : s.kNat + s.mNat ≤ 256) (hcount : s.countNat = s.kNat)
    (hlen : s.inLen = s.l) (hm : 1 ≤ s.mNat) {p b : Nat} (hp : p < s.kNat) (hb : b < s.lNat)
    (hnone : s.mem.read (inDataAt s.lNat p b) = none) : ∃ x, ruleEncode s = .error x ∧ s.mem.RefusesByte x := by
  have hv := validKm_iff.mpr ⟨hk, hkm⟩
  have hshard : ∀ j, j < s.mNat → ∃ row, s.recoveryShard j = s.combineShards row (List.range s.kNat) := fun j hj =>
    ⟨_, by rw [State.recoveryShard, genRow_valid hv (by omega), ok_bind]⟩
  obtain ⟨row, hrow⟩ := hshard 0 hm
  obtain ⟨y, hy⟩ := State.combineShards_of_unwritten row (List.mem_range.mpr hp) hb hnone
  obtain ⟨x, hx, hrefuse⟩ := collect_stops_with (P := s.mem.RefusesByte) (List.mem_range.mpr hm) (hrow.trans hy)
    fun j hj e he => by
      obtain ⟨row, hrow⟩ := hshard j (List.mem_range.mp hj)
      exact State.combineShards_refuses (hrow.symm.trans he)
  refine ⟨x, ?_, hrefuse⟩
  rw [ruleEncode, encodeCheck_valid hk hkm hcount hlen, raiseIf, ok_bind, hx, error_bind]

theorem ruleMatinv_of_unwritten (hk : 1 ≤ s.kNat) (hk256 : s.kNat ≤ 256) {i j : Nat} (hi : i < s.kNat) (hj : j < s.kNat)
    (hnone : s.mem.read (matAt i j) = none) : ∃ x, ruleMatinv s = .error x ∧ s.mem.RefusesByte x := by
  have hcheck : matinvCheck s.kNat = none := by
    rw [matinvCheck_eq, if_neg (by omega)]
  obtain ⟨y, hy⟩ := collect_stops (f := fun j => s.engineByte (matAt i j)) (List.mem_range.mpr hj)
    (State.engineByte_of_unwritten hnone)
  obtain ⟨x, hcorner, hrefuse⟩ : ∃ x, s.matCorner s.kNat = .error x ∧ s.mem.RefusesByte x :=
    collect_stops_with (f := fun i => collect (fun j => s.engineByte (matAt i j)) (List.range s.kNat))
      (List.mem_range.mpr hi) hy fun i _ e he => by
        obtain ⟨j, -, hread⟩ := collect_error he
        exact State.engineByte_refuses hread
  refine ⟨x, ?_, hrefuse⟩
  rw [ruleMatinv, hcheck, raiseIf, ok_bind, hcorner, error_bind]

theorem decodeHeaderCheck_valid (hk : 1 ≤ s.kNat) (hkm : s.kNat + s.mNat ≤ 256) (hlen : s.inLen = s.l)
    (hcount : s.countNat ≤ 256) : decodeHeaderCheck s = none := by
  have hv := validKm_iff.mpr ⟨hk, hkm⟩
  have hl : ¬ Config.LMAX < s.lNat := Nat.not_lt.mpr s.lNat_le
  simp [decodeHeaderCheck, hv, hl, hlen, hcount]

theorem decodeIndexCheck_valid {k m : Nat} {idx : List Nat} (hd : idx.Nodup) (hr : ∀ g ∈ idx, g < k + m)
    (hk : k ≤ idx.length) : decodeIndexCheck k m idx = none := by
  have hrange : ¬ idx.any (fun i => decide (k + m ≤ i)) = true := by simpa using hr
  rw [decodeIndexCheck, if_neg hrange, if_neg (not_not.mpr hd), if_neg (Nat.not_lt.mpr hk)]

/-- An index of `DECODE` without a value. -/
theorem ruleDecode_of_unwritten_index (hk : 1 ≤ s.kNat) (hkm : s.kNat + s.mNat ≤ 256) (hlen : s.inLen = s.l)
    (hcount : s.countNat ≤ 256) (hmode : s.inMode = 1) {p : Nat} (hp : p < s.countNat)
    (hnone : s.mem.readHalf (inIdxAt p) = none) :
    ∃ off, s.mem.readHalf off = none ∧ ruleDecode s = .error (.refuse (.unwrittenRead off)) := by
  have hread : s.engineHalf (inIdxAt p) = .error (.refuse (.unwrittenRead (inIdxAt p))) :=
    State.engineHalf_error.mpr ⟨hnone, rfl⟩
  obtain ⟨x, hidx, off, hoff, rfl⟩ : ∃ x, s.presentIndices = .error x ∧
      ∃ off, s.mem.readHalf off = none ∧ x = .refuse (.unwrittenRead off) := by
    rw [State.presentIndices, if_pos hmode]
    refine collect_stops_with (List.mem_range.mpr hp) (by rw [hread, error_bind]) fun q _ e he => ?_
    rcases bind_error he with he | ⟨_, _, he⟩
    · exact ⟨_, State.engineHalf_error.mp he⟩
    · cases he
  refine ⟨off, hoff, ?_⟩
  rw [ruleDecode, decodeHeaderCheck_valid hk hkm hlen hcount, raiseIf, ok_bind, hidx, error_bind]

theorem ruleReconstruct_of_unwritten {idx : List Nat} (hv : validKm s.kNat s.mNat = true) (hd : idx.Nodup)
    (hr : ∀ g ∈ idx, g < s.kNat + s.mNat) (henough : s.kNat ≤ idx.length) (hmissing : missingOriginals s.kNat idx ≠ [])
    {p b : Nat} (hp : p < idx.length) (hsel : IsSelected s.kNat idx idx[p]) (hb : b < s.lNat)
    (hnone : s.mem.read (inDataAt s.lNat p b) = none) :
    ∃ x, ruleReconstruct idx s = .error x ∧ s.mem.RefusesByte x := by
  obtain ⟨sub, inv, hsub, hinv⟩ := exists_gfMatinv_submatrix hv (selectShards_length hr hd henough)
    ((selectShards_rising s.kNat s.mNat idx).imp Nat.ne_of_lt) fun g hg => hr g (mem_of_mem_selectShards hg)
  have hpos : p ∈ selectedPositions idx (selectShards s.kNat s.mNat idx) :=
    List.mem_map.mpr ⟨idx[p], (mem_selectShards hd hr _).mpr hsel, hd.idxOf_getElem p hp⟩
  obtain ⟨i, hi⟩ := List.exists_mem_of_ne_nil _ hmissing
  obtain ⟨y, hy⟩ := State.combineShards_of_unwritten (inv.getD i []) hpos hb hnone
  obtain ⟨x, hx, hrefuse⟩ := collect_stops_with (P := s.mem.RefusesByte)
    (f := s.recoveredShard inv (selectedPositions idx (selectShards s.kNat s.mNat idx))) hi hy
    fun _ _ e he => State.combineShards_refuses he
  refine ⟨x, ?_, hrefuse⟩
  simp only [ruleReconstruct, hsub, hinv, ok_bind, hx, error_bind]

/-- A byte of a selected shard without a value: every check passes and the submatrix is inverted before it is read. -/
theorem ruleDecode_of_unwritten_shard {idx : List Nat} (hk : 1 ≤ s.kNat) (hkm : s.kNat + s.mNat ≤ 256)
    (hlen : s.inLen = s.l) (hcarries : s.CarriesIndices idx) (hd : idx.Nodup) (hr : ∀ g ∈ idx, g < s.kNat + s.mNat)
    (henough : s.kNat ≤ idx.length) (hmissing : ∃ i, i < s.kNat ∧ i ∉ idx) {p b : Nat} (hp : p < idx.length)
    (hsel : IsSelected s.kNat idx idx[p]) (hb : b < s.lNat) (hnone : s.mem.read (inDataAt s.lNat p b) = none) :
    ∃ x, ruleDecode s = .error x ∧ s.mem.RefusesByte x := by
  have hcount : s.countNat ≤ 256 := by
    have hsub := (List.subperm_of_subset hd fun g hg => List.mem_range.mpr (hr g hg)).length_le
    rw [List.length_range, hcarries.1] at hsub
    omega
  have hsome : missingOriginals s.kNat idx ≠ [] := by
    obtain ⟨i, hi, hni⟩ := hmissing
    refine List.ne_nil_of_mem (a := i) ?_
    simp [missingOriginals, hi, hni]
  obtain ⟨x, hx, hrefuse⟩ :=
    ruleReconstruct_of_unwritten (validKm_iff.mpr ⟨hk, hkm⟩) hd hr henough hsome hp hsel hb hnone
  refine ⟨x, ?_, hrefuse⟩
  rw [ruleDecode, decodeHeaderCheck_valid hk hkm hlen hcount, raiseIf, ok_bind,
    State.presentIndices_of_carries hcarries, ok_bind, decodeIndexCheck_valid hd hr henough, raiseIf, ok_bind,
    if_neg hsome, hx]

end Reads

theorem exec_refused_of_rule {i : Instr} {s : State} (h : ∃ x, ruleOf i s.clearResults = .error x ∧ s.mem.RefusesByte x) :
    ∃ off, s.mem.read off = none ∧ exec i s = .refused (.unwrittenRead off) := by
  obtain ⟨x, hrule, off, hoff, rfl⟩ := h
  exact ⟨off, hoff, (exec_eq_complete i s).trans (State.complete_of_refuse hrule)⟩

/-- Settles O36: each rule passes its checks and stops at its reads. -/
theorem unwrittenInputIsRefused : Obligations.UnwrittenInputIsRefused := by
  intro s
  refine ⟨fun p b hk hkm hcount hlen hm hp hb hnone => ?_, fun i j hk hk256 hi hj hnone => ?_,
    fun p hk hkm hlen hcount hmode hp hnone => ?_,
    fun idx p b hk hkm hlen hcarries hd hr henough hmissing hp hsel hb hnone => ?_⟩
  · exact exec_refused_of_rule (i := .encode)
      (ruleEncode_of_unwritten (s := s.clearResults) hk hkm hcount hlen hm hp hb hnone)
  · exact exec_refused_of_rule (i := .matinv) (ruleMatinv_of_unwritten (s := s.clearResults) hk hk256 hi hj hnone)
  · obtain ⟨off, hoff, hrule⟩ :=
      ruleDecode_of_unwritten_index (s := s.clearResults) hk hkm hlen hcount hmode hp hnone
    exact ⟨off, hoff, (exec_eq_complete .decode s).trans (State.complete_of_refuse hrule)⟩
  · exact exec_refused_of_rule (i := .decode) (ruleDecode_of_unwritten_shard (s := s.clearResults) hk hkm hlen hcarries
      hd hr henough hmissing hp hsel hb hnone)

end Sys2Proof.Machine
end

section
/-! PROOF. Rejected accesses (R51, R52, R54, R186): the map reaches a target exactly at its aligned elements, and an
access faults exactly where it reaches none. -/

namespace Sys2Proof.Machine

/-! ### What the map reaches -/

/-- A target is a register or an element of one buffer, each inside its own row. -/
theorem performedAccess_of_resolve {off n : Nat} {x : Target} (h : resolve off n = some x) : PerformedAccess off n := by
  cases x with
  | reg r =>
    obtain ⟨rfl, halign, hr⟩ := resolve_reg h
    obtain ⟨hlt, -⟩ := List.getElem?_eq_some_iff.mp hr
    rw [registerRow_length] at hlt
    exact ⟨halign, .inl ⟨rfl, by omega⟩⟩
  | elem b o =>
    obtain ⟨-, hn, halign, hbase, hend⟩ := resolve_elem h
    refine ⟨halign, ?_⟩
    cases b <;> simp only [Buffer.base, Buffer.size, Buffer.elemBytes, Buffer.count, Config.LMAX] at hn hbase hend <;>
      omega

/-- The aligned words of the register row are its twelve registers. -/
theorem resolve_registerRow {off : Nat} (halign : off % 4 = 0) (hend : off + 4 ≤ 0x30) :
    ∃ r, resolve off 4 = some (.reg r) := by
  have hlt : off / 4 < registerRow.length := by rw [registerRow_length]; omega
  have hoff : (registerRow[off / 4]).offset = off := by
    have hidx := List.Nodup.idxOf_getElem (xs := registerRow) (by decide) (off / 4) hlt
    rw [Reg.offset, hidx]
    omega
  have h := resolve_offset registerRow[off / 4]
  rw [hoff] at h
  exact ⟨_, h⟩

/-- `SEL`, `IN_IDX` and `OUT_IDX` follow each other, so an aligned entry between the first base and the last end lies in
one of them. -/
theorem resolve_entryRows {off : Nat} (halign : off % 2 = 0) (hbase : 0x200 ≤ off) (hend : off + 2 ≤ 0x800) :
    ∃ b, resolve off 2 = some (.elem b off) := by
  have hrow : ∃ b : Buffer, b.elemBytes = 2 ∧ b.base ≤ off ∧ off < b.base + 0x200 ∧ b.base % 2 = 0 := by
    by_cases hsel : off < 0x400
    · exact ⟨.sel, rfl, hbase, hsel, rfl⟩
    · by_cases hin : off < 0x600
      · exact ⟨.inIdx, rfl, Nat.not_lt.mp hsel, hin, rfl⟩
      · exact ⟨.outIdx, rfl, Nat.not_lt.mp hin, by simp only [Buffer.base]; omega, rfl⟩
  obtain ⟨b, h2, hlo, hhi, hb⟩ := hrow
  have hoff : b.base + 2 * ((off - b.base) / 2) = off := by omega
  have h := resolve_entry h2 (p := (off - b.base) / 2) (by omega)
  rw [hoff] at h
  exact ⟨b, h⟩

theorem resolve_byteRow {b : Buffer} (h1 : b.elemBytes = 1) {off : Nat} (hbase : b.base ≤ off)
    (hend : off < b.base + b.size) : resolve off 1 = some (.elem b off) := by
  have h := resolve_byte h1 (off := off - b.base) (by omega)
  rwa [Nat.add_sub_cancel' hbase] at h

/-- The map reaches a target exactly by the accesses that R52 performs. -/
theorem resolve_isSome_iff {off n : Nat} : (resolve off n).isSome ↔ PerformedAccess off n := by
  rw [Option.isSome_iff_exists]
  refine ⟨fun ⟨_, hx⟩ => performedAccess_of_resolve hx, ?_⟩
  rintro ⟨halign, ⟨rfl, hend⟩ | ⟨rfl, hbase, hend⟩ | ⟨rfl, hbase, hend⟩ | ⟨rfl, hbase, hend⟩ | ⟨rfl, hbase, hend⟩⟩
  · obtain ⟨r, hr⟩ := resolve_registerRow halign hend
    exact ⟨_, hr⟩
  · obtain ⟨b, hb⟩ := resolve_entryRows halign hbase hend
    exact ⟨_, hb⟩
  · exact ⟨_, resolve_byteRow (b := .mat) rfl hbase hend⟩
  · exact ⟨_, resolve_byteRow (b := .inData) rfl hbase hend⟩
  · exact ⟨_, resolve_byteRow (b := .outData) rfl hbase hend⟩

theorem resolve_eq_none_iff {off n : Nat} : resolve off n = none ↔ ¬ PerformedAccess off n := by
  rw [← resolve_isSome_iff, Option.not_isSome_iff_eq_none]

/-! ### What faults -/

/-- A read faults exactly where it reaches nothing, whatever the block is doing. -/
theorem State.hostAccess_read_eq_fault_iff {s : State} {off n : Nat} {f : Fault} :
    s.hostAccess (.read off n) = .fault f ↔ f = .rejectedAccess off n ∧ ¬ PerformedAccess off n := by
  rw [State.hostAccess, State.hostRead, ← resolve_eq_none_iff]
  cases hr : resolve off n with
  | none => simp [eq_comm]
  | some x => cases x <;> dsimp only <;> split <;> simp

/-- A write faults exactly where it reaches nothing, whatever the block is doing. -/
theorem State.hostAccess_write_eq_fault_iff {s : State} {off n : Nat} {v : Word} {f : Fault} :
    s.hostAccess (.write off n v) = .fault f ↔ f = .rejectedAccess off n ∧ ¬ PerformedAccess off n := by
  rw [State.hostAccess, State.hostWrite, ← resolve_eq_none_iff]
  cases hr : resolve off n with
  | none => simp [eq_comm]
  | some x => cases x <;> dsimp only <;> split <;> simp

/-- Settles O45: an access faults exactly where the map reaches nothing, which is outside the performed accesses. -/
theorem rejectedExactlyOutsideTheMap : Obligations.RejectedExactlyOutsideTheMap := by
  intro s off n v
  refine ⟨fun h => ⟨?_, ?_⟩, fun h f => ⟨fun hf => ?_, fun hf => ?_⟩⟩
  · exact State.hostAccess_read_eq_fault_iff.mpr ⟨rfl, h⟩
  · exact State.hostAccess_write_eq_fault_iff.mpr ⟨rfl, h⟩
  · exact (State.hostAccess_read_eq_fault_iff.mp hf).2 h
  · exact (State.hostAccess_write_eq_fault_iff.mp hf).2 h

end Sys2Proof.Machine
end

section
/-! PROOF. Command words (R70, R71, R73, R74): a word is known by its fields, it selects at most one row of the opcode
map, and the decoder is the encoder's inverse. -/

namespace Sys2Proof

/-! ### The fields of a word -/

/-- Bits 31:24 of a word, which both formats require to be zero (R70). -/
def topField (w : Word) : Byte := w.extractLsb' 24 8

/-- Two words with the same four bytes are one. -/
theorem word_ext {w v : Word} (hop : opField w = opField v) (ha : aField w = aField v) (hb : bField w = bField v)
    (htop : topField w = topField v) : w = v := by
  simp only [opField, aField, bField, topField, BitVec.toNat_eq, BitVec.extractLsb'_toNat,
    Nat.shiftRight_eq_div_pow] at hop ha hb htop
  exact BitVec.eq_of_toNat_eq (by omega)

theorem aField_wordAB (op a b : Byte) : aField (wordAB (op.setWidth 32) a b) = a := by
  ext i hi
  simp [aField, wordAB, hi, show 8 + i < 16 by omega, show 8 + i < 32 by omega]

theorem bField_wordAB (op a b : Byte) : bField (wordAB (op.setWidth 32) a b) = b := by
  ext i hi
  have hop : op.getLsbD (16 + i) = false := BitVec.getLsbD_of_ge op _ (by omega)
  have ha : a.getLsbD (16 + i - 8) = false := BitVec.getLsbD_of_ge a _ (by omega)
  simp [bField, wordAB, hi, hop, ha, show 16 + i < 32 by omega]

/-- A word with zero top bits is the format AB word of its fields (R70). -/
theorem wordAB_fields {w : Word} (htop : topField w = 0x00) :
    wordAB ((opField w).setWidth 32) (aField w) (bField w) = w :=
  word_ext (Laws.Format.opField_wordAB _ _ _) (aField_wordAB _ _ _) (bField_wordAB _ _ _)
    ((Laws.Format.topField_wordAB _ _ _).trans htop.symm)

/-- The mask of format AB keeps `op` and the top bits and clears the operands (R70). -/
theorem and_maskAB (w : Word) : opField (w &&& maskAB) = opField w ∧ aField (w &&& maskAB) = 0x00 ∧
    bField (w &&& maskAB) = 0x00 ∧ topField (w &&& maskAB) = topField w :=
  ⟨BitVec.extractLsb'_and.trans BitVec.and_allOnes, BitVec.extractLsb'_and.trans BitVec.and_zero,
    BitVec.extractLsb'_and.trans BitVec.and_zero, BitVec.extractLsb'_and.trans BitVec.and_allOnes⟩

theorem wordAB_and_maskAB (op a b : Byte) :
    wordAB (op.setWidth 32) a b &&& maskAB = wordAB (op.setWidth 32) 0x00 0x00 := by
  obtain ⟨hop, ha, hb, htop⟩ := and_maskAB (wordAB (op.setWidth 32) a b)
  refine word_ext (hop.trans ?_) (ha.trans (aField_wordAB op 0x00 0x00).symm)
    (hb.trans (bField_wordAB op 0x00 0x00).symm) (htop.trans ?_)
  · rw [Laws.Format.opField_wordAB, Laws.Format.opField_wordAB]
  · exact (Laws.Format.topField_wordAB op a b).trans (Laws.Format.topField_wordAB op 0x00 0x00).symm

/-! ### The row a word selects -/

theorem CommandRow.selects_iff {r : CommandRow} {w : Word} : r.selects w = true ↔ w &&& r.mask = r.pattern :=
  beq_iff_eq

/-- Every row fixes the whole of `op` (R73). -/
theorem opField_of_selects {r : CommandRow} (hr : r ∈ opcodeMap) {w : Word} (h : r.selects w = true) :
    opField w = opField r.pattern := by
  have hmask : opField r.mask = 0xFF := (show ∀ r ∈ opcodeMap, opField r.mask = 0xFF by decide) r hr
  calc
    opField w = opField w &&& opField r.mask := hmask ▸ BitVec.and_allOnes.symm
    _ = opField (w &&& r.mask) := BitVec.extractLsb'_and.symm
    _ = opField r.pattern := congrArg opField (CommandRow.selects_iff.mp h)

/-- No two rows have the same `op` (R73), so a word selects one row at most. -/
theorem row_unique {r r' : CommandRow} (hr : r ∈ opcodeMap) (hr' : r' ∈ opcodeMap) {w : Word}
    (h : r.selects w = true) (h' : r'.selects w = true) : r = r' :=
  List.inj_on_of_nodup_map (show (opcodeMap.map fun r => opField r.pattern).Nodup by decide) hr hr'
    ((opField_of_selects hr h).symm.trans (opField_of_selects hr' h'))

theorem find_row_eq_some_iff {r : CommandRow} {w : Word} :
    opcodeMap.find? (fun r => r.selects w) = some r ↔ r ∈ opcodeMap ∧ r.selects w = true := by
  have hfound : ∀ r', opcodeMap.find? (fun r => r.selects w) = some r' → r' ∈ opcodeMap ∧ r'.selects w = true :=
    fun r' h => ⟨List.mem_of_find?_eq_some h, List.find?_some (p := fun r : CommandRow => r.selects w) h⟩
  refine ⟨hfound r, fun ⟨hr, h⟩ => ?_⟩
  have hsome : (opcodeMap.find? fun r => r.selects w).isSome := List.find?_isSome.mpr ⟨r, hr, h⟩
  obtain ⟨r', hfind⟩ := Option.isSome_iff_exists.mp hsome
  obtain ⟨hr', h'⟩ := hfound r' hfind
  rw [hfind, row_unique hr hr' h h']

theorem decodeWord_of_selects {r : CommandRow} (hr : r ∈ opcodeMap) {w : Word} (h : r.selects w = true) :
    decodeWord w = .ok (r.build (aField w) (bField w)) := by
  rw [decodeWord, find_row_eq_some_iff.mpr ⟨hr, h⟩]

theorem decodeWord_ok {w : Word} {i : Instr} (h : decodeWord w = .ok i) :
    ∃ r ∈ opcodeMap, r.selects w = true ∧ i = r.build (aField w) (bField w) := by
  unfold decodeWord at h
  split at h
  · rename_i r hfind
    obtain ⟨hr, hsel⟩ := find_row_eq_some_iff.mp hfind
    exact ⟨r, hr, hsel, (Except.ok.inj h).symm⟩
  · split at h <;> cases h

/-! ### The decoder and the encoder -/

/-- A format AB row reads both operands back (R71). -/
theorem decodeWord_wordAB {op : Byte} {build : Byte → Byte → Instr}
    (hr : ⟨wordAB (op.setWidth 32) 0x00 0x00, maskAB, build⟩ ∈ opcodeMap) (a b : Byte) :
    decodeWord (wordAB (op.setWidth 32) a b) = .ok (build a b) := by
  rw [decodeWord_of_selects hr (CommandRow.selects_iff.mpr (wordAB_and_maskAB op a b)), aField_wordAB, bField_wordAB]

theorem decodeWord_encode (i : Instr) : decodeWord (encode i) = .ok i := by
  cases i with
  | gfadd a b => exact decodeWord_wordAB (op := 0x01) (by simp [opcodeMap, wordAB]) a b
  | gfmul a b => exact decodeWord_wordAB (op := 0x02) (by simp [opcodeMap, wordAB]) a b
  | gfdiv a b => exact decodeWord_wordAB (op := 0x03) (by simp [opcodeMap, wordAB]) a b
  | genq r c => exact decodeWord_wordAB (op := 0x04) (by simp [opcodeMap, wordAB]) r c
  | encode | matinv | decode => rfl

/-- A word that selects a format AB row is that row's word with its own operands: `op` and the top bits are the
pattern's. -/
theorem wordAB_of_selects {w : Word} {op : Byte} (h : w &&& maskAB = wordAB (op.setWidth 32) 0x00 0x00) :
    wordAB (op.setWidth 32) (aField w) (bField w) = w := by
  obtain ⟨hop, -, -, htop⟩ := and_maskAB w
  rw [h, Laws.Format.opField_wordAB] at hop
  rw [h] at htop
  rw [hop]
  exact wordAB_fields (htop.symm.trans (Laws.Format.topField_wordAB op 0x00 0x00))

theorem encode_of_decodeWord {w : Word} {i : Instr} (h : decodeWord w = .ok i) : encode i = w := by
  obtain ⟨r, hr, hsel, rfl⟩ := decodeWord_ok h
  rw [CommandRow.selects_iff] at hsel
  simp only [opcodeMap, List.mem_cons, List.not_mem_nil, or_false] at hr
  rcases hr with rfl | rfl | rfl | rfl | rfl | rfl | rfl
  · exact wordAB_of_selects (op := 0x01) hsel
  · exact wordAB_of_selects (op := 0x02) hsel
  · exact wordAB_of_selects (op := 0x03) hsel
  · exact wordAB_of_selects (op := 0x04) hsel
  all_goals exact hsel.symm.trans BitVec.and_allOnes

/-- Settles O1: a command's word selects its row, and a row fixes every bit that is not an operand's. -/
theorem decodeInvertsEncode : Obligations.DecodeInvertsEncode :=
  ⟨decodeWord_encode, fun _ _ => encode_of_decodeWord⟩

end Sys2Proof
end

section
/-! PROOF. Illegal words (R74): a word is illegal exactly when no command encodes to it, and it completes with
`IllegalCommand`. -/

namespace Sys2Proof.Machine

/-- The legal words, format by format (R70, R73). -/
theorem not_illegalWord_iff {w : Word} :
    ¬ IllegalWord w ↔
      (1 ≤ (opField w).toNat ∧ (opField w).toNat ≤ 4 ∧ topField w = 0x00) ∨
      (5 ≤ (opField w).toNat ∧ (opField w).toNat ≤ 7 ∧ w.extractLsb' 8 24 = 0) := by
  have hzero : opField w = 0x00 ↔ (opField w).toNat = 0 := BitVec.toNat_eq
  unfold IllegalWord topField
  rw [hzero]
  by_cases htop : w.extractLsb' 24 8 = 0x00 <;> by_cases hrest : w.extractLsb' 8 24 = 0 <;>
    simp only [htop, hrest, ne_eq, not_true, not_false_eq_true, and_true, and_false, or_false, false_or, iff_false] <;>
    omega

theorem not_illegalWord_wordAB {op : Byte} (hlo : 1 ≤ op.toNat) (hhi : op.toNat ≤ 4) (a b : Byte) :
    ¬ IllegalWord (wordAB (op.setWidth 32) a b) := by
  rw [not_illegalWord_iff, Laws.Format.opField_wordAB]
  exact .inl ⟨hlo, hhi, Laws.Format.topField_wordAB op a b⟩

theorem not_illegalWord_encode (i : Instr) : ¬ IllegalWord (encode i) := by
  cases i with
  | gfadd a b => exact not_illegalWord_wordAB (op := 0x01) (by decide) (by decide) a b
  | gfmul a b => exact not_illegalWord_wordAB (op := 0x02) (by decide) (by decide) a b
  | gfdiv a b => exact not_illegalWord_wordAB (op := 0x03) (by decide) (by decide) a b
  | genq r c => exact not_illegalWord_wordAB (op := 0x04) (by decide) (by decide) r c
  | encode | matinv | decode => exact not_illegalWord_iff.mpr (.inr (by decide))

/-- A word with no bit set above `op` is its `op`. -/
theorem eq_setWidth_opField {w : Word} (h : w.extractLsb' 8 24 = 0) : w = (opField w).setWidth 32 := by
  have hrest : (w.extractLsb' 8 24).toNat = 0 := congrArg BitVec.toNat h
  simp only [opField, BitVec.toNat_eq, BitVec.extractLsb'_toNat, Nat.shiftRight_eq_div_pow,
    BitVec.toNat_setWidth] at hrest ⊢
  omega

theorem exists_encode_of_not_illegalWord {w : Word} (h : ¬ IllegalWord w) : ∃ i, encode i = w := by
  rcases not_illegalWord_iff.mp h with ⟨hlo, hhi, htop⟩ | ⟨hlo, hhi, hrest⟩
  · have hw := wordAB_fields htop
    obtain hop | hop | hop | hop : opField w = 0x01 ∨ opField w = 0x02 ∨ opField w = 0x03 ∨ opField w = 0x04 := by
      bv_omega
    all_goals rw [hop] at hw
    · exact ⟨.gfadd _ _, hw⟩
    · exact ⟨.gfmul _ _, hw⟩
    · exact ⟨.gfdiv _ _, hw⟩
    · exact ⟨.genq _ _, hw⟩
  · have hw := eq_setWidth_opField hrest
    obtain hop | hop | hop : opField w = 0x05 ∨ opField w = 0x06 ∨ opField w = 0x07 := by
      bv_omega
    all_goals rw [hop] at hw
    · exact ⟨.encode, hw.symm⟩
    · exact ⟨.matinv, hw.symm⟩
    · exact ⟨.decode, hw.symm⟩

theorem illegalWord_iff {w : Word} : IllegalWord w ↔ ∃ e, decodeWord w = .error e := by
  constructor
  · intro h
    cases hd : decodeWord w with
    | error e => exact ⟨e, rfl⟩
    | ok i => exact absurd h (encode_of_decodeWord hd ▸ not_illegalWord_encode i)
  · rintro ⟨e, he⟩
    by_contra h
    obtain ⟨i, rfl⟩ := exists_encode_of_not_illegalWord h
    rw [decodeWord_encode] at he
    cases he

/-- A busy engine whose word is no command fails with `IllegalCommand` (R74). -/
theorem step_of_illegal {s : State} {e : DecodeError} (hbusy : s.busy = true) (hnext : s.engineNext = true)
    (he : decodeWord s.cmdReg = .error e) : step s = .next (s.takeMove.raised .illegalCommand) := by
  rw [step_of_engineNext hnext, State.engineTurn, if_pos (s.takeMove_busy.trans hbusy), State.completeCommand,
    State.takeMove_cmdReg, he]

theorem State.hostAccess_writeReg_of_busy {s : State} (hbusy : s.busy = true) (r : Reg) (v : Word) :
    s.hostAccess (.write r.offset 4 v) = .refused (.protocolViolation r.offset) := by
  rw [State.hostAccess, State.hostWrite, resolve_offset]
  exact if_pos hbusy

/-- Settles O42: `CMD` is the register at offset 0 (R20), and its write is `State.start`. -/
theorem startLatchesTheCommand : Obligations.StartLatchesTheCommand := by
  intro s w
  exact ⟨fun hidle => State.hostAccess_writeReg hidle .cmd w,
    fun hbusy => State.hostAccess_writeReg_of_busy hbusy .cmd w⟩

/-- Settles O3: what is illegal does not decode (`illegalWord_iff`), `START` does not look at the word, and the engine
raises. -/
theorem illegalWordsFailWhenRun : Obligations.IllegalWordsFailWhenRun := by
  intro w
  refine ⟨illegalWord_iff, fun hw => ⟨fun s hidle => State.hostAccess_writeReg hidle .cmd w,
    fun s hbusy hnext hreg => ?_⟩⟩
  obtain ⟨e, he⟩ := illegalWord_iff.mp hw
  exact step_of_illegal hbusy hnext (hreg ▸ he)

/-- Settles O2: the legal words are those the encoder makes, the others select no row. -/
theorem specWordsDecode : Obligations.SpecWordsDecode :=
  ⟨decodeWord_encode (.gfadd 0x53 0xCA), decodeWord_encode (.gfmul 0x53 0xCA), decodeWord_encode (.gfdiv 0x53 0xCA),
    decodeWord_encode (.genq 0x04 0x01), decodeWord_encode .encode, decodeWord_encode .matinv,
    decodeWord_encode .decode, rfl, rfl, rfl, rfl⟩

end Sys2Proof.Machine
end

section
/-! PROOF. A command from `START` to `COMPLETE` (R75, R76, R80, R191). -/

namespace Sys2Proof.Machine

theorem State.placeCommand_busy (s : State) (w : Word) : (s.placeCommand w).busy = true := s.start_busy w

/-- Whatever is still to come, a placed command has the engine's turn before it. -/
theorem State.placeCommand_engineNext (s : State) (w : Word) : (s.placeCommand w).engineNext = true := by
  unfold State.placeCommand
  split <;> rfl

theorem State.placeCommand_takeMove (s : State) (w : Word) : (s.placeCommand w).takeMove = s.start w := by
  unfold State.placeCommand
  split
  · rename_i h
    rw [State.takeMove, List.tail_nil, ← h]
    rfl
  · rfl

theorem decodeTableWord_eq_some_iff {nbits w : Nat} {i : Instr} :
    decodeTableWord nbits w = some i ↔ decodeWord (tableWord nbits w) = .ok i := by
  unfold decodeTableWord
  cases decodeWord (tableWord nbits w) <;> simp

theorem step_of_decodes {s : State} {i : Instr} (hbusy : s.busy = true) (hnext : s.engineNext = true)
    (hd : decodeWord s.cmdReg = .ok i) : step s = exec i s.takeMove :=
  (step_of_engineNext hnext).trans (State.engineTurn_of_decodes (s := s.takeMove) hbusy hd)

/-- Settles O4: a placed command's word is latched, the block is busy and the engine is next. -/
theorem stepRunsDecodedCommand : Obligations.StepRunsDecodedCommand := by
  refine ⟨fun s i => step_of_decodes, fun s nbits w i hd => ?_⟩
  have hword : decodeWord (s.placeCommand (tableWord nbits w)).cmdReg = .ok i := decodeTableWord_eq_some_iff.mp hd
  rw [State.withFetchWord, step_of_decodes (s.placeCommand_busy _) (s.placeCommand_engineNext _) hword,
    State.placeCommand_takeMove]
  rfl

/-- Settles O51: the line's one move is the host's write of `CMD`. -/
theorem scriptCommandLineStarts : Obligations.ScriptCommandLineStarts := by
  intro s i hidle hempty
  have hload : (s.loadScript [.cmd i]).agenda = [.host (.write (Reg.offset .cmd) 4 (encode i))] := by
    rw [State.loadScript, hempty]
    rfl
  have htaken : ({ s.loadScript [.cmd i] with agenda := [] } : State) = s := by
    rw [← hempty]
    rfl
  rw [step_of_agenda hload, htaken]
  exact State.hostAccess_writeReg hidle .cmd (encode i)

end Sys2Proof.Machine
end

section
/-! PROOF. A busy engine's turn ends (R76, R191, U1): a rule that stops has raised an error or read a location without a
value, and it does nothing else. -/

namespace Sys2Proof.Machine

/-- The computation refuses nothing but locations that hold no value. -/
def RefusesUnwritten {α : Type} (mem : Memory) (x : Except Stop α) : Prop :=
  ∀ r, x = .error (.refuse r) → ∃ off, mem.readHalf off = none ∧ r = .unwrittenRead off

section RefusesUnwritten

variable {α β : Type} {mem : Memory}

theorem RefusesUnwritten.ok (a : α) : RefusesUnwritten mem (.ok a) := nofun

theorem RefusesUnwritten.raise (e : ErrorName) : RefusesUnwritten mem (.error (.raise e) : Except Stop α) := nofun

theorem RefusesUnwritten.bind {x : Except Stop α} {f : α → Except Stop β} (hx : RefusesUnwritten mem x)
    (hf : ∀ a, RefusesUnwritten mem (f a)) : RefusesUnwritten mem (x >>= f) := by
  intro r h
  rcases bind_error h with h | ⟨a, -, h⟩
  · exact hx r h
  · exact hf a r h

theorem RefusesUnwritten.collect {f : α → Except Stop β} (hf : ∀ a, RefusesUnwritten mem (f a)) (xs : List α) :
    RefusesUnwritten mem (collect f xs) := by
  intro r h
  obtain ⟨a, -, ha⟩ := collect_error h
  exact hf a r ha

theorem RefusesUnwritten.raiseIf (c : Option ErrorName) : RefusesUnwritten mem (raiseIf c) := by
  cases c with
  | none => exact .ok ()
  | some e => exact .raise e

end RefusesUnwritten

/-! ### Reads and the field -/

theorem State.engineByte_refusesUnwritten (s : State) (off : Nat) : RefusesUnwritten s.mem (s.engineByte off) := by
  intro r h
  obtain ⟨hnone, hr⟩ := State.engineByte_error.mp h
  exact ⟨off, Memory.readHalf_of_unwritten (.inl hnone), Stop.refuse.inj hr⟩

theorem State.engineHalf_refusesUnwritten (s : State) (off : Nat) : RefusesUnwritten s.mem (s.engineHalf off) := by
  intro r h
  obtain ⟨hnone, hr⟩ := State.engineHalf_error.mp h
  exact ⟨off, hnone, Stop.refuse.inj hr⟩

theorem gfDiv_refusesUnwritten (mem : Memory) (a b : Byte) : RefusesUnwritten mem (gfDiv a b) := by
  intro r h
  cases (gfDiv_error h).2

theorem gen_refusesUnwritten (mem : Memory) (k m r c : Nat) : RefusesUnwritten mem (gen k m r c) := by
  intro r h
  cases gen_error h

theorem genRow_refusesUnwritten (mem : Memory) (k m r : Nat) : RefusesUnwritten mem (genRow k m r) :=
  .collect (gen_refusesUnwritten mem k m r) _

theorem State.combineShards_refusesUnwritten (s : State) (row : List Byte) (ps : List Nat) :
    RefusesUnwritten s.mem (s.combineShards row ps) :=
  .collect (fun _ => .bind (.collect (fun _ => s.engineByte_refusesUnwritten _) _) fun _ => .ok _) _

/-! ### The inversion -/

theorem pivotColumn_refusesUnwritten (mem : Memory) (n : Nat) (rows : List WorkRow) (c : Nat) :
    RefusesUnwritten mem (pivotColumn n rows c) := by
  unfold pivotColumn
  split
  · exact .raise _
  · split
    · rename_i e he
      rw [(gfDiv_error he).2]
      exact .raise _
    · exact .ok _

theorem pivotColumns_cons (n c : Nat) (cs : List Nat) (rows : List WorkRow) :
    pivotColumns n (c :: cs) rows = pivotColumn n rows c >>= pivotColumns n cs := by
  rw [pivotColumns]
  cases pivotColumn n rows c <;> rfl

theorem gfMatinv_eq_bind (n : Nat) (mat : List (List Byte)) :
    gfMatinv n mat = pivotColumns n (List.range n) (workStart n mat) >>= fun rows => .ok (rows.map (·.v)) := by
  rw [gfMatinv]
  cases pivotColumns n (List.range n) (workStart n mat) <;> rfl

theorem pivotColumns_refusesUnwritten (mem : Memory) (n : Nat) (cs : List Nat) (rows : List WorkRow) :
    RefusesUnwritten mem (pivotColumns n cs rows) := by
  induction cs generalizing rows with
  | nil => exact .ok rows
  | cons c cs ih =>
    rw [pivotColumns_cons]
    exact .bind (pivotColumn_refusesUnwritten mem n rows c) ih

theorem gfMatinv_refusesUnwritten (mem : Memory) (n : Nat) (mat : List (List Byte)) :
    RefusesUnwritten mem (gfMatinv n mat) := by
  rw [gfMatinv_eq_bind]
  exact .bind (pivotColumns_refusesUnwritten mem n _ _) fun _ => .ok _

/-! ### The rules -/

theorem State.presentIndices_refusesUnwritten (s : State) : RefusesUnwritten s.mem s.presentIndices := by
  unfold State.presentIndices
  split
  · exact .collect (fun _ => .bind (s.engineHalf_refusesUnwritten _) fun _ => .ok _) _
  · exact .ok _

theorem ruleReconstruct_refusesUnwritten (idx : List Nat) (s : State) :
    RefusesUnwritten s.mem (ruleReconstruct idx s) :=
  .bind (.collect (genRow_refusesUnwritten _ _ _) _) fun _ => .bind (gfMatinv_refusesUnwritten _ _ _) fun _ =>
    .bind (.collect (fun _ => s.combineShards_refusesUnwritten _ _) _) fun _ => .ok _

theorem ruleOf_refusesUnwritten (i : Instr) (s : State) : RefusesUnwritten s.mem (ruleOf i s) := by
  cases i with
  | gfadd a b => exact .ok _
  | gfmul a b => exact .ok _
  | gfdiv a b => exact .bind (gfDiv_refusesUnwritten _ _ _) fun _ => .ok _
  | genq r c => exact .bind (.raiseIf _) fun _ => .bind (gen_refusesUnwritten _ _ _ _ _) fun _ => .ok _
  | encode =>
    have hshard : ∀ j, RefusesUnwritten s.mem (s.recoveryShard j) := fun j =>
      .bind (genRow_refusesUnwritten _ _ _ _) fun _ => s.combineShards_refusesUnwritten _ _
    exact .bind (.raiseIf _) fun _ => .bind (.collect hshard _) fun _ => .ok _
  | matinv =>
    have hcorner : RefusesUnwritten s.mem (s.matCorner s.kNat) :=
      .collect (fun _ => .collect (fun _ => s.engineByte_refusesUnwritten _) _) _
    exact .bind (.raiseIf _) fun _ => .bind hcorner fun _ => .bind (gfMatinv_refusesUnwritten _ _ _) fun _ => .ok _
  | decode =>
    refine .bind (.raiseIf _) fun _ => .bind s.presentIndices_refusesUnwritten fun idx => .bind (.raiseIf _) fun _ => ?_
    split
    · exact .ok _
    · exact ruleReconstruct_refusesUnwritten idx s

/-- A completed command leaves `BUSY = 0` and `DONE = 1`, in success and in failure (R76, R165). -/
theorem statusDone_flags : busyBit statusDone = false ∧ doneBit statusDone = true := by decide

theorem statusError_flags (e : ErrorName) : busyBit (statusError e) = false ∧ doneBit (statusError e) = true := by
  cases e <;> decide

theorem exec_completes (i : Instr) (s : State) :
    (∃ t, exec i s = .next t ∧ t.busy = false ∧ doneBit t.status = true) ∨
      ∃ off, s.mem.readHalf off = none ∧ exec i s = .refused (.unwrittenRead off) := by
  rw [exec_eq_complete]
  cases hrule : ruleOf i s.clearResults with
  | ok u => exact .inl ⟨u.succeed, State.complete_of_ok hrule, statusDone_flags⟩
  | error x =>
    cases x with
    | raise e => exact .inl ⟨s.raised e, State.complete_of_raise hrule, statusError_flags e⟩
    | refuse r =>
      obtain ⟨off, hoff, rfl⟩ := ruleOf_refusesUnwritten i s.clearResults r hrule
      exact .inr ⟨off, hoff, State.complete_of_refuse hrule⟩

/-- Settles O37: a command completes (`exec_completes`), and a word that is none fails with `IllegalCommand`. -/
theorem busyEngineCompletes : Obligations.BusyEngineCompletes := by
  intro s hbusy hnext
  cases hd : decodeWord s.cmdReg with
  | ok i =>
    rw [step_of_decodes hbusy hnext hd]
    exact exec_completes i s.takeMove
  | error e =>
    have hfails : step s = .next (s.takeMove.raised .illegalCommand) := step_of_illegal hbusy hnext hd
    exact .inl ⟨_, hfails, statusError_flags .illegalCommand⟩

end Sys2Proof.Machine
end

section
/-! PROOF. The scalar commands (spec/40_gf_arith.md R93 to R102): the tables against the construction loop, the product
against the table-free one, the quotient, and what `GFADD`, `GFMUL` and `GFDIV` leave. -/

namespace Sys2Proof.Machine

/-! ### The construction loop -/

/-- One turn of the loop is one step along `EXP`, round the end included (R93). -/
theorem timesAlpha_expAt (i : Nat) : timesAlpha Config.POLY (expAt (i % 255)) = expAt ((i + 1) % 255) := by
  rw [← gfMul_alpha, show Config.ALPHA = expAt (1 % 255) from rfl, gfMul_expAt, Nat.add_comm]

theorem powersFrom_expAt (n i : Nat) :
    powersFrom Config.POLY n (expAt (i % 255)) = (List.range' i n).map fun j => expAt (j % 255) := by
  induction n generalizing i with
  | zero => rfl
  | succ n ih => rw [powersFrom, timesAlpha_expAt, ih, List.range'_succ, List.map_cons]

/-- Settles O12: the loop walks along `EXP` from entry 0. -/
theorem tablesAreConstructed : Obligations.TablesAreConstructed := by
  refine ⟨?_, timesAlpha_expAt 254, rfl, logAt_expAt, expAt_logAt⟩
  calc powersFrom Config.POLY 255 0x01
      = (List.range' 0 255).map fun j => expAt (j % 255) := powersFrom_expAt 255 0
    _ = (List.range 255).map expAt := by
      rw [← List.range_eq_range']
      exact List.map_congr_left fun j hj => congrArg expAt (Nat.mod_eq_of_lt (List.mem_range.mp hj))

/-! ### The table-free product -/

/-- Byte `0x01` shifted: the power `x^i` of the indeterminate. -/
def monomial (i : Nat) : Byte := 0x01 <<< i

theorem eq_xorAll_monomials : ∀ b : Byte, b = xorAll (((List.range 8).filter b.getLsbD).map monomial) := by
  decide +kernel

theorem additive_zero {f : Byte → Byte} (hf : ∀ x y, f (gfAdd x y) = gfAdd (f x) (f y)) : f 0x00 = 0x00 :=
  (hf 0x00 0x00).trans (gfAdd_self _)

/-- Two additive maps that agree on the monomials agree: every byte is a sum of monomials. -/
theorem eq_of_additive {f g : Byte → Byte} (hf : ∀ x y, f (gfAdd x y) = gfAdd (f x) (f y))
    (hg : ∀ x y, g (gfAdd x y) = gfAdd (g x) (g y)) (h : ∀ i < 8, f (monomial i) = g (monomial i)) (b : Byte) :
    f b = g b := by
  have hsum : ∀ js : List Nat, (∀ j ∈ js, j < 8) → f (xorAll (js.map monomial)) = g (xorAll (js.map monomial)) := by
    intro js hjs
    induction js with
    | nil => exact (additive_zero hf).trans (additive_zero hg).symm
    | cons j js ih =>
      obtain ⟨hj, hjs⟩ := List.forall_mem_cons.mp hjs
      rw [List.map_cons, xorAll, hf, hg, h j hj, ih hjs]
  rw [eq_xorAll_monomials b]
  exact hsum _ fun j hj => List.mem_range.mp (List.mem_of_mem_filter hj)

/-- Added under two conditions, `z` counts when just one of them holds: twice cancels. -/
theorem ite_xor_ite {w : Nat} (p q : Bool) (x y z : BitVec w) :
    (if p then x ^^^ z else x) ^^^ (if q then y ^^^ z else y) = if (p ^^ q) then (x ^^^ y) ^^^ z else x ^^^ y := by
  cases p <;> cases q
  · rfl
  · exact (BitVec.xor_assoc x y z).symm
  · show (x ^^^ z) ^^^ y = (x ^^^ y) ^^^ z
    ac_rfl
  · calc (x ^^^ z) ^^^ (y ^^^ z) = (x ^^^ y) ^^^ (z ^^^ z) := by ac_rfl
      _ = x ^^^ y := by rw [BitVec.xor_self, BitVec.xor_zero]

/-- One turn of the first loop of `clmul_mod` (R97). -/
def carrylessStep (a b : Byte) (r : BitVec 15) (i : Nat) : BitVec 15 :=
  if b.getLsbD i then r ^^^ (a.setWidth 15 <<< i) else r

theorem carryless_eq_foldl (a b : Byte) : carryless a b = (List.range 8).foldl (carrylessStep a b) 0#15 := rfl

theorem carryless_gfAdd_left (a b c : Byte) : carryless (gfAdd a b) c = carryless a c ^^^ carryless b c := by
  have hstep : ∀ x y i, carrylessStep a c x i ^^^ carrylessStep b c y i = carrylessStep (gfAdd a b) c (x ^^^ y) i := by
    intro x y i
    rw [carrylessStep, carrylessStep, carrylessStep, gfAdd, BitVec.setWidth_xor, BitVec.shiftLeft_xor_distrib]
    split
    · ac_rfl
    · rfl
  rw [carryless_eq_foldl, carryless_eq_foldl, carryless_eq_foldl, ← List.foldl_hom₂ _ (· ^^^ ·) _ _ _ _ _ hstep,
    BitVec.xor_zero]

theorem carryless_gfAdd_right (a b c : Byte) : carryless a (gfAdd b c) = carryless a b ^^^ carryless a c := by
  have hstep : ∀ x y i, carrylessStep a b x i ^^^ carrylessStep a c y i = carrylessStep a (gfAdd b c) (x ^^^ y) i := by
    intro x y i
    rw [carrylessStep, carrylessStep, carrylessStep, gfAdd, BitVec.getLsbD_xor]
    exact ite_xor_ite _ _ x y _
  rw [carryless_eq_foldl, carryless_eq_foldl, carryless_eq_foldl, ← List.foldl_hom₂ _ (· ^^^ ·) _ _ _ _ _ hstep,
    BitVec.xor_zero]

theorem reducePoly_xor (poly : BitVec 9) (r t : BitVec 15) :
    reducePoly poly (r ^^^ t) = gfAdd (reducePoly poly r) (reducePoly poly t) := by
  rw [reducePoly, reducePoly, reducePoly, gfAdd, ← BitVec.setWidth_xor, ← List.foldl_hom₂ _ (· ^^^ ·)]
  intro x y i
  rw [BitVec.getLsbD_xor]
  exact ite_xor_ite _ _ x y _

theorem clmulMod_gfAdd_left (a b c : Byte) : clmulMod (gfAdd a b) c = gfAdd (clmulMod a c) (clmulMod b c) := by
  rw [clmulMod, carryless_gfAdd_left, reducePoly_xor, clmulMod, clmulMod]

theorem clmulMod_gfAdd_right (a b c : Byte) : clmulMod a (gfAdd b c) = gfAdd (clmulMod a b) (clmulMod a c) := by
  rw [clmulMod, carryless_gfAdd_right, reducePoly_xor, clmulMod, clmulMod]

theorem gfMul_monomials : ∀ i < 8, ∀ j < 8, gfMul (monomial i) (monomial j) = clmulMod (monomial i) (monomial j) := by
  decide +kernel

theorem gfMul_gfAdd_left (a b c : Byte) : gfMul (gfAdd a b) c = gfAdd (gfMul a c) (gfMul b c) := by
  rw [gfMul_comm, gfMul_gfAdd, gfMul_comm c, gfMul_comm c]

/-- Both products are additive in each factor, so they are compared on 64 pairs of monomials. -/
theorem gfMul_eq_clmulMod (a b : Byte) : gfMul a b = clmulMod a b := by
  have hleft : ∀ j < 8, gfMul a (monomial j) = clmulMod a (monomial j) := fun j hj =>
    eq_of_additive (f := (gfMul · (monomial j))) (g := (clmulMod · (monomial j))) (fun x y => gfMul_gfAdd_left x y _)
      (fun x y => clmulMod_gfAdd_left x y _) (fun i hi => gfMul_monomials i hi j hj) a
  exact eq_of_additive (gfMul_gfAdd a) (clmulMod_gfAdd_right a) hleft b

/-! ### The quotient -/

theorem gfDiv_of_ne_zero (a : Byte) {b : Byte} (hb : b ≠ 0x00) : gfDiv a b = .ok (gfQuot a b) := if_neg hb

theorem gfMul_gfQuot (a : Byte) {b : Byte} (hb : b ≠ 0x00) : gfMul (gfQuot a b) b = a := by
  by_cases ha : a = 0x00
  · rw [ha, gfQuot, if_pos rfl, gfMul_zero_left]
  obtain ⟨hloga, hexpa⟩ := expAt_logAt a ha
  obtain ⟨hlogb, hexpb⟩ := expAt_logAt b hb
  calc gfMul (gfQuot a b) b
      = gfMul (expAt ((logAt a + 255 - logAt b) % 255)) (expAt (logAt b % 255)) := by
        rw [gfQuot, if_neg ha, Nat.mod_eq_of_lt hlogb, hexpb]
    _ = expAt ((logAt a + 255 - logAt b + logAt b) % 255) := gfMul_expAt _ _
    _ = expAt (logAt a) := congrArg expAt (by omega)
    _ = a := hexpa

theorem gfMul_right_cancel {p q b : Byte} (hb : b ≠ 0x00) (h : gfMul p b = gfMul q b) : p = q := by
  have hundo : ∀ r, gfMul (gfMul r b) (gfQuot 0x01 b) = r := fun r => by
    rw [gfMul_assoc, gfMul_gfQuot_one b hb, gfMul_one_right]
  rw [← hundo p, h, hundo q]

theorem gfQuot_one_left (b : Byte) : gfQuot 0x01 b = expAt ((255 - logAt b) % 255) := by
  rw [gfQuot, if_neg (by decide), show logAt 0x01 = 0 from rfl, Nat.zero_add]

/-- Settles O8: the laws are those `gfField` is built from. -/
theorem gfmulLaws : Obligations.GfmulLaws :=
  ⟨fun _ _ => rfl, gfMul_comm, gfMul_assoc, gfMul_gfAdd, gfMul_one_right⟩

/-- Settles O9: the quotient times the divisor is the dividend, and a nonzero divisor cancels. -/
theorem gfdivUndoesGfmul : Obligations.GfdivUndoesGfmul := by
  refine ⟨fun _ => rfl, fun a b hb => ?_, fun _ => rfl, fun b hb => ?_⟩
  · have hmul := gfMul_gfQuot a hb
    exact ⟨gfQuot a b, gfDiv_of_ne_zero a hb, fun ha => if_pos ha, fun ha => if_neg ha, hmul,
      fun q' hq' => gfMul_right_cancel hb (hq'.trans hmul.symm)⟩
  · exact ⟨gfQuot 0x01 b, gfDiv_of_ne_zero 0x01 hb, gfQuot_one_left b, gfMul_gfQuot_one b hb⟩

/-! ### The commands -/

/-- A rule that only sets `RES` completes with the scalar result (R76). -/
theorem exec_scalarResult {i : Instr} {s : State} {v : Byte}
    (h : ruleOf i s.clearResults = .ok { s.clearResults with res := v }) : exec i s = .next (s.scalarResult v) :=
  (exec_eq_complete i s).trans (State.complete_of_ok h)

/-- A rule that raises leaves the failed state (R165). -/
theorem exec_failedWith {i : Instr} {s : State} {e : ErrorName} (h : ruleOf i s.clearResults = .error (.raise e)) :
    exec i s = .next (s.failedWith (statusError e)) :=
  (exec_eq_complete i s).trans (State.complete_of_raise h)

theorem ruleGfdiv_of_ne_zero (a : Byte) {b : Byte} (hb : b ≠ 0x00) (s : State) :
    ruleGfdiv a b s = .ok { s with res := gfQuot a b } := by
  rw [ruleGfdiv, gfDiv_of_ne_zero a hb, ok_bind]

/-- Settles O6: the rule sets `RES` alone, and equal bytes cancel. -/
theorem gfaddAdds : Obligations.GfaddAdds := by
  intro a b s
  refine ⟨rfl, exec_scalarResult rfl, fun h => ?_, fun h => ?_⟩
  · exact h ▸ gfAdd_self a
  · exact h ▸ gfAdd_zero a

/-- Settles O7: `gfMul_eq_clmulMod` is its content. -/
theorem gfmulIsThePolynomialProduct : Obligations.GfmulIsThePolynomialProduct :=
  fun a b _ => ⟨rfl, gfMul_eq_clmulMod a b, exec_scalarResult rfl⟩

/-- Settles O10: the quotient by tables, multiplied back without them. -/
theorem gfdivDivides : Obligations.GfdivDivides := by
  intro a b s
  refine ⟨fun hb => ⟨gfQuot a b, exec_scalarResult (ruleGfdiv_of_ne_zero a hb _), ?_⟩, ?_⟩
  · rw [← gfMul_eq_clmulMod, gfMul_gfQuot a hb]
  · rintro rfl
    exact exec_failedWith (e := .divisionByZero) rfl

end Sys2Proof.Machine
end

section
/-! PROOF. The errors a command's rule can raise (R162, R163): those the table gives it, by the checks it makes and by the
divisors it never finds 0; `DivisionByZero` with it (R102, R167). -/

namespace Sys2Proof.Machine

/-- Every error the computation raises is one of `es`. -/
def RaisesOnly {α : Type} (es : List ErrorName) (x : Except Stop α) : Prop := ∀ e, x = .error (.raise e) → e ∈ es

section RaisesOnly

variable {α β : Type} {es : List ErrorName}

theorem RaisesOnly.ok (a : α) : RaisesOnly es (.ok a) := nofun

theorem RaisesOnly.bind {x : Except Stop α} {f : α → Except Stop β} (hx : RaisesOnly es x)
    (hf : ∀ a, x = .ok a → RaisesOnly es (f a)) : RaisesOnly es (x >>= f) := by
  intro e h
  rcases bind_error h with h | ⟨a, ha, h⟩
  · exact hx e h
  · exact hf a ha e h

theorem RaisesOnly.collect {f : α → Except Stop β} {xs : List α} (hf : ∀ a ∈ xs, RaisesOnly es (f a)) :
    RaisesOnly es (collect f xs) := by
  intro e h
  obtain ⟨a, ha, he⟩ := collect_error h
  exact hf a ha e he

/-- A check that fails raises its error; past a check, it has found nothing. -/
theorem RaisesOnly.check {c : Option ErrorName} {f : Unit → Except Stop β} (hc : ∀ e, c = some e → e ∈ es)
    (hf : c = none → RaisesOnly es (f ())) : RaisesOnly es (raiseIf c >>= f) := by
  cases c with
  | none => exact hf rfl
  | some e =>
    intro e' h
    cases h
    exact hc e rfl

end RaisesOnly

/-! ### Reads -/

theorem State.engineByte_raisesOnly (s : State) (off : Nat) (es : List ErrorName) : RaisesOnly es (s.engineByte off) := by
  intro e h
  cases (State.engineByte_error.mp h).2

theorem State.engineHalf_raisesOnly (s : State) (off : Nat) (es : List ErrorName) : RaisesOnly es (s.engineHalf off) := by
  intro e h
  cases (State.engineHalf_error.mp h).2

theorem State.combineShards_raisesOnly (s : State) (row : List Byte) (ps : List Nat) (es : List ErrorName) :
    RaisesOnly es (s.combineShards row ps) := by
  intro e h
  obtain ⟨_, -, hrefuse⟩ := State.combineShards_refuses h
  cases hrefuse

theorem State.presentIndices_raisesOnly (s : State) (es : List ErrorName) : RaisesOnly es s.presentIndices := by
  unfold State.presentIndices
  split
  · exact .collect fun p _ => .bind (s.engineHalf_raisesOnly _ es) fun _ _ => .ok _
  · exact .ok _

/-! ### The checks -/

theorem genqCheck_mem {k m r c : Nat} {e : ErrorName} (h : genqCheck k m r c = some e) :
    e ∈ [.invalidParameters, .indexOutOfRange] := by
  rw [genqCheck] at h
  split_ifs at h <;> cases h <;> decide

/-- `CapacityExceeded` does not arise: `R.L` is no wider than `LMAX` (R121). -/
theorem encodeCheck_mem {s : State} {e : ErrorName} (h : encodeCheck s = some e) : e ∈ mayRaise .encode := by
  rw [encodeCheck, if_neg (show ¬ Config.LMAX < s.lNat from Nat.not_lt.mpr s.lNat_le)] at h
  split_ifs at h <;> cases h <;> decide

theorem matinvCheck_mem {n : Nat} {e : ErrorName} (h : matinvCheck n = some e) : e ∈ mayRaise .matinv := by
  rw [matinvCheck] at h
  split_ifs at h
  cases h
  decide

theorem decodeHeaderCheck_mem {s : State} {e : ErrorName} (h : decodeHeaderCheck s = some e) : e ∈ mayRaise .decode := by
  rw [decodeHeaderCheck] at h
  split_ifs at h <;> cases h <;> decide

theorem decodeIndexCheck_mem {k m : Nat} {idx : List Nat} {e : ErrorName} (h : decodeIndexCheck k m idx = some e) :
    e ∈ mayRaise .decode := by
  rw [decodeIndexCheck] at h
  split_ifs at h <;> cases h <;> decide

theorem genqCheck_none {k m r c : Nat} (h : genqCheck k m r c = none) :
    validKm k m = true ∧ r < k + m ∧ c < k := by
  rw [genqCheck] at h
  split_ifs at h with hv hrc
  exact ⟨hv, by omega, by omega⟩

/-! ### The generator matrix and the inversion -/

/-- No Cauchy divisor of a valid matrix is `0x00` (R111), so its rows raise nothing. -/
theorem genRow_raisesOnly {k m r : Nat} (hv : validKm k m = true) (hr : r < k + m) (es : List ErrorName) :
    RaisesOnly es (genRow k m r) := by
  rw [genRow_valid hv hr]
  exact .ok _

theorem pivotColumn_length {n : Nat} {rows rows' : List WorkRow} {c : Nat} (h : pivotColumn n rows c = .ok rows') :
    rows'.length = rows.length := by
  obtain ⟨p, d, -, -, rfl⟩ := pivotColumn_ok h
  rw [eliminate_length, swapRows_length]

theorem pivotColumns_raisesOnly {es : List ErrorName} (hes : .singularMatrix ∈ es) (n : Nat) {cs : List Nat}
    {rows : List WorkRow} (hcs : ∀ c ∈ cs, c < rows.length) : RaisesOnly es (pivotColumns n cs rows) := by
  induction cs generalizing rows with
  | nil => exact .ok rows
  | cons c cs ih =>
    obtain ⟨hc, hcs⟩ := List.forall_mem_cons.mp hcs
    rw [pivotColumns_cons]
    refine .bind (fun e he => ?_) fun rows' hrows' => ih fun c' hc' => (pivotColumn_length hrows').symm ▸ hcs c' hc'
    rwa [Stop.raise.inj (pivotColumn_error hc he)]

theorem gfMatinv_raisesOnly {es : List ErrorName} (hes : .singularMatrix ∈ es) {n : Nat} {mat : List (List Byte)}
    (hlen : mat.length = n) : RaisesOnly es (gfMatinv n mat) := by
  have hstart : (workStart n mat).length = n := List.length_mapIdx.trans hlen
  rw [gfMatinv_eq_bind]
  exact .bind (pivotColumns_raisesOnly hes n fun c hc => hstart.symm ▸ List.mem_range.mp hc) fun _ _ => .ok _

/-! ### The rules -/

theorem ruleGenq_raisesOnly (r c : Byte) (s : State) : RaisesOnly (mayRaise (.genq r c)) (ruleGenq r c s) := by
  refine .check (fun e => genqCheck_mem) fun hcheck => ?_
  obtain ⟨hv, hr, hc⟩ := genqCheck_none hcheck
  rw [gen_valid hv hr hc, ok_bind]
  exact .ok _

theorem ruleEncode_raisesOnly (s : State) : RaisesOnly (mayRaise .encode) (ruleEncode s) := by
  refine .check (fun e => encodeCheck_mem) fun hcheck => ?_
  have hv := (encodeCheck_none hcheck).1
  refine .bind (.collect fun j hj => ?_) fun _ _ => .ok _
  have hrow : s.kNat + j < s.kNat + s.mNat := Nat.add_lt_add_left (List.mem_range.mp hj) _
  exact .bind (genRow_raisesOnly hv hrow _) fun row _ => s.combineShards_raisesOnly row _ _

theorem ruleMatinv_raisesOnly (s : State) : RaisesOnly (mayRaise .matinv) (ruleMatinv s) := by
  refine .check (fun e => matinvCheck_mem) fun _ => ?_
  refine .bind (.collect fun i _ => .collect fun j _ => s.engineByte_raisesOnly _ _) fun mat hmat => ?_
  exact .bind (gfMatinv_raisesOnly (by decide) (State.matCorner_length hmat)) fun _ _ => .ok _

theorem ruleReconstruct_raisesOnly {idx : List Nat} {s : State} (hv : validKm s.kNat s.mNat = true)
    (hidx : decodeIndexCheck s.kNat s.mNat idx = none) : RaisesOnly (mayRaise .decode) (ruleReconstruct idx s) := by
  obtain ⟨hr, hd, hk⟩ := decodeIndexCheck_none hidx
  have hrows : RaisesOnly (mayRaise .decode) (submatrix s.kNat s.mNat (selectShards s.kNat s.mNat idx)) :=
    .collect fun g hg => genRow_raisesOnly hv (hr g (mem_of_mem_selectShards hg)) _
  refine .bind hrows fun sub hsub => ?_
  have hlen : sub.length = s.kNat := (submatrix_length hsub).trans (selectShards_length hr hd hk)
  refine .bind (gfMatinv_raisesOnly (by decide) hlen) fun inv _ => ?_
  exact .bind (.collect fun i _ => s.combineShards_raisesOnly _ _ _) fun _ _ => .ok _

theorem ruleDecode_raisesOnly (s : State) : RaisesOnly (mayRaise .decode) (ruleDecode s) := by
  refine .check (fun e => decodeHeaderCheck_mem) fun hheader => ?_
  refine .bind (s.presentIndices_raisesOnly _) fun idx _ => .check (fun e => decodeIndexCheck_mem) fun hidx => ?_
  split
  · exact .ok _
  · exact ruleReconstruct_raisesOnly (decodeHeaderCheck_none hheader).1 hidx

theorem ruleGfdiv_error {a b : Byte} {s : State} {x : Stop} (h : ruleGfdiv a b s = .error x) :
    b = 0x00 ∧ x = .raise .divisionByZero := by
  rcases bind_error h with h | ⟨_, -, h⟩
  · exact gfDiv_error h
  · cases h

/-- A rule raises what R162 gives its command, and nothing else. -/
theorem ruleOf_raisesOnly (i : Instr) (s : State) : RaisesOnly (mayRaise i) (ruleOf i s) := by
  cases i with
  | gfadd a b => exact .ok _
  | gfmul a b => exact .ok _
  | gfdiv a b =>
    intro e h
    rw [Stop.raise.inj (ruleGfdiv_error h).2]
    exact List.mem_singleton.mpr rfl
  | genq r c => exact ruleGenq_raisesOnly r c s
  | encode => exact ruleEncode_raisesOnly s
  | matinv => exact ruleMatinv_raisesOnly s
  | decode => exact ruleDecode_raisesOnly s

/-! ### `DivisionByZero` -/

theorem errField_statusError (e : ErrorName) : errField (statusError e) = e.code := by
  cases e <;> decide

theorem ErrorName.eq_divisionByZero_of_code {e : ErrorName} (h : e.code = 7) : e = .divisionByZero := by
  cases e with
  | divisionByZero => rfl
  | _ => exact absurd h (by decide)

theorem divisionByZero_mem_mayRaise {i : Instr} (h : .divisionByZero ∈ mayRaise i) : ∃ a b, i = .gfdiv a b := by
  cases i with
  | gfdiv a b => exact ⟨a, b, rfl⟩
  | _ => simp [mayRaise] at h

/-- Settles O11: by the table of R162 only `GFDIV` raises it, and `GFDIV` does so for the divisor `0x00`. -/
theorem divisionByZeroOnlyFromGfdiv : Obligations.DivisionByZeroOnlyFromGfdiv := by
  intro i s t hexec herr
  rcases exec_next hexec with ⟨u, -, rfl⟩ | ⟨e, hrule, rfl⟩
  · exact absurd herr (show errField statusDone ≠ 7 by decide)
  · obtain rfl := ErrorName.eq_divisionByZero_of_code ((errField_statusError e).symm.trans herr)
    obtain ⟨a, b, rfl⟩ := divisionByZero_mem_mayRaise (ruleOf_raisesOnly i _ _ hrule)
    exact ⟨a, by rw [(ruleGfdiv_error hrule).1]⟩

end Sys2Proof.Machine
end

section
/-! PROOF. `GENQ` and the generator matrix (spec/41_generator.md R110 to R116): the errors in their order, the entry, and
the worked matrix. -/

namespace Sys2Proof.Machine

section Genq

variable {r c : Byte} {s : State}

theorem ruleGenq_of_error {e : ErrorName} (h : genqCheck s.kNat s.mNat r.toNat c.toNat = some e) :
    ruleGenq r c s = .error (.raise e) := by
  rw [ruleGenq, h, raiseIf, error_bind]

theorem ruleGenq_valid (hv : validKm s.kNat s.mNat = true) (hr : r.toNat < s.kNat + s.mNat) (hc : c.toNat < s.kNat) :
    ruleGenq r c s = .ok { s with res := genValue s.kNat r.toNat c.toNat } := by
  have hcheck : genqCheck s.kNat s.mNat r.toNat c.toNat = none := by
    rw [genqCheck, if_neg (not_not.mpr hv), if_neg (by omega)]
  rw [ruleGenq, hcheck, raiseIf, ok_bind, gen_valid hv hr hc, ok_bind]

end Genq

theorem genValue_of_lt {k r c : Nat} (hr : r < k) : genValue k r c = if r = c then 0x01 else 0x00 := if_pos hr

/-- A Cauchy entry of two bytes is the inverse of their sum (R110). -/
theorem genValue_toNat_of_le {k : Nat} {r : Byte} (hr : k ≤ r.toNat) (c : Byte) :
    genValue k r.toNat c.toNat = gfQuot 0x01 (r ^^^ c) := by
  rw [genValue, if_neg (Nat.not_lt.mpr hr), BitVec.ofNat_toNat, BitVec.ofNat_toNat, BitVec.setWidth_eq,
    BitVec.setWidth_eq]

/-- Settles O14: the entry is `genValue`, and the divisor of a Cauchy entry is not zero because `c` is below `k`. -/
theorem genqReadsTheMatrix : Obligations.GenqReadsTheMatrix := by
  intro r c s hk hkm hr hc
  refine ⟨genValue s.kNat r.toNat c.toNat,
    exec_scalarResult (ruleGenq_valid (s := s.clearResults) (validKm_iff.mpr ⟨hk, hkm⟩) hr hc), fun hrk => ?_,
    fun hkr => ?_⟩
  · rw [genValue_of_lt hrk]
    simp only [BitVec.toNat_inj]
  · have hne : r ^^^ c ≠ 0x00 := by
      intro h0
      obtain rfl := BitVec.xor_eq_zero_iff.mp h0
      omega
    exact ⟨hne, by rw [genValue_toNat_of_le hkr, gfMul_gfQuot 0x01 hne]⟩

/-- Settles O15: the two checks in their order, on sums of naturals. -/
theorem genqErrorsInOrder : Obligations.GenqErrorsInOrder := by
  intro r c s
  refine ⟨fun hinvalid => ?_, fun hk hkm houtside => ?_⟩
  · have hv : ¬ validKm s.kNat s.mNat = true := by
      rw [validKm_iff]
      omega
    exact exec_failedWith (e := .invalidParameters) (ruleGenq_of_error (s := s.clearResults) (if_pos hv))
  · have hv := validKm_iff.mpr ⟨hk, hkm⟩
    exact exec_failedWith (e := .indexOutOfRange)
      (ruleGenq_of_error (s := s.clearResults) ((if_neg (not_not.mpr hv)).trans (if_pos houtside)))

/-- Settles O16: inside a valid matrix the rows are those of `genValue`, which is evaluated. -/
theorem workedMatrixThreeTwo : Obligations.WorkedMatrixThreeTwo := by
  calc collect (genRow 3 2) (List.range 5)
      = .ok ((List.range 5).map fun r => (List.range 3).map (genValue 3 r)) :=
        collect_eq_map fun r hr => genRow_valid (by decide) (List.mem_range.mp hr)
    _ = _ := by decide +kernel

end Sys2Proof.Machine
end

section
/-! PROOF. `gf_matinv` inverts (R130, R131): at the end of the loop `W` is the identity and `W x = V y` still has the
solutions of `S x = y`, so `V` takes `y` back to `x`. With the MDS property, any `k` distinct rows of the generator matrix
have an inverse (R114). -/

namespace Sys2Proof.Machine

/-! ### Rows and columns of the identity -/

theorem xorOver_congr {n : Nat} {e f : Nat → Byte} (h : ∀ i, i < n → e i = f i) : xorOver n e = xorOver n f :=
  congrArg xorAll (List.map_congr_left fun i hi => h i (List.mem_range.mp hi))

theorem gfDot_comm (row col : List Byte) : gfDot row col = gfDot col row :=
  congrArg xorAll (List.zipWith_comm_of_comm gfMul_comm)

theorem identityRow_length (n i : Nat) : (identityRow n i).length = n := by
  simp [identityRow]

theorem identityRow_getD {n j : Nat} (hj : j < n) (i : Nat) :
    (identityRow n i).getD j 0x00 = if i = j then 0x01 else 0x00 := by
  simp [identityRow, hj]

/-- A row of the identity is an identity row of the generator matrix, and picks one entry. -/
theorem gfDot_identityRow {n i : Nat} (hi : i < n) {x : List Byte} (hx : x.length = n) :
    gfDot (identityRow n i) x = x.getD i 0x00 := by
  have hrow : identityRow n i = (List.range n).map (genValue n i) :=
    List.map_congr_left fun c _ => (genValue_of_lt hi).symm
  rw [hrow, gfDot_generatorRow i hx, xorOver_identityRow hi]

/-! ### The end of the loop -/

/-- The loop makes every column still to do a unit column and keeps the solutions (R130). -/
theorem pivotColumns_turns {n : Nat} {rows rows' : List WorkRow} {c m : Nat} (hcm : c + m = n) (hs : WorkSized n rows)
    (hu : UnitColumns n c rows) (h : pivotColumns n (List.range' c m) rows = .ok rows') :
    WorkSized n rows' ∧ UnitColumns n n rows' ∧ ∀ x y, Solves rows' x y ↔ Solves rows x y := by
  induction m generalizing c rows with
  | zero =>
    cases h
    obtain rfl : c = n := hcm
    exact ⟨hs, hu, fun _ _ => Iff.rfl⟩
  | succ m ih =>
    have hc : c < n := by omega
    rw [List.range'_succ, pivotColumns_cons] at h
    obtain ⟨rows₁, h₁, h⟩ := bind_ok h
    obtain ⟨hs', hu', hsol⟩ := ih (by omega) (pivotColumn_sized hs hc h₁) (unitColumns_pivotColumn hs hc h₁ hu) h
    exact ⟨hs', hu', fun x y => (hsol x y).trans (solves_pivotColumn hs hc h₁ x y)⟩

/-- With `W` the identity a solution of `W x = V y` is `V y`. -/
theorem gfDot_v_of_solves {n : Nat} {rows : List WorkRow} (hs : WorkSized n rows) (hu : UnitColumns n n rows)
    {x y : List Byte} (hx : x.length = n) (h : Solves rows x y) {r : Nat} (hr : r < n) :
    gfDot (workRow rows r).v y = x.getD r 0x00 := by
  obtain ⟨hlen, hsize⟩ := hs
  have hw : (workRow rows r).w = identityRow n r := by
    refine List.ext_getElem ((hsize r hr).1.trans (identityRow_length n r).symm) fun j hj hj' => ?_
    have hjn : j < n := identityRow_length n r ▸ hj'
    rw [← List.getD_eq_getElem _ 0x00 hj, ← List.getD_eq_getElem _ 0x00 hj', ← workEntry_eq, hu r j hr hjn,
      identityRow_getD hjn]
  have hrow := h r (hlen ▸ hr)
  rw [WorkRow.residue, hw, gfDot_identityRow hr hx] at hrow
  exact (BitVec.xor_eq_zero_iff.mp hrow).symm

theorem workStart_sized {n : Nat} {mat : List (List Byte)} (hlen : mat.length = n) (hrow : ∀ row ∈ mat, row.length = n) :
    WorkSized n (workStart n mat) := by
  refine ⟨List.length_mapIdx.trans hlen, fun r hr => ?_⟩
  rw [workRow_workStart (by omega)]
  exact ⟨hrow _ (List.getElem_mem _), identityRow_length n r⟩

theorem solves_workStart {n : Nat} {mat : List (List Byte)} (hlen : mat.length = n) {x y : List Byte}
    (hy : y.length = n) (h : ∀ r, r < n → gfDot (mat.getD r []) x = y.getD r 0x00) : Solves (workStart n mat) x y := by
  intro r hr
  have hrm : r < mat.length := by simpa [workStart] using hr
  have hrn : r < n := hlen ▸ hrm
  rw [workRow_workStart hrm, WorkRow.residue, gfDot_identityRow hrn hy, ← h r hrn, List.getD_eq_getElem _ _ hrm, gfAdd_self]

/-- Where the matrix takes `x` to `y`, what `gf_matinv` returns takes `y` back to `x` (R131). -/
theorem gfMatinv_solves {n : Nat} {mat inv : List (List Byte)} (hlen : mat.length = n)
    (hrow : ∀ row ∈ mat, row.length = n) (hinv : gfMatinv n mat = .ok inv) {x y : List Byte} (hx : x.length = n)
    (hy : y.length = n) (h : ∀ r, r < n → gfDot (mat.getD r []) x = y.getD r 0x00) {r : Nat} (hr : r < n) :
    gfDot (inv.getD r []) y = x.getD r 0x00 := by
  rw [gfMatinv_eq_bind, List.range_eq_range'] at hinv
  obtain ⟨rows, hrows, hinv⟩ := bind_ok hinv
  cases hinv
  obtain ⟨hs, hu, hsol⟩ := pivotColumns_turns (Nat.zero_add n) (workStart_sized hlen hrow)
    (fun _ j _ hj => absurd hj (Nat.not_lt_zero j)) hrows
  have hv : (rows.map (·.v)).getD r [] = (workRow rows r).v := List.getD_map (d := (⟨[], []⟩ : WorkRow)) ..
  rw [hv, gfDot_v_of_solves hs hu hx ((hsol x y).mpr (solves_workStart hlen hy h)) hr]

/-! ### The product -/

/-- The rows of a matrix, or of shards, given by their bytes: `n` rows of `l` bytes. -/
def byteRows (n l : Nat) (f : Nat → Nat → Byte) : List (List Byte) :=
  (List.range n).map fun i => (List.range l).map (f i)

theorem byteRows_size (n l : Nat) (f : Nat → Nat → Byte) :
    (byteRows n l f).length = n ∧ ∀ row ∈ byteRows n l f, row.length = l := by
  refine ⟨by simp [byteRows], fun row hrow => ?_⟩
  obtain ⟨i, -, rfl⟩ := List.mem_map.mp hrow
  rw [List.length_map, List.length_range]

theorem getD_map_range {n i : Nat} (hi : i < n) {α : Type} (f : Nat → α) (d : α) :
    ((List.range n).map f).getD i d = f i := by
  simp [hi]

/-- A matrix takes a column of the identity to its own column. -/
theorem gfDot_byteRows_identityRow {n i j : Nat} (hi : i < n) (hj : j < n) (mat : Nat → Nat → Byte) :
    gfDot ((byteRows n n mat).getD i []) (identityRow n j) = mat i j := by
  have hlen : ((List.range n).map (mat i)).length = n := by rw [List.length_map, List.length_range]
  rw [byteRows, getD_map_range hi, gfDot_comm, gfDot_identityRow hj hlen, getD_map_range hj]

/-- The matrix `gf_matinv` returns times the given one is the identity (R131). -/
theorem gfMatinv_product {n : Nat} {mat : Nat → Nat → Byte} {inv : List (List Byte)}
    (hinv : gfMatinv n (byteRows n n mat) = .ok inv) :
    ProductIsIdentity n (fun i t => (inv.getD i []).getD t 0x00) mat := by
  intro i j hi hj
  obtain ⟨hlen, hrow⟩ := byteRows_size n n mat
  obtain ⟨hilen, hirow⟩ := gfMatinv_size hlen hinv
  have hcolumn : ((List.range n).map (mat · j)).length = n := by rw [List.length_map, List.length_range]
  have hrowi : (inv.getD i []).length = n := by
    rw [List.getD_eq_getElem _ _ (by omega)]
    exact hirow _ (List.getElem_mem _)
  calc matProduct n (fun i t => (inv.getD i []).getD t 0x00) mat i j
      = gfDot (inv.getD i []) ((List.range n).map (mat · j)) := by
        rw [gfDot_eq_xorOver hrowi hcolumn]
        exact xorOver_congr fun t ht => by rw [getD_map_range ht]
    _ = (identityRow n j).getD i 0x00 := gfMatinv_solves hlen hrow hinv (identityRow_length n j) hcolumn
        (fun r hr => by rw [gfDot_byteRows_identityRow hr hj, getD_map_range hr]) hi
    _ = if i = j then 0x01 else 0x00 := by simp only [identityRow_getD hi, eq_comm]

/-! ### The generator matrix -/

/-- The submatrix of a selection by its entries (R148). -/
theorem submatrix_valid {k m : Nat} {sel : List Nat} (hv : validKm k m = true) (hlen : sel.length = k)
    (hr : ∀ g ∈ sel, g < k + m) :
    submatrix k m sel = .ok (byteRows k k fun t c => genValue k (sel.getD t 0) c) := by
  rw [submatrix, collect_eq_map fun g hg => genRow_valid hv (hr g hg), byteRows]
  refine congrArg _ (List.ext_getElem (by simp [hlen]) fun t ht _ => ?_)
  rw [List.length_map] at ht
  simp [ht]

/-- Settles O17: `gf_matinv` inverts the chosen rows, which annihilate only the zero vector. -/
theorem anyRowsAreInvertible : Obligations.AnyRowsAreInvertible := by
  intro k m sel hk hkm hlen hd hr
  have hv := validKm_iff.mpr ⟨hk, hkm⟩
  obtain ⟨sub, inv, hsub, hinv⟩ := exists_gfMatinv_submatrix hv hlen hd hr
  obtain rfl := Except.ok.inj ((submatrix_valid hv hlen hr).symm.trans hsub)
  exact ⟨_, gfMatinv_product hinv⟩

end Sys2Proof.Machine
end

section
/-! PROOF. `ENCODE` on written originals (R120, R123, R124): the input columns are read, each recovery shard is a row of the
generator matrix times them, and every stored byte reads back. -/

namespace Sys2Proof.Machine

section Shards

variable {s : State}

/-- Input shards that hold a value in every byte are combined into one of `L` bytes (R120, R150). -/
theorem State.combineShards_of_written {data : Nat → Nat → Byte} {ps : List Nat}
    (h : ∀ p ∈ ps, ∀ b, b < s.lNat → s.mem.read (inDataAt s.lNat p b) = some (data p b)) (row : List Byte) :
    s.combineShards row ps = .ok ((List.range s.lNat).map fun b => gfDot row (ps.map (data · b))) := by
  refine collect_eq_map fun b hb => ?_
  have hcolumn : s.inColumn ps b = .ok (ps.map (data · b)) :=
    collect_eq_map fun p hp => State.engineByte_ok.mpr (h p hp b (List.mem_range.mp hb))
  rw [hcolumn, ok_bind]

theorem codeByte_recovery (k : Nat) (orig : Nat → Nat → Byte) (j b : Nat) :
    codeByte k orig (k + j) b = xorOver k fun i => gfMul (genValue k (k + j) i) (orig i b) :=
  if_neg (Nat.not_lt.mpr (Nat.le_add_right k j))

/-- Recovery shard `j` of written originals is shard `k + j` of their code (R18, R120). -/
theorem State.recoveryShard_of_written {orig : Nat → Nat → Byte} (hv : validKm s.kNat s.mNat = true)
    (h : s.InputHolds s.kNat orig) {j : Nat} (hj : j < s.mNat) :
    s.recoveryShard j = .ok ((List.range s.lNat).map (codeByte s.kNat orig (s.kNat + j))) := by
  rw [State.recoveryShard, genRow_valid hv (by omega), ok_bind,
    State.combineShards_of_written fun p hp b hb => h p b (List.mem_range.mp hp) hb]
  refine congrArg _ (List.map_congr_left fun b _ => ?_)
  rw [gfDot_generatorRow _ (by rw [List.length_map, List.length_range]), codeByte_recovery]
  exact xorOver_congr fun i hi => by rw [getD_map_range hi]

/-- What `ENCODE` makes of written originals (R120). -/
theorem ruleEncode_of_written {orig : Nat → Nat → Byte} (hk : 1 ≤ s.kNat) (hkm : s.kNat + s.mNat ≤ 256)
    (hcount : s.countNat = s.kNat) (hlen : s.inLen = s.l) (h : s.InputHolds s.kNat orig) :
    ruleEncode s = .ok { s with
      mem := s.mem.writeRows (outDataAt s.lNat 0 0) s.lNat
        (byteRows s.mNat s.lNat fun j => codeByte s.kNat orig (s.kNat + j))
      outLen := s.l, outCount := s.m.setWidth 32, outMode := 0 } := by
  have hshards : collect s.recoveryShard (List.range s.mNat) =
      .ok (byteRows s.mNat s.lNat fun j => codeByte s.kNat orig (s.kNat + j)) :=
    collect_eq_map fun j hj => State.recoveryShard_of_written (validKm_iff.mpr ⟨hk, hkm⟩) h (List.mem_range.mp hj)
  rw [ruleEncode, encodeCheck_valid hk hkm hcount hlen, raiseIf, ok_bind, hshards, ok_bind]

end Shards

/-- Stored output shards read back byte by byte (R60). -/
theorem Memory.read_writeShards (mem : Memory) {n l : Nat} (f : Nat → Nat → Byte) {j b : Nat} (hj : j < n) (hb : b < l) :
    (mem.writeRows (outDataAt l 0 0) l (byteRows n l f)).read (outDataAt l j b) = some (f j b) := by
  obtain ⟨hlen, hrow⟩ := byteRows_size n l f
  have hj' : j < (byteRows n l f).length := hlen.symm ▸ hj
  have hb' : b < (byteRows n l f)[j].length := (hrow _ (List.getElem_mem hj')).symm ▸ hb
  rw [outDataAt_eq l j b, Memory.read_writeRows_inside _ _ _ _ (fun row hr => (hrow row hr).le) hj' hb']
  simp [byteRows]

/-- Settles O18: the rule stores the recovery shards of the code, and each byte reads back. -/
theorem encodeMakesRecoveryShards : Obligations.EncodeMakesRecoveryShards := by
  intro s orig hk hkm hcount hlen h
  have hrule := ruleEncode_of_written (s := s.clearResults) hk hkm hcount hlen h
  refine ⟨_, (exec_eq_complete .encode s).trans (State.complete_of_ok hrule), rfl, rfl, rfl, ?_, rfl,
    fun j b hj hb => ?_⟩
  · exact BitVec.toNat_setWidth_of_le (by decide)
  · rw [← codeByte_recovery]
    exact Memory.read_writeShards s.mem (fun j => codeByte s.kNat orig (s.kNat + j)) hj hb

end Sys2Proof.Machine
end

section
/-! PROOF. `DECODE` never raises `SingularMatrix` (R114, R149): its checks raise other errors, and past them the selected
rows are inverted. -/

namespace Sys2Proof.Machine

/-- Past the checks a reconstruction raises nothing. -/
theorem ruleReconstruct_raisesOnly_nil {idx : List Nat} {s : State} (hv : validKm s.kNat s.mNat = true)
    (hidx : decodeIndexCheck s.kNat s.mNat idx = none) : RaisesOnly [] (ruleReconstruct idx s) := by
  obtain ⟨hr, hd, henough⟩ := decodeIndexCheck_none hidx
  obtain ⟨sub, inv, hsub, hinv⟩ := exists_gfMatinv_submatrix hv (selectShards_length hr hd henough)
    ((selectShards_rising s.kNat s.mNat idx).imp Nat.ne_of_lt) fun g hg => hr g (mem_of_mem_selectShards hg)
  simp only [ruleReconstruct, hsub, hinv, ok_bind]
  exact .bind (.collect fun i _ => s.combineShards_raisesOnly _ _ _) fun _ _ => .ok _

/-- The errors of `DECODE`'s validation (R142). -/
def decodeCheckErrors : List ErrorName :=
  [.invalidParameters, .shardLengthMismatch, .tooFewShards, .duplicateIndex, .indexOutOfRange, .capacityExceeded]

theorem decodeHeaderCheck_mem_checkErrors {s : State} {e : ErrorName} (h : decodeHeaderCheck s = some e) :
    e ∈ decodeCheckErrors := by
  rw [decodeHeaderCheck] at h
  split_ifs at h <;> cases h <;> decide

theorem decodeIndexCheck_mem_checkErrors {k m : Nat} {idx : List Nat} {e : ErrorName}
    (h : decodeIndexCheck k m idx = some e) : e ∈ decodeCheckErrors := by
  rw [decodeIndexCheck] at h
  split_ifs at h <;> cases h <;> decide

/-- `DECODE` raises only what its validation raises. -/
theorem ruleDecode_raisesOnly_checkErrors (s : State) : RaisesOnly decodeCheckErrors (ruleDecode s) := by
  refine .check (fun e => decodeHeaderCheck_mem_checkErrors) fun hheader => ?_
  refine .bind (s.presentIndices_raisesOnly _) fun idx _ =>
    .check (fun e => decodeIndexCheck_mem_checkErrors) fun hidx => ?_
  split
  · exact .ok _
  · intro e he
    exact absurd (ruleReconstruct_raisesOnly_nil (decodeHeaderCheck_none hheader).1 hidx e he) List.not_mem_nil

theorem decodeCheckErrors_code : ∀ e ∈ decodeCheckErrors, e.code ≠ 6 := by decide

/-- Settles O29: no error of the validation has the number 6, and nothing else is raised. -/
theorem decodeIsNeverSingular : Obligations.DecodeIsNeverSingular := by
  intro s t hexec
  rcases exec_next hexec with ⟨u, -, rfl⟩ | ⟨e, hrule, rfl⟩
  · exact show errField statusDone ≠ 6 by decide
  · rw [State.raised_status, errField_statusError]
    exact decodeCheckErrors_code e (ruleDecode_raisesOnly_checkErrors _ e hrule)

end Sys2Proof.Machine
end

section
/-! PROOF. The validation of `ENCODE` (R121): its errors in their order, and none past it, as the Cauchy divisors of a valid
matrix are not `0x00` (R111). -/

namespace Sys2Proof.Machine

/-- With `K` and `M` valid the recovery shards raise nothing (R111). -/
theorem State.recoveryShards_raisesOnly {s : State} (hv : validKm s.kNat s.mNat = true) (es : List ErrorName) :
    RaisesOnly es (collect s.recoveryShard (List.range s.mNat)) := by
  refine .collect fun j hj => ?_
  have hrow : s.kNat + j < s.kNat + s.mNat := Nat.add_lt_add_left (List.mem_range.mp hj) _
  exact .bind (genRow_raisesOnly hv hrow es) fun row _ => s.combineShards_raisesOnly row _ es

/-- `ENCODE` raises what its validation finds, and nothing else (R121). -/
theorem ruleEncode_raise_iff {s : State} {e : ErrorName} :
    ruleEncode s = .error (.raise e) ↔ encodeCheck s = some e := by
  refine ⟨fun h => ?_, fun h => by rw [ruleEncode, h, raiseIf, error_bind]⟩
  rcases bind_error h with h | ⟨_, hcheck, h⟩
  · obtain ⟨e', he', hraise⟩ := raiseIf_error h
    rw [he', Stop.raise.inj hraise]
  · have hv := (encodeCheck_none (raiseIf_ok hcheck)).1
    rcases bind_error h with h | ⟨_, -, h⟩
    · exact absurd (State.recoveryShards_raisesOnly hv [] e h) List.not_mem_nil
    · cases h

/-- The validation on the operands, with `valid_km` written out (R112, R121). -/
theorem encodeCheck_eq (s : State) : encodeCheck s =
    if ¬ (1 ≤ s.kNat ∧ s.kNat + s.mNat ≤ 256) then some .invalidParameters
    else if Config.LMAX < s.lNat then some .capacityExceeded
    else if s.countNat ≠ s.kNat then some .shardCountMismatch
    else if s.inLen ≠ s.l then some .shardLengthMismatch
    else none := by
  simp only [encodeCheck, validKm_iff]

theorem encodeCheck_clearResults (s : State) : encodeCheck s.clearResults = encodeCheck s := rfl

/-- The error the validation finds is the one `ENCODE` completes with (R121, R165). -/
theorem exec_encode_of_check {s : State} {e : ErrorName} (h : encodeCheck s = some e) :
    exec .encode s = .next (s.failedWith (statusError e)) :=
  exec_failedWith (ruleEncode_raise_iff.mpr ((encodeCheck_clearResults s).trans h))

/-- Past the validation `ENCODE` completes only with success (R121). -/
theorem exec_encode_status {s t : State} (hcheck : encodeCheck s = none) (h : exec .encode s = .next t) :
    t.status = statusDone := by
  rcases exec_next h with ⟨u, -, rfl⟩ | ⟨e, hraise, -⟩
  · rfl
  · have hsome := ruleEncode_raise_iff.mp hraise
    rw [encodeCheck_clearResults, hcheck] at hsome
    cases hsome

/-- Settles O19: the validation has the same cases in the same order, and it alone decides the error. -/
theorem encodeErrorsInOrder : Obligations.EncodeErrorsInOrder := by
  intro s
  have hcheck := encodeCheck_eq s
  split_ifs at hcheck ⊢
  · exact exec_encode_of_check (e := .capacityExceeded) hcheck
  · exact exec_encode_of_check (e := .shardCountMismatch) hcheck
  · exact exec_encode_of_check (e := .shardLengthMismatch) hcheck
  · exact fun t h => exec_encode_status hcheck h
  · exact exec_encode_of_check (e := .invalidParameters) hcheck

end Sys2Proof.Machine
end

section
/-! PROOF. `MATINV` (R130 to R135): over a field a left inverse is the inverse, from both sides and alone (R131). So a
matrix that has one annihilates only the zero vector and `gf_matinv` returns that inverse, and for a matrix without one it
can only raise `SingularMatrix`. -/

namespace Sys2Proof.Machine

/-! ### Matrices of bytes as matrices over the field -/

section Field

variable {F : Type} [Field F] (φ : GfEmbedding F) {n : Nat}

/-- The `n × n` matrix over the field that the embedding makes of a matrix of bytes. -/
def GfEmbedding.matrix (n : Nat) (a : Nat → Nat → Byte) : Matrix (Fin n) (Fin n) F := fun i j => φ.toField (a i j)

theorem GfEmbedding.map_matProduct (a b : Nat → Nat → Byte) (i j : Fin n) :
    φ.toField (matProduct n a b i j) = (φ.matrix n a * φ.matrix n b) i j := by
  rw [matProduct, φ.map_xorOver, Finset.sum_range, Matrix.mul_apply]
  exact Finset.sum_congr rfl fun t _ => φ.map_gfMul _ _

theorem GfEmbedding.productIsIdentity_iff {a b : Nat → Nat → Byte} :
    ProductIsIdentity n a b ↔ φ.matrix n a * φ.matrix n b = 1 := by
  have hone : ∀ i j : Fin n, φ.toField (if i.val = j.val then 0x01 else 0x00) = (1 : Matrix (Fin n) (Fin n) F) i j := by
    intro i j
    rw [apply_ite φ.toField, φ.map_one, φ.map_zero, Matrix.one_apply]
    simp only [Fin.ext_iff]
  refine ⟨fun h => Matrix.ext fun i j => ?_, fun h i j hi hj => φ.injective ?_⟩
  · rw [← φ.map_matProduct, h i j i.isLt j.isLt, hone]
  · rw [φ.map_matProduct a b ⟨i, hi⟩ ⟨j, hj⟩, h, ← hone]

/-- A row of a matrix of bytes times a column, over the field. -/
theorem GfEmbedding.map_gfDot_row (mat : Nat → Nat → Byte) {x : List Byte} (hx : x.length = n) (i : Fin n) :
    φ.toField (gfDot ((List.range n).map (mat i)) x) =
      (φ.matrix n mat).mulVec (fun t => φ.toField (x.getD t 0x00)) i := by
  rw [gfDot_eq_xorOver (by rw [List.length_map, List.length_range]) hx, φ.map_xorOver, Finset.sum_range]
  refine Finset.sum_congr rfl fun t _ => ?_
  rw [getD_map_range t.isLt, φ.map_gfMul]
  rfl

end Field

/-! ### Left inverses -/

section Inverse

variable {n : Nat} {mat inv inv' : Nat → Nat → Byte}

/-- A left inverse is a right inverse (R131). -/
theorem ProductIsIdentity.comm (h : ProductIsIdentity n inv mat) : ProductIsIdentity n mat inv := by
  obtain ⟨F, _, ⟨φ⟩⟩ := exists_gfEmbedding
  exact φ.productIsIdentity_iff.mpr (mul_eq_one_comm.mp (φ.productIsIdentity_iff.mp h))

/-- A matrix has at most one left inverse (R131). -/
theorem ProductIsIdentity.left_unique (h : ProductIsIdentity n inv mat) (h' : ProductIsIdentity n inv' mat) {i j : Nat}
    (hi : i < n) (hj : j < n) : inv i j = inv' i j := by
  obtain ⟨F, _, ⟨φ⟩⟩ := exists_gfEmbedding
  have heq : φ.matrix n inv = φ.matrix n inv' :=
    left_inv_eq_right_inv (φ.productIsIdentity_iff.mp h) (φ.productIsIdentity_iff.mp h'.comm)
  exact φ.injective (congrFun (congrFun heq ⟨i, hi⟩) ⟨j, hj⟩)

/-- A matrix with a left inverse annihilates only the zero vector. -/
theorem ProductIsIdentity.eq_zero_of_mul_eq_zero (h : ProductIsIdentity n inv mat) {x : List Byte} (hx : x.length = n)
    (hzero : ∀ row ∈ byteRows n n mat, gfDot row x = 0x00) : ∀ b ∈ x, b = 0x00 := by
  obtain ⟨F, _, ⟨φ⟩⟩ := exists_gfEmbedding
  have hmul : (φ.matrix n mat).mulVec (fun t => φ.toField (x.getD t 0x00)) = 0 := by
    funext i
    rw [← φ.map_gfDot_row mat hx, hzero _ (List.mem_map.mpr ⟨i, List.mem_range.mpr i.isLt, rfl⟩), φ.map_zero,
      Pi.zero_apply]
  have hvec : (fun t : Fin n => φ.toField (x.getD t 0x00)) = 0 := by
    rw [← Matrix.one_mulVec (fun t : Fin n => φ.toField (x.getD t 0x00)), ← φ.productIsIdentity_iff.mp h,
      ← Matrix.mulVec_mulVec, hmul, Matrix.mulVec_zero]
  intro b hb
  obtain ⟨t, ht, rfl⟩ := List.getElem_of_mem hb
  rw [← List.getD_eq_getElem _ 0x00 ht]
  exact φ.eq_zero_iff.mp (congrFun hvec ⟨t, hx ▸ ht⟩)

end Inverse

/-! ### What `gf_matinv` answers -/

theorem eq_byteRows {n l : Nat} {rows : List (List Byte)} (hlen : rows.length = n) (hrow : ∀ row ∈ rows, row.length = l)
    {f : Nat → Nat → Byte} (h : ∀ i j, i < n → j < l → (rows.getD i []).getD j 0x00 = f i j) : rows = byteRows n l f := by
  refine List.ext_getElem (hlen.trans (byteRows_size n l f).1.symm) fun i hi _ => ?_
  have hrowi : rows[i].length = l := hrow _ (List.getElem_mem hi)
  simp only [byteRows, List.getElem_map, List.getElem_range]
  refine List.ext_getElem (by simp [hrowi]) fun j hj _ => ?_
  rw [List.getElem_map, List.getElem_range, ← h i j (hlen ▸ hi) (hrowi ▸ hj), List.getD_eq_getElem _ _ hi,
    List.getD_eq_getElem _ _ hj]

/-- `gf_matinv` returns the left inverse of a matrix that has one (R131). -/
theorem gfMatinv_of_leftInverse {n : Nat} {mat inv : Nat → Nat → Byte} (h : ProductIsIdentity n inv mat) :
    gfMatinv n (byteRows n n mat) = .ok (byteRows n n inv) := by
  obtain ⟨hlen, hrow⟩ := byteRows_size n n mat
  obtain ⟨rows, hrows⟩ := gfMatinv_of_injective hlen hrow fun x => h.eq_zero_of_mul_eq_zero
  obtain ⟨hlen', hrow'⟩ := gfMatinv_size hlen hrows
  rw [hrows, eq_byteRows hlen' hrow' fun i j hi hj => (gfMatinv_product hrows).left_unique h hi hj]

theorem pivotColumns_error {n : Nat} {cs : List Nat} {rows : List WorkRow} (hcs : ∀ c ∈ cs, c < rows.length) {x : Stop}
    (h : pivotColumns n cs rows = .error x) : x = .raise .singularMatrix := by
  induction cs generalizing rows with
  | nil => cases h
  | cons c cs ih =>
    obtain ⟨hc, hcs⟩ := List.forall_mem_cons.mp hcs
    rw [pivotColumns_cons] at h
    rcases bind_error h with h | ⟨rows', hrows', h⟩
    · exact pivotColumn_error hc h
    · exact ih (fun c' hc' => (pivotColumn_length hrows').symm ▸ hcs c' hc') h

/-- `gf_matinv` stops only by raising `SingularMatrix` (R132, R133). -/
theorem gfMatinv_error {n : Nat} {mat : List (List Byte)} (hlen : mat.length = n) {x : Stop}
    (h : gfMatinv n mat = .error x) : x = .raise .singularMatrix := by
  have hstart : (workStart n mat).length = n := List.length_mapIdx.trans hlen
  rw [gfMatinv_eq_bind] at h
  rcases bind_error h with h | ⟨_, -, h⟩
  · exact pivotColumns_error (fun c hc => hstart.symm ▸ List.mem_range.mp hc) h
  · cases h

/-- `gf_matinv` raises `SingularMatrix` for a matrix without left inverse: what it returned would be one (R131). -/
theorem gfMatinv_of_singular {n : Nat} {mat : Nat → Nat → Byte} (h : ¬ ∃ inv, ProductIsIdentity n inv mat) :
    gfMatinv n (byteRows n n mat) = .error (.raise .singularMatrix) := by
  cases hresult : gfMatinv n (byteRows n n mat) with
  | error x => rw [gfMatinv_error (byteRows_size n n mat).1 hresult]
  | ok rows => exact absurd ⟨_, gfMatinv_product hresult⟩ h

/-! ### The command -/

theorem matinvCheck_valid {n : Nat} (hn : 1 ≤ n) (hn256 : n ≤ 256) : matinvCheck n = none := by
  rw [matinvCheck_eq, if_neg (by omega)]

section Command

variable {s : State} {mat : Nat → Nat → Byte}

theorem State.matCorner_of_holds {n : Nat} (h : s.MatHolds n mat) : s.matCorner n = .ok (byteRows n n mat) :=
  collect_eq_map fun i hi => collect_eq_map fun j hj =>
    State.engineByte_ok.mpr (h i j (List.mem_range.mp hi) (List.mem_range.mp hj))

/-- On a written corner the rule of `MATINV` is `gf_matinv` and the store of what it returns (R135). -/
theorem ruleMatinv_of_holds (hk : 1 ≤ s.kNat) (hk256 : s.kNat ≤ 256) (h : s.MatHolds s.kNat mat) :
    ruleMatinv s = gfMatinv s.kNat (byteRows s.kNat s.kNat mat) >>= fun inv =>
      .ok { s with mem := s.mem.writeRows (matAt 0 0) 256 inv } := by
  rw [ruleMatinv, matinvCheck_valid hk hk256, raiseIf, ok_bind, State.matCorner_of_holds h, ok_bind]

end Command

theorem matAt_eq (i j : Nat) : matAt i j = matAt 0 0 + 256 * i + j := by
  rw [matAt, matAt]
  omega

/-- A stored corner reads back byte by byte (R31). -/
theorem Memory.read_writeCorner (mem : Memory) {n : Nat} (hn : n ≤ 256) (f : Nat → Nat → Byte) {i j : Nat} (hi : i < n)
    (hj : j < n) : (mem.writeRows (matAt 0 0) 256 (byteRows n n f)).read (matAt i j) = some (f i j) := by
  obtain ⟨hlen, hrow⟩ := byteRows_size n n f
  have hi' : i < (byteRows n n f).length := hlen.symm ▸ hi
  have hj' : j < (byteRows n n f)[i].length := (hrow _ (List.getElem_mem hi')).symm ▸ hj
  rw [matAt_eq i j, Memory.read_writeRows_inside _ _ _ _ (fun row hr => (hrow row hr).le.trans hn) hi' hj']
  simp [byteRows]

/-- Settles O21: the left inverse is the one inverse, so it is what `gf_matinv` returns and the rule stores. -/
theorem matinvInverts : Obligations.MatinvInverts := by
  intro s mat inv hk hk256 hmat hinv
  have hrule := ruleMatinv_of_holds (s := s.clearResults) hk hk256 hmat
  rw [State.clearResults_kNat, gfMatinv_of_leftInverse hinv, ok_bind] at hrule
  exact ⟨hinv.comm, _, (exec_eq_complete .matinv s).trans (State.complete_of_ok hrule), rfl, rfl, rfl, rfl, rfl,
    fun i j hi hj => Memory.read_writeCorner s.mem hk256 inv hi hj⟩

/-- Settles O22: `gf_matinv` raises `SingularMatrix`, and nothing is stored. -/
theorem matinvDetectsSingular : Obligations.MatinvDetectsSingular := by
  intro s mat hk hk256 hmat hsingular
  have hrule := ruleMatinv_of_holds (s := s.clearResults) hk hk256 hmat
  rw [State.clearResults_kNat, gfMatinv_of_singular hsingular, error_bind] at hrule
  exact exec_failedWith (i := .matinv) (e := .singularMatrix) hrule

/-- Settles O23: the dimension's check fails before the corner is read. -/
theorem matinvChecksDimension : Obligations.MatinvChecksDimension := by
  intro s hdim
  have hrule : ruleMatinv s.clearResults = .error (.raise .invalidParameters) := by
    rw [ruleMatinv, State.clearResults_kNat, matinvCheck_eq, if_pos hdim, raiseIf, error_bind]
  exact exec_failedWith (i := .matinv) (e := .invalidParameters) hrule

end Sys2Proof.Machine
end

section
/-! PROOF. The validation of `DECODE` (R142, R146): its errors in their order, none past it, and the empty result when
every original is present. -/

namespace Sys2Proof.Machine

/-- Distinct indices in range are no more than the range holds (R142). -/
theorem length_le_of_distinct {n : Nat} {idx : List Nat} (hd : idx.Nodup) (hr : ∀ g ∈ idx, g < n) : idx.length ≤ n :=
  (List.subperm_of_subset hd fun g hg => List.mem_range.mpr (hr g hg)).length_le.trans_eq List.length_range

/-! ### The checks on the operands -/

/-- The header's checks with `valid_km` written out (R112, R142). -/
theorem decodeHeaderCheck_eq (s : State) : decodeHeaderCheck s =
    if ¬ (1 ≤ s.kNat ∧ s.kNat + s.mNat ≤ 256) then some .invalidParameters
    else if Config.LMAX < s.lNat then some .capacityExceeded
    else if s.inLen ≠ s.l then some .shardLengthMismatch
    else if 256 < s.countNat then some .capacityExceeded
    else none := by
  simp only [decodeHeaderCheck, validKm_iff]

/-- The checks on the indices an input carries, their number being `IN_COUNT` (R141, R142). -/
theorem State.CarriesIndices.decodeIndexCheck_eq {s : State} {idx : List Nat} (h : s.CarriesIndices idx) :
    decodeIndexCheck s.kNat s.mNat idx =
      if ∃ g ∈ idx, s.kNat + s.mNat ≤ g then some .indexOutOfRange
      else if ¬ idx.Nodup then some .duplicateIndex
      else if s.countNat < s.kNat then some .tooFewShards
      else none := by
  obtain ⟨hcount, -⟩ := h
  simp only [decodeIndexCheck, List.any_eq_true, decide_eq_true_eq, hcount]

/-! ### The rule -/

section Input

variable {s : State} {idx : List Nat}

theorem decodeHeaderCheck_clearResults (s : State) : decodeHeaderCheck s.clearResults = decodeHeaderCheck s := rfl

theorem State.CarriesIndices.clearResults (h : s.CarriesIndices idx) : s.clearResults.CarriesIndices idx := h

/-- What an input's header and indices leave of the rule of `DECODE` (R140). -/
theorem ruleDecode_of_carries (hheader : decodeHeaderCheck s = none) (hcarries : s.CarriesIndices idx) :
    ruleDecode s = raiseIf (decodeIndexCheck s.kNat s.mNat idx) >>= fun _ =>
      if missingOriginals s.kNat idx = [] then .ok s.nothingMissing else ruleReconstruct idx s := by
  rw [ruleDecode, hheader, raiseIf, ok_bind, State.presentIndices_of_carries hcarries, ok_bind]

/-- A valid input is reconstructed from, unless nothing is missing (R140). -/
theorem ruleDecode_of_valid (hk : 1 ≤ s.kNat) (hkm : s.kNat + s.mNat ≤ 256) (hlen : s.inLen = s.l)
    (hcarries : s.CarriesIndices idx) (hd : idx.Nodup) (hr : ∀ g ∈ idx, g < s.kNat + s.mNat)
    (henough : s.kNat ≤ idx.length) :
    ruleDecode s = if missingOriginals s.kNat idx = [] then .ok s.nothingMissing else ruleReconstruct idx s := by
  have hcount : s.countNat ≤ 256 := hcarries.1 ▸ (length_le_of_distinct hd hr).trans hkm
  rw [ruleDecode_of_carries (decodeHeaderCheck_valid hk hkm hlen hcount) hcarries, decodeIndexCheck_valid hd hr henough,
    raiseIf, ok_bind]

/-- On indices the input carries, `DECODE` raises what their checks find, and nothing else (R142, R149). -/
theorem ruleDecode_raise_iff (hheader : decodeHeaderCheck s = none) (hcarries : s.CarriesIndices idx) {e : ErrorName} :
    ruleDecode s = .error (.raise e) ↔ decodeIndexCheck s.kNat s.mNat idx = some e := by
  rw [ruleDecode_of_carries hheader hcarries]
  cases hidx : decodeIndexCheck s.kNat s.mNat idx with
  | some e' => simp [raiseIf, error_bind]
  | none =>
    refine iff_of_false (fun h => ?_) (by simp)
    rw [raiseIf, ok_bind] at h
    split at h
    · cases h
    · exact absurd (ruleReconstruct_raisesOnly_nil (decodeHeaderCheck_none hheader).1 hidx e h) List.not_mem_nil

/-! ### The command -/

/-- The error the header's checks find is the one `DECODE` completes with, before it reads an index (R142, R165). -/
theorem exec_decode_of_headerCheck {e : ErrorName} (h : decodeHeaderCheck s = some e) :
    exec .decode s = .next (s.failedWith (statusError e)) := by
  have hrule : ruleDecode s.clearResults = .error (.raise e) := by
    rw [ruleDecode, decodeHeaderCheck_clearResults, h, raiseIf, error_bind]
  exact exec_failedWith hrule

/-- Behind a valid header the error the indices' checks find is the one `DECODE` completes with (R142, R165). -/
theorem exec_decode_of_indexCheck (hheader : decodeHeaderCheck s = none) (hcarries : s.CarriesIndices idx)
    {e : ErrorName} (h : decodeIndexCheck s.kNat s.mNat idx = some e) :
    exec .decode s = .next (s.failedWith (statusError e)) :=
  exec_failedWith (i := .decode) ((ruleDecode_raise_iff (s := s.clearResults) hheader hcarries.clearResults).mpr h)

/-- Past the validation `DECODE` completes only with success (R142, R149). -/
theorem exec_decode_status (hheader : decodeHeaderCheck s = none) (hcarries : s.CarriesIndices idx)
    (hidx : decodeIndexCheck s.kNat s.mNat idx = none) {t : State} (h : exec .decode s = .next t) :
    t.status = statusDone := by
  rcases exec_next h with ⟨u, -, rfl⟩ | ⟨e, hraise, -⟩
  · rfl
  · have hsome := (ruleDecode_raise_iff (s := s.clearResults) hheader hcarries.clearResults).mp hraise
    exact absurd (hidx.symm.trans hsome) (by simp)

end Input

/-- Settles O28: the header's checks and then the indices' have the same cases in the same order, and they alone decide
the error. -/
theorem decodeErrorsInOrder : Obligations.DecodeErrorsInOrder := by
  intro s idx hinput
  have hheader := decodeHeaderCheck_eq s
  have hcarries : decodeHeaderCheck s = none → s.CarriesIndices idx := by
    intro hnone
    obtain ⟨hv, hlen, hcount⟩ := decodeHeaderCheck_none hnone
    obtain ⟨hk, hkm⟩ := validKm_bounds hv
    exact hinput hk hkm s.lNat_le hlen hcount
  split_ifs at hheader ⊢ with hkm hl hlen hcount hrange hd hfew
  · exact exec_decode_of_headerCheck (e := .capacityExceeded) hheader
  · exact exec_decode_of_headerCheck (e := .shardLengthMismatch) hheader
  · exact exec_decode_of_headerCheck (e := .capacityExceeded) hheader
  · exact exec_decode_of_indexCheck (e := .indexOutOfRange) hheader (hcarries hheader)
      (by rw [(hcarries hheader).decodeIndexCheck_eq, if_pos hrange])
  · exact exec_decode_of_indexCheck (e := .tooFewShards) hheader (hcarries hheader)
      (by rw [(hcarries hheader).decodeIndexCheck_eq, if_neg hrange, if_neg (not_not.mpr hd), if_pos hfew])
  · exact fun t h => .inl (exec_decode_status hheader (hcarries hheader)
      (by rw [(hcarries hheader).decodeIndexCheck_eq, if_neg hrange, if_neg (not_not.mpr hd), if_neg hfew]) h)
  · exact exec_decode_of_indexCheck (e := .duplicateIndex) hheader (hcarries hheader)
      (by rw [(hcarries hheader).decodeIndexCheck_eq, if_neg hrange, if_pos hd])
  · exact exec_decode_of_headerCheck (e := .invalidParameters) hheader

theorem missingOriginals_eq_nil {k : Nat} {idx : List Nat} (h : ∀ i, i < k → i ∈ idx) : missingOriginals k idx = [] := by
  refine List.filter_eq_nil_iff.mpr fun i hi => ?_
  simpa using h i (List.mem_range.mp hi)

/-- Settles O27: nothing is missing, so the rule passes its checks and reads and writes no more. -/
theorem decodeWithNothingMissing : Obligations.DecodeWithNothingMissing := by
  intro s idx hk hkm hlen hcarries hd hr hall
  have henough : s.kNat ≤ idx.length := by
    have hsub := List.subperm_of_subset List.nodup_range fun i hi => hall i (List.mem_range.mp hi)
    exact List.length_range.symm.trans_le hsub.length_le
  have hrule : ruleDecode s.clearResults = .ok s.clearResults.nothingMissing :=
    (ruleDecode_of_valid (s := s.clearResults) hk hkm hlen hcarries.clearResults hd hr henough).trans
      (if_pos (missingOriginals_eq_nil hall))
  exact (exec_eq_complete .decode s).trans (State.complete_of_ok hrule)

end Sys2Proof.Machine
end

section
/-! PROOF. A reconstruction (R147 to R152): the selection, the inverse of its rows, the shards they make, where each of
these is stored, and the round trip. -/

namespace Sys2Proof.Machine

/-! ### The selection -/

theorem lt_of_mem_missingOriginals {k i : Nat} {idx : List Nat} (h : i ∈ missingOriginals k idx) : i < k :=
  List.mem_range.mp (List.mem_of_mem_filter h)

/-- A present shard that is not selected is above every selected one (R147). -/
theorem lt_of_not_isSelected {k g g' : Nat} {idx : List Nat} (hg : g ∈ idx) (hnot : ¬ IsSelected k idx g)
    (hsel : IsSelected k idx g') : g' < g := by
  obtain ⟨hkg, hmany⟩ := not_or.mp fun h => hnot ⟨hg, h⟩
  rcases hsel.2 with horiginal | hfew
  · omega
  · by_contra hle
    have hsmaller := (List.monotone_filter_right idx (p := fun h => decide (k ≤ h ∧ h < g))
      (q := fun h => decide (k ≤ h ∧ h < g')) fun h hh => by
        rw [decide_eq_true_eq] at hh ⊢
        omega).length_le
    omega

/-! ### A matrix and its inverse on a vector -/

section Vector

variable {F : Type} [Field F] (φ : GfEmbedding F) {n : Nat}

/-- A matrix of bytes times a vector, over the field. -/
theorem GfEmbedding.map_mulVec (mat : Nat → Nat → Byte) (x : Nat → Byte) (i : Fin n) :
    φ.toField (xorOver n fun c => gfMul (mat i c) (x c)) = (φ.matrix n mat).mulVec (fun c => φ.toField (x c)) i := by
  rw [φ.map_xorOver, Finset.sum_range]
  exact Finset.sum_congr rfl fun c _ => φ.map_gfMul _ _

/-- A left inverse takes the product back to the vector (R131). -/
theorem ProductIsIdentity.mul_mul_vector {inv mat : Nat → Nat → Byte} (h : ProductIsIdentity n inv mat)
    (x : Nat → Byte) {i : Nat} (hi : i < n) :
    xorOver n (fun t => gfMul (inv i t) (xorOver n fun c => gfMul (mat t c) (x c))) = x i := by
  obtain ⟨F, _, ⟨φ⟩⟩ := exists_gfEmbedding
  refine φ.injective ?_
  calc φ.toField (xorOver n fun t => gfMul (inv i t) (xorOver n fun c => gfMul (mat t c) (x c)))
      = (φ.matrix n inv).mulVec ((φ.matrix n mat).mulVec fun c => φ.toField (x c)) ⟨i, hi⟩ := by
        rw [φ.map_mulVec inv _ ⟨i, hi⟩]
        exact congrArg (fun v => (φ.matrix n inv).mulVec v ⟨i, hi⟩) (funext fun t => φ.map_mulVec mat x t)
    _ = φ.toField (x i) := by
        rw [Matrix.mulVec_mulVec, φ.productIsIdentity_iff.mp h, Matrix.one_mulVec]

end Vector

/-- Every shard of a code is its generator row times the originals (R18, R110, R120). -/
theorem codeByte_eq_generatorRow (k : Nat) (orig : Nat → Nat → Byte) (g b : Nat) :
    codeByte k orig g b = xorOver k fun c => gfMul (genValue k g c) (orig c b) := by
  rw [codeByte]
  split
  · next hg => rw [xorOver_identityRow hg fun c => orig c b]
  · rfl

/-! ### What a reconstruction makes -/

/-- Byte `b` of recovered original `i`: row `i` of the inverse times the selected shards' bytes `b` (R150). -/
def recoveredByte (k : Nat) (idx sel : List Nat) (inv data : Nat → Nat → Byte) (i b : Nat) : Byte :=
  xorOver k fun t => gfMul (inv i t) (data (idx.idxOf (sel.getD t 0)) b)

theorem getD_map_selectedPositions {idx sel : List Nat} (f : Nat → Byte) {t : Nat} (ht : t < sel.length) :
    ((selectedPositions idx sel).map f).getD t 0x00 = f (idx.idxOf (sel.getD t 0)) := by
  simp [selectedPositions, ht]

theorem getD_idxOf {idx : List Nat} {g : Nat} (hg : g ∈ idx) : idx.getD (idx.idxOf g) 0 = g := by
  rw [List.getD_eq_getElem _ _ (List.idxOf_lt_length_of_mem hg), List.getElem_idxOf]

section Reconstruct

variable {s : State} {idx : List Nat}

/-- A row of the inverse times selected shards that hold a value in every byte (R150). -/
theorem State.recoveredShard_of_written {sel : List Nat} {data : Nat → Nat → Byte} (hlen : sel.length = s.kNat)
    (h : ∀ p ∈ selectedPositions idx sel, ∀ b, b < s.lNat → s.mem.read (inDataAt s.lNat p b) = some (data p b))
    (inv : Nat → Nat → Byte) {i : Nat} (hi : i < s.kNat) :
    s.recoveredShard (byteRows s.kNat s.kNat inv) (selectedPositions idx sel) i =
      .ok ((List.range s.lNat).map (recoveredByte s.kNat idx sel inv data i)) := by
  rw [State.recoveredShard, State.combineShards_of_written h, byteRows, getD_map_range hi]
  refine congrArg _ (List.map_congr_left fun b _ => ?_)
  rw [gfDot_eq_xorOver (n := s.kNat) (by simp) (by simp [selectedPositions, hlen]), recoveredByte]
  exact xorOver_congr fun t ht => by rw [getD_map_range ht, getD_map_selectedPositions _ (hlen.symm ▸ ht)]

/-- The recovered shards, one per missing original (R150). -/
def recoveredBytes (s : State) (idx : List Nat) (inv data : Nat → Nat → Byte) : List (List Byte) :=
  byteRows (missingOriginals s.kNat idx).length s.lNat fun q =>
    recoveredByte s.kNat idx (selectShards s.kNat s.mNat idx) inv data ((missingOriginals s.kNat idx).getD q 0)

/-- The positions of the selected shards hold the selected shards' bytes (R147). -/
theorem State.SelectedHold.read_selectedPositions {data : Nat → Nat → Byte} (h : s.SelectedHold idx data) (hd : idx.Nodup)
    (hr : ∀ g ∈ idx, g < s.kNat + s.mNat) {p : Nat} (hp : p ∈ selectedPositions idx (selectShards s.kNat s.mNat idx))
    {b : Nat} (hb : b < s.lNat) : s.mem.read (inDataAt s.lNat p b) = some (data p b) := by
  have hlt := selectedPositions_lt hp
  obtain ⟨g, hg, rfl⟩ := List.mem_map.mp hp
  refine h _ b hlt ?_ hb
  rw [List.getElem_idxOf hlt]
  exact (mem_selectShards hd hr g).mp hg

theorem collect_recoveredShard_of_written {data : Nat → Nat → Byte} (hd : idx.Nodup)
    (hr : ∀ g ∈ idx, g < s.kNat + s.mNat) (hlen : (selectShards s.kNat s.mNat idx).length = s.kNat)
    (inv : Nat → Nat → Byte) (h : s.SelectedHold idx data) :
    collect (s.recoveredShard (byteRows s.kNat s.kNat inv)
      (selectedPositions idx (selectShards s.kNat s.mNat idx))) (missingOriginals s.kNat idx) =
        .ok (recoveredBytes s idx inv data) := by
  rw [collect_eq_map fun i hi => State.recoveredShard_of_written hlen
    (fun p hp b hb => h.read_selectedPositions hd hr hp hb) inv (lt_of_mem_missingOriginals hi),
    recoveredBytes, byteRows]
  refine congrArg _ (List.ext_getElem (by simp) fun q hq _ => ?_)
  rw [List.length_map] at hq
  rw [List.getElem_map, List.getElem_map, List.getElem_range, List.getD_eq_getElem _ _ hq]

variable (hv : validKm s.kNat s.mNat = true) (hd : idx.Nodup) (hr : ∀ g ∈ idx, g < s.kNat + s.mNat)
  (henough : s.kNat ≤ idx.length)

include hv hd hr henough

/-- The selected rows are inverted, and the rest of a reconstruction combines shards and stores (R148 to R150). -/
theorem exists_ruleReconstruct_eq : ∃ inv,
    ProductIsIdentity s.kNat inv (fun t c => genValue s.kNat ((selectShards s.kNat s.mNat idx).getD t 0) c) ∧
    ruleReconstruct idx s =
      collect (s.recoveredShard (byteRows s.kNat s.kNat inv)
        (selectedPositions idx (selectShards s.kNat s.mNat idx))) (missingOriginals s.kNat idx) >>= fun shards =>
      .ok (s.writeRecovered (missingOriginals s.kNat idx) (selectShards s.kNat s.mNat idx)
        (byteRows s.kNat s.kNat inv) shards) := by
  obtain ⟨hk, hkm⟩ := validKm_bounds hv
  have hlen := selectShards_length hr hd henough
  have hrange : ∀ g ∈ selectShards s.kNat s.mNat idx, g < s.kNat + s.mNat := fun g hg => hr g (mem_of_mem_selectShards hg)
  obtain ⟨inv, hinv⟩ := anyRowsAreInvertible s.kNat s.mNat _ hk hkm hlen
    ((selectShards_rising s.kNat s.mNat idx).imp Nat.ne_of_lt) hrange
  refine ⟨inv, hinv, ?_⟩
  simp only [ruleReconstruct, submatrix_valid hv hlen hrange, ok_bind, gfMatinv_of_leftInverse hinv]

/-- The sizes of what a reconstruction with an original missing stores. -/
theorem recoverySizes_of_collect (hmissing : missingOriginals s.kNat idx ≠ []) {inv : Nat → Nat → Byte} {ps : List Nat}
    {shards : List (List Byte)}
    (h : collect (s.recoveredShard (byteRows s.kNat s.kNat inv) ps) (missingOriginals s.kNat idx) = .ok shards) :
    RecoverySizes s (missingOriginals s.kNat idx) (selectShards s.kNat s.mNat idx) (byteRows s.kNat s.kNat inv) shards where
  valid := (Nat.le_add_right _ _).trans (validKm_bounds hv).2
  some_missing := hmissing
  missing_le := missingOriginals_length_le _ _
  sel_length := selectShards_length hr hd henough
  inverse := byteRows_size _ _ _
  shards := recoveredShards_size h

end Reconstruct

/-! ### Where a reconstruction stores it -/

theorem Memory.readHalf_writeRows_below (mem : Memory) (a stride : Nat) (rows : List (List Byte)) {a' : Nat}
    (hrow : ∀ row ∈ rows, row.length ≤ stride) (h : a' + 2 ≤ a) :
    (mem.writeRows a stride rows).readHalf a' = mem.readHalf a' := by
  rw [Memory.readHalf, Memory.readHalf, Memory.read_writeRows_beyond _ _ _ _ hrow (by omega),
    Memory.read_writeRows_beyond _ _ _ _ hrow (by omega)]

/-- A stored list of indices reads back entry by entry (R55). -/
theorem Memory.readHalf_writeIndices (mem : Memory) (a : Nat) (idx : List Nat) {i : Nat} (hi : i < idx.length) :
    (mem.writeHalves a (idx.map (BitVec.ofNat 16))).readHalf (a + 2 * i) = some (BitVec.ofNat 16 idx[i]) := by
  rw [Memory.readHalf_writeHalves_inside _ _ _ (by rwa [List.length_map]), List.getElem_map]

/-- `SEL` holds the selection (R152). -/
theorem State.writeRecovered_readHalf_sel (s : State) (missing sel : List Nat) (inv shards : List (List Byte)) {i : Nat}
    (hi : i < sel.length) :
    (s.writeRecovered missing sel inv shards).mem.readHalf (selAt i) = some (BitVec.ofNat 16 sel[i]) :=
  Memory.readHalf_writeIndices _ (selAt 0) sel hi

namespace RecoverySizes

variable {s : State} {missing sel : List Nat} {inv shards : List (List Byte)} (h : RecoverySizes s missing sel inv shards)

include h

/-- The stored selection ends where `IN_IDX` begins (R51). -/
theorem sel_end : selAt 0 + 2 * (sel.map (BitVec.ofNat 16)).length ≤ Buffer.base .inIdx := by
  have hlen := h.sel_length.trans_le h.valid
  rw [List.length_map, selAt, Buffer.base, Buffer.base]
  omega

/-- The stored indices end below `MAT` (R51). -/
theorem outIdx_end : outIdxAt 0 + 2 * (missing.map (BitVec.ofNat 16)).length ≤ matAt 0 0 := by
  have hlen := h.missing_le.trans h.valid
  rw [List.length_map, outIdxAt, matAt, Buffer.base, Buffer.base]
  omega

/-- The rows of the stored inverse end below `IN_DATA` (R51). -/
theorem corner_end : matAt 0 0 + 256 * inv.length ≤ Buffer.base .inData := by
  have hlen := h.inverse.1.trans_le h.valid
  rw [matAt, Buffer.base, Buffer.base]
  omega

theorem corner_rows : ∀ row ∈ inv, row.length ≤ 256 := fun row hrow => (h.inverse.2 row hrow).trans_le h.valid

/-- `OUT_IDX` holds the missing originals (R151). -/
theorem readHalf_outIdx {q : Nat} (hq : q < missing.length) :
    (s.writeRecovered missing sel inv shards).mem.readHalf (outIdxAt q) = some (BitVec.ofNat 16 missing[q]) := by
  have hsel : Buffer.base .inIdx ≤ outIdxAt q :=
    Nat.le_add_right_of_le (show Buffer.base .inIdx ≤ Buffer.base .outIdx by decide)
  have hcorner : outIdxAt q + 2 ≤ matAt 0 0 := by
    refine le_trans ?_ h.outIdx_end
    rw [outIdxAt, outIdxAt, List.length_map]
    omega
  exact (Memory.readHalf_writeHalves_outside _ _ _ (.inr (h.sel_end.trans hsel))).trans
    ((Memory.readHalf_writeRows_below _ _ _ _ h.corner_rows hcorner).trans
      (Memory.readHalf_writeIndices _ (outIdxAt 0) missing hq))

/-- `OUT_DATA` reads as the shards' stores left it: the later stores are below (R150). -/
theorem read_outData (q b : Nat) : (s.writeRecovered missing sel inv shards).mem.read (outDataAt s.lNat q b) =
    (s.mem.writeRows (outDataAt s.lNat 0 0) s.lNat shards).read (outDataAt s.lNat q b) := by
  have hdata : Buffer.base .inData ≤ outDataAt s.lNat q b :=
    Nat.le_add_right_of_le (show Buffer.base .inData ≤ Buffer.base .outData by decide)
  have hidx : Buffer.base .inIdx ≤ Buffer.base .inData := by decide
  have hmat : matAt 0 0 ≤ Buffer.base .inData := by decide
  exact (Memory.read_writeHalves_outside _ _ _ (.inr (h.sel_end.trans (hidx.trans hdata)))).trans
    ((Memory.read_writeRows_beyond _ _ _ _ h.corner_rows (.inr (h.corner_end.trans hdata))).trans
      (Memory.read_writeHalves_outside _ _ _ (.inr (h.outIdx_end.trans (hmat.trans hdata)))))

end RecoverySizes

/-- The corner of `MAT` holds the inverse (R152). -/
theorem RecoverySizes.matHolds {s : State} {missing sel : List Nat} {inv : Nat → Nat → Byte} {shards : List (List Byte)}
    (h : RecoverySizes s missing sel (byteRows s.kNat s.kNat inv) shards) :
    (s.writeRecovered missing sel (byteRows s.kNat s.kNat inv) shards).MatHolds s.kNat inv := by
  intro i j hi hj
  have hsel : Buffer.base .inIdx ≤ matAt i j :=
    Nat.le_add_right_of_le (show Buffer.base .inIdx ≤ Buffer.base .mat by decide)
  exact (Memory.read_writeHalves_outside _ _ _ (.inr (h.sel_end.trans hsel))).trans
    (Memory.read_writeCorner _ h.valid inv hi hj)

/-! ### The command -/

theorem missingOriginals_ne_nil {k : Nat} {idx : List Nat} (h : ∃ i, i < k ∧ i ∉ idx) : missingOriginals k idx ≠ [] := by
  obtain ⟨i, hi, hni⟩ := h
  refine List.ne_nil_of_mem (a := i) ?_
  simp [missingOriginals, hi, hni]

theorem statusError_ne_statusDone (e : ErrorName) : statusError e ≠ statusDone := by
  cases e <;> decide

/-- Settles O30: the rule has stored the selection and the inverse of its rows, and the selection takes the present
indices from below. -/
theorem decodeLeavesSelectionAndInverse : Obligations.DecodeLeavesSelectionAndInverse := by
  intro s t idx hcarries hmissing hexec hdone
  rcases exec_next hexec with ⟨u, hrule, rfl⟩ | ⟨e, -, rfl⟩
  · obtain ⟨hheader, idx', hidx', hidx, hend⟩ := ruleDecode_ok hrule
    obtain rfl : idx' = idx :=
      Except.ok.inj (hidx'.symm.trans (State.presentIndices_of_carries hcarries.clearResults))
    obtain ⟨hr, hd, henough⟩ := decodeIndexCheck_none hidx
    have hv := (decodeHeaderCheck_none hheader).1
    obtain ⟨hsome, hreconstruct⟩ := hend.resolve_left fun hnone => missingOriginals_ne_nil hmissing hnone.1
    obtain ⟨inv, hinv, hrule⟩ := exists_ruleReconstruct_eq hv hd hr henough
    obtain ⟨shards, hshards, hu⟩ := bind_ok (hrule.symm.trans hreconstruct)
    obtain rfl := Except.ok.inj hu
    have hsize := recoverySizes_of_collect hv hd hr henough hsome hshards
    have hmem := mem_selectShards hd hr
    refine ⟨_, hsize.sel_length, selectShards_rising _ _ _, fun g => mem_of_mem_selectShards, fun g hg hgk => ?_,
      fun g hg hnot g' hg' => ?_, fun i => State.writeRecovered_readHalf_sel _ _ _ _ _, inv, hsize.matHolds, hinv⟩
    · exact (hmem g).mpr ⟨hg, .inl hgk⟩
    · exact lt_of_not_isSelected hg (fun h => hnot ((hmem g).mpr h)) ((hmem g').mp hg')
  · exact absurd hdone (statusError_ne_statusDone e)

/-- The rule of `DECODE` on written shards with an original missing: it stores the inverse of the selected rows and its
products with the selected shards (R147 to R152). -/
theorem exists_ruleDecode_of_written {s : State} {idx : List Nat} {data : Nat → Nat → Byte} (hk : 1 ≤ s.kNat)
    (hkm : s.kNat + s.mNat ≤ 256) (hlen : s.inLen = s.l) (hcarries : s.CarriesIndices idx) (hd : idx.Nodup)
    (hr : ∀ g ∈ idx, g < s.kNat + s.mNat) (henough : s.kNat ≤ idx.length) (hsome : missingOriginals s.kNat idx ≠ [])
    (hdata : s.SelectedHold idx data) : ∃ inv,
      ProductIsIdentity s.kNat inv (fun t c => genValue s.kNat ((selectShards s.kNat s.mNat idx).getD t 0) c) ∧
      RecoverySizes s (missingOriginals s.kNat idx) (selectShards s.kNat s.mNat idx) (byteRows s.kNat s.kNat inv)
        (recoveredBytes s idx inv data) ∧
      ruleDecode s = .ok (s.writeRecovered (missingOriginals s.kNat idx) (selectShards s.kNat s.mNat idx)
        (byteRows s.kNat s.kNat inv) (recoveredBytes s idx inv data)) := by
  have hv := validKm_iff.mpr ⟨hk, hkm⟩
  obtain ⟨inv, hinv, hreconstruct⟩ := exists_ruleReconstruct_eq hv hd hr henough
  have hshards := collect_recoveredShard_of_written hd hr (selectShards_length hr hd henough) inv hdata
  refine ⟨inv, hinv, recoverySizes_of_collect hv hd hr henough hsome hshards, ?_⟩
  rw [ruleDecode_of_valid hk hkm hlen hcarries hd hr henough, if_neg hsome, hreconstruct, hshards, ok_bind]

/-- Settles O26: the rule has stored the inverse of the selected rows and its products with the selected shards, and each
byte reads back. -/
theorem decodeReturnsInverseTimesShards : Obligations.DecodeReturnsInverseTimesShards := by
  intro s idx data hk hkm hlen hcarries hd hr henough hmissing hdata
  rw [← missingOriginals_eq]
  obtain ⟨inv, hinv, hsize, hrule⟩ := exists_ruleDecode_of_written (s := s.clearResults) hk hkm hlen
    hcarries.clearResults hd hr henough (missingOriginals_ne_nil hmissing) hdata
  refine ⟨_, selectShards s.kNat s.mNat idx, inv, (exec_eq_complete .decode s).trans (State.complete_of_ok hrule), rfl,
    rfl, rfl, rfl, hsize.outCount_toNat, hsize.sel_length, selectShards_rising _ _ _, mem_selectShards hd hr, hinv,
    hsize.matHolds, fun q hq => ⟨hsize.readHalf_outIdx hq, fun b hb => ?_⟩⟩
  have hread := (hsize.read_outData q b).trans (Memory.read_writeShards s.mem _ hq hb)
  rw [← List.getD_eq_getElem _ 0 hq]
  exact hread

/-- Settles O25: with an original missing the inverse of the selected rows takes the selected shards, which are those rows
times the originals, back to the originals; else nothing is returned. -/
theorem decodeRecoversOriginals : Obligations.DecodeRecoversOriginals := by
  intro s idx orig hk hkm hlen hcarries hd hr henough hdata
  by_cases hmissing : ∃ i, i < s.kNat ∧ i ∉ idx
  · obtain ⟨t, sel, inv, hexec, hstatus, hres, hmode, houtLen, hcount, hsel, -, hmem, hinv, -, hout⟩ :=
      decodeReturnsInverseTimesShards s idx _ hk hkm hlen hcarries hd hr henough hmissing hdata
    refine ⟨t, hexec, hstatus, hres, hmode, houtLen, hcount, fun q hq => ⟨(hout q hq).1, fun b hb => ?_⟩⟩
    have hlt : (missingOf s.kNat idx)[q] < s.kNat := List.mem_range.mp (List.mem_of_mem_filter (List.getElem_mem hq))
    rw [(hout q hq).2 b hb, ← hinv.mul_mul_vector (fun c => orig c b) hlt]
    refine congrArg some (xorOver_congr fun i hi => ?_)
    have hpresent : sel.getD i 0 ∈ idx := by
      rw [List.getD_eq_getElem _ _ (hsel.symm ▸ hi)]
      exact ((hmem _).mp (List.getElem_mem _)).1
    rw [getD_idxOf hpresent, codeByte_eq_generatorRow]
  · have hall : ∀ i, i < s.kNat → i ∈ idx := fun i hi => by_contra fun hni => hmissing ⟨i, hi, hni⟩
    have hnone : missingOf s.kNat idx = [] := by
      rw [← missingOriginals_eq]
      exact missingOriginals_eq_nil hall
    refine ⟨_, decodeWithNothingMissing s idx hk hkm hlen hcarries hd hr hall, rfl, rfl, rfl, rfl, ?_, ?_⟩
    · rw [hnone]
      rfl
    · rw [hnone]
      exact fun q hq => absurd hq (Nat.not_lt_zero q)

end Sys2Proof.Machine
end

section
/-! PROOF. How a command can end (R76, R162, R163, R165): in success, or completed with an error its rule raised, which the
table of R162 gives it and which leaves nothing but `STATUS` and the cleared results behind. -/

namespace Sys2Proof.Machine

theorem State.raised_eq_failedWith (s : State) (e : ErrorName) : s.raised e = s.failedWith (statusError e) := rfl

/-- Settles O32: a command succeeds or completes with what its rule raises, and a rule raises what the table gives it
(`ruleOf_raisesOnly`). -/
theorem errorsOnlyAsTabled : Obligations.ErrorsOnlyAsTabled := by
  intro i s t hexec
  rcases exec_next hexec with ⟨u, -, rfl⟩ | ⟨e, hrule, rfl⟩
  · exact .inl u.succeed_status
  · exact .inr ⟨e, ruleOf_raisesOnly i _ e hrule, s.raised_status e⟩

/-- Settles O33: a command that has not succeeded is completed with an error from the state before it, so the writes of its
rule are lost. -/
theorem failureChangesOnlyStatusAndResults : Obligations.FailureChangesOnlyStatusAndResults := by
  intro i s t hexec hfailed
  rcases exec_next hexec with ⟨u, -, rfl⟩ | ⟨e, -, rfl⟩
  · exact absurd u.succeed_status hfailed
  · exact ⟨e, s.raised_eq_failedWith e⟩

end Sys2Proof.Machine
end

section
/-! PROOF. The reset event and the busy block (R180, R186): reset puts every register back, and a busy block answers the
read of `STATUS` alone. -/

namespace Sys2Proof.Machine

/-! ### The reset event -/

/-- The registers do not depend on the host's side, which the reset event keeps. -/
theorem State.resetEvent_readReg (s : State) (r : Reg) : s.resetEvent.readReg r = State.reset.readReg r := by
  cases r <;> rfl

theorem State.resetEvent_busy (s : State) : s.resetEvent.busy = false := by
  rw [State.busy, State.resetEvent_status]
  decide

/-- Settles O41: the move is carried out at once, whatever the block was doing, and what it leaves of the block is
`State.reset`. -/
theorem resetEventClearsTheBlock : Obligations.ResetEventClearsTheBlock := by
  intro s rest hagenda
  obtain ⟨hregs, -, hcmd, hmem⟩ := resetRegistersAreZero
  exact ⟨_, step_of_agenda hagenda, fun r => (State.resetEvent_readReg _ r).trans (hregs r), hcmd, hmem,
    State.resetEvent_busy _, rfl, rfl, rfl⟩

/-! ### The busy block -/

/-- A register is reached at its own offset only. -/
theorem offset_of_resolve {off n : Nat} {r : Reg} (h : resolve off n = some (.reg r)) : off = r.offset := by
  obtain ⟨-, halign, hr⟩ := resolve_reg h
  obtain ⟨hlt, rfl⟩ := List.getElem?_eq_some_iff.mp hr
  rw [Reg.offset, List.Nodup.idxOf_getElem (by decide)]
  omega

theorem State.hostAccess_read_status (s : State) : s.hostAccess (.read 0x04 4) = .next (s.deliver s.status) := by
  rw [State.hostAccess, State.hostRead, show resolve 0x04 4 = _ from resolve_offset .status]
  exact if_neg fun h => h.2 rfl

section Busy

variable {s : State} (hbusy : s.busy = true) {off n : Nat} {x : Target} (hx : resolve off n = some x)
include hbusy hx

theorem State.hostAccess_read_of_busy (hne : x ≠ .reg .status) :
    s.hostAccess (.read off n) = .refused (.protocolViolation off) := by
  rw [State.hostAccess, State.hostRead, hx]
  cases x with
  | reg r => exact if_pos ⟨hbusy, fun hr => hne (congrArg Target.reg hr)⟩
  | elem b o => exact if_pos hbusy

theorem State.hostAccess_write_of_busy (v : Word) :
    s.hostAccess (.write off n v) = .refused (.protocolViolation off) := by
  rw [State.hostAccess, State.hostWrite, hx]
  cases x with
  | reg r => exact if_pos hbusy
  | elem b o => exact if_pos hbusy

end Busy

/-- Settles O50: a performed access has a target, which is `STATUS` at offset `0x04` only. -/
theorem busyBlockAnswersOnlyStatus : Obligations.BusyBlockAnswersOnlyStatus := by
  intro s hstatus
  have hbusy : s.busy = true := by
    rw [State.busy, hstatus]
    decide
  refine ⟨?_, fun off n v hperformed => ?_⟩
  · have hread := s.hostAccess_read_status
    rwa [hstatus] at hread
  · obtain ⟨x, hx⟩ := Option.isSome_iff_exists.mp (resolve_isSome_iff.mpr hperformed)
    refine ⟨fun hoff => State.hostAccess_read_of_busy hbusy hx ?_, State.hostAccess_write_of_busy hbusy hx v⟩
    rintro rfl
    exact hoff (offset_of_resolve hx)

end Sys2Proof.Machine
end
